-- ==== Sys2Proof/Word.lean ====
section
/-! DEFINITION. The two word types of the block: a 16-bit command word (30_encoding.md R76) and a binary32 value
(00_scope.md R13), which is a bit pattern of its own type so that no integer operation applies to it by mistake. -/

namespace Sys2Proof

/-- One command word of the CMD port (30_encoding.md R71, R76). -/
abbrev CmdWord := BitVec 16

/-- An IEEE 754 binary32 value as its bit pattern: bit 31 the sign, 30:23 the exponent, 22:0 the fraction
(30_encoding.md R72). -/
structure F32 where
  bits : BitVec 32
deriving DecidableEq, Repr, Inhabited

end Sys2Proof
end

