-- ==== Sys2Proof/Config.lean ====
section
/-! DEFINITION. What the spec leaves to the implementation: the open functions SIN and EXP2 (00_scope.md R12), the bits of a
NaN result, and the configuration that State.reset is launched with (00_scope.md R9 to R11). -/

namespace Sys2Proof

/-- The binary32 operation that produced a NaN. -/
inductive NanSource where
  | add
  | sub
  | mul
  | div
deriving DecidableEq, Repr

/-- A free function. SIN is this function kept within the properties of 93_implementation_defined.md I-SIN
(`F32.sin`). Log entry 3. -/
opaque Config.rawSin : F32 → F32

/-- A free function. EXP2 is this function kept within the properties of 93_implementation_defined.md I-EXP2
(`F32.exp2`). Log entry 4. -/
opaque Config.rawExp2 : F32 → F32

/-- Free bits: the sign (bit 23) and the fraction (22:0) of the NaN an operation makes from two operands, which IEEE 754
leaves open. DESIGN CHOICE (log entry 2): they are a function of the operation (addition, subtraction, multiplication and
division each have their own) and of its two operands. -/
opaque Config.nanBits : NanSource → F32 → F32 → BitVec 24

/-- Default of SAMPLE_RATE, 44100.0 (00_scope.md R9). -/
def Config.sampleRate : F32 := ⟨0x472C4400⟩

/-- DESIGN CHOICE (log entry 5): 0.5 s; the spec gives ATTACK_TIME no value (00_scope.md R10). -/
def Config.attackTime : F32 := ⟨0x3F000000⟩

/-- DESIGN CHOICE (log entry 5): 0.5 s; the spec gives DECAY_TIME no value (00_scope.md R10). -/
def Config.decayTime : F32 := ⟨0x3F000000⟩

/-- DESIGN CHOICE (log entry 5): 0.5; the spec gives SUSTAIN_LEVEL no value (00_scope.md R10). -/
def Config.sustainLevel : F32 := ⟨0x3F000000⟩

/-- DESIGN CHOICE (log entry 5): 0.5 s; the spec gives RELEASE_TIME no value (00_scope.md R10). -/
def Config.releaseTime : F32 := ⟨0x3F000000⟩

end Sys2Proof
end

