-- ==== Sys2Proof/Syntax.lean ====
section
/-! DEFINITION. The command set of 30_encoding.md R80, one constructor per row of spec/opcode_table.json. Operands are the
integers and the waveform that DECODE hands to a command (30_encoding.md R81 to R83). -/

namespace Sys2Proof

/-- An oscillator's waveform (10_state.md R25). -/
inductive Waveform where
  | sine
  | square
  | saw
  | triangle
deriving DecidableEq, Repr

/-- A command. A note event carries the typed event of 20_memory.md R58: two integers in 0..127. -/
inductive Instr where
  | noteOff (note vel : Nat)
  | noteOn (note vel : Nat)
  | tick
  | setWaveform (wave : Waveform)
deriving DecidableEq, Repr

end Sys2Proof
end

