-- ==== Sys2Proof/Machine/State.lean ====
section
/-! DEFINITION. The state of the block: the registers of 10_state.md R20, its ports (30_encoding.md R70), and two fields of
the model's own (the host's transactions to come, and the samples emitted). -/

namespace Sys2Proof.Machine

/-- The state of an envelope (10_state.md R26). The codes 0b101, 0b110 and 0b111 are never held, so the type has five
values (93_implementation_defined.md I-ENUM). -/
inductive EnvState where
  | idle
  | attack
  | decay
  | sustain
  | release
deriving DecidableEq, Repr

/-- OSC[i] (10_state.md R23 to R25). -/
structure Osc where
  /-- OSC[i].PHASE, the sample count modulo CFG.SAMPLE_RATE (R23). -/
  phase : F32
  /-- OSC[i].FREQ in Hz (R24). -/
  freq : F32
  /-- OSC[i].WAVE (R25). -/
  wave : Waveform
deriving DecidableEq, Repr

/-- ENV[i] (10_state.md R26 to R28). -/
structure Env where
  /-- ENV[i].STATE (R26). -/
  state : EnvState
  /-- ENV[i].AMP (R27). -/
  amp : F32
  /-- ENV[i].ELAPSED, ticks since the last note event, saturating (R28). -/
  elapsed : BitVec 32
deriving DecidableEq, Repr

/-- Voice i: one oscillator, one envelope and VOICE[i].GAIN (42_voice.md R160, 10_state.md R29). -/
structure Voice where
  osc : Osc
  env : Env
  gain : F32
deriving DecidableEq, Repr

/-- SLOT[i], the assignment register beside voice i (10_state.md R30). -/
structure Slot where
  valid : Bool
  note : BitVec 7
  vel : BitVec 7
deriving DecidableEq, Repr

/-- A fixed array of N = 4 entries (00_scope.md R8). -/
structure Lanes (α : Type) where
  v0 : α
  v1 : α
  v2 : α
  v3 : α
deriving DecidableEq, Repr

/-- The configuration registers CFG.* (10_state.md R32). -/
structure Cfg where
  sampleRate : F32
  attackTime : F32
  decayTime : F32
  sustainLevel : F32
  releaseTime : F32
  waveformInit : Waveform
  gainScaling : Bool
deriving DecidableEq, Repr

/-- What the host does at the block's input ports (30_encoding.md R70). -/
inductive Transaction where
  /-- One word on CMD (R71). -/
  | command (w : CmdWord)
  /-- RESET asserted (R74); `abandoned` is the command in progress, if any, of which no effect is kept
  (60_exceptions.md R220). -/
  | reset (abandoned : Option CmdWord)
  /-- A new level on CFG_IN (R75, 70_reset_and_hazards.md R241). -/
  | driveCfg (c : BitVec 163)
deriving DecidableEq, Repr

/-- The state of the model. -/
structure State where
  /-- OSC[i], ENV[i], VOICE[i].GAIN. -/
  voices : Lanes Voice
  /-- SLOT[i], index-aligned with the voices (10_state.md R20). -/
  slots : Lanes Slot
  /-- CFG.*. -/
  cfg : Cfg
  /-- STATUS: bit 0 ILLEGAL, the rest reserved (10_state.md R33). -/
  status : BitVec 16
  /-- SAMPLE_OUT (10_state.md R34). -/
  sampleOut : F32
  /-- The level the host drives on CFG_IN (30_encoding.md R75). -/
  cfgIn : BitVec 163
  /-- The MODEL's own: the host's transactions still to come, oldest first. The stream is no state of the block
  (10_state.md R21). Log entry 7. -/
  input : List Transaction
  /-- The MODEL's own: the output events emit(v) since the last RESET, oldest first (30_encoding.md R72,
  70_reset_and_hazards.md R253). Log entry 8. -/
  emitted : List F32
deriving DecidableEq, Repr

/-- Why the machine faults (the fault reasons of 60_exceptions.md R216). -/
inductive Fault where
  /-- Code 1, ILLEGAL_COMMAND: a reserved word was executed (60_exceptions.md R211). Never answered by `step`, which goes on
  as the hardware does: `State.recordedFault` reads it from STATUS.ILLEGAL. Safe for claims that ask for no recorded
  fault. -/
  | illegalCommand
  /-- Code 3, OSC_FREQUENCY_PRECONDITION: TICK reached a non-Sine oscillator whose FREQ is not > 0.0, whose harmonic loop
  never ends (40_oscillator.md R111). Raised by `execTick`. Safe: the machine stops where the hardware hangs. -/
  | oscFrequencyPrecondition
deriving DecidableEq, Repr

/-- Why the model gives no meaning. -/
inductive Refusal where
  /-- An instruction without a meaning in this model, by its mnemonic. No arm of `exec` answers it. Safe. -/
  | notModelled (mnemonic : String)
  /-- Code 2, REFUSED_CONFIGURATION: an illegal configuration (60_exceptions.md R214, R216, R242). Raised by RESET when
  CFG_IN is illegal, and by `execTick` when CFG is. Safe: no claim is made of what the spec leaves unspecified. -/
  | refusedConfiguration
deriving DecidableEq, Repr

/-- A voice after RESET (70_reset_and_hazards.md R240) under WAVEFORM_INIT = Sine: PHASE +0.0, FREQ 440.0, Idle, AMP +0.0,
ELAPSED 0, GAIN +0.0. -/
def Voice.reset : Voice :=
  { osc := { phase := ⟨0x00000000⟩, freq := ⟨0x43DC0000⟩, wave := .sine }
    env := { state := .idle, amp := ⟨0x00000000⟩, elapsed := 0 }
    gain := ⟨0x00000000⟩ }

/-- A free slot: None (10_state.md R30). -/
def Slot.free : Slot := { valid := false, note := 0, vel := 0 }

/-- The configuration State.reset was launched with: the spec's defaults (00_scope.md R9, R11) and, for the four OPEN
parameters, the values of log entry 5. -/
def Cfg.reset : Cfg :=
  { sampleRate := Config.sampleRate
    attackTime := Config.attackTime
    decayTime := Config.decayTime
    sustainLevel := Config.sustainLevel
    releaseTime := Config.releaseTime
    waveformInit := .sine
    gainScaling := false }

/-- The block right after RESET (70_reset_and_hazards.md R240), the host having presented nothing. CFG_IN still carries the
configuration that was sampled: 44100.0, 0.5, 0.5, 0.5, 0.5, Sine, 0 in the field order of 30_encoding.md R75 (log
entry 6). -/
def State.reset : State :=
  { voices := ⟨Voice.reset, Voice.reset, Voice.reset, Voice.reset⟩
    slots := ⟨Slot.free, Slot.free, Slot.free, Slot.free⟩
    cfg := Cfg.reset
    status := 0x0000
    sampleOut := ⟨0x00000000⟩
    cfgIn := (0x472C4400#32) ++ (0x3F000000#32) ++ (0x3F000000#32) ++ (0x3F000000#32) ++ (0x3F000000#32) ++ (0b00#2) ++ (0b0#1)
    input := []
    emitted := [] }

end Sys2Proof.Machine
end

