-- ==== Sys2Proof/Machine/Flags.lean ====
section
/-! DEFINITION. The block's one flag, STATUS.ILLEGAL (10_state.md R33), its one error action (60_exceptions.md R211), which
takes the place that an exception's entry has in a processor (00_scope.md R16, 60_exceptions.md R217), and the output ports. -/

namespace Sys2Proof.Machine

/-- STATUS.ILLEGAL, bit 0. -/
def State.illegal (s : State) : Bool := s.status.getLsbD 0

/-- `set STATUS.ILLEGAL` (00_scope.md R16): the only error action. Sticky: nothing here clears it. -/
def State.setIllegal (s : State) : State := { s with status := s.status ||| 0x0001 }

/-- RESERVED(w), 60_exceptions.md R211: the flag is set, no other register changes, nothing is emitted. Neither the word nor
a count is recorded. -/
def execReserved (s : State) : State := s.setIllegal

/-- What the host reads on the STATUS port (30_encoding.md R73): bits 15:1 are reserved and read as 0 (10_state.md R33). -/
def State.statusPort (s : State) : BitVec 16 := s.status &&& 0x0001

/-- What the host reads on the SAMPLE_OUT port (30_encoding.md R72). -/
def State.sampleOutPort (s : State) : BitVec 32 := s.sampleOut.bits

/-- The fault the state has recorded (60_exceptions.md R211, R216). -/
def State.recordedFault (s : State) : Option Fault := if s.illegal then some .illegalCommand else none

/-- The codes of 60_exceptions.md R216. -/
def Fault.code : Fault → Nat
  | .illegalCommand => 1
  | .oscFrequencyPrecondition => 3

/-- The code of 60_exceptions.md R216; an instruction without a meaning has none. -/
def Refusal.code? : Refusal → Option Nat
  | .refusedConfiguration => some 2
  | _ => none

end Sys2Proof.Machine
end

