-- ==== Sys2Proof/WellFormed.lean ====
section
/-! DEFINITION. Which commands have a word: the note and the velocity of a note event are integers in 0..127
(30_encoding.md R78, R82; 43_allocator_mixer.md R181). -/

namespace Sys2Proof

/-- An integer that fits a 7-bit field (30_encoding.md R78). -/
def isMidiByte (n : Nat) : Bool := decide (n ≤ 127)

/-- The operands are in the range of their fields. TICK has no operand and every waveform is legal (30_encoding.md R83). -/
def Instr.wellFormed : Instr → Bool
  | .noteOff note vel => isMidiByte note && isMidiByte vel
  | .noteOn note vel => isMidiByte note && isMidiByte vel
  | .tick => true
  | .setWaveform _ => true

end Sys2Proof
end

