-- ==== Sys2Proof/Decode.lean ====
section
/-! DEFINITION. The decoder, total on the 65536 words (30_encoding.md R81), which names why a word is reserved (R84), and the
encoder (R78 to R80). -/

namespace Sys2Proof

/-- The 2-bit waveform codes (10_state.md R25, 30_encoding.md R83). -/
def Waveform.code : Waveform → BitVec 2
  | .sine => 0b00
  | .square => 0b01
  | .saw => 0b10
  | .triangle => 0b11

/-- The waveform of a code; all four values are legal (30_encoding.md R83). -/
def Waveform.ofCode (c : BitVec 2) : Waveform :=
  if c = 0b00 then .sine else if c = 0b01 then .square else if c = 0b10 then .saw else .triangle

/-- Why a word spells no command (30_encoding.md R84). -/
inductive ReservedReason where
  /-- OP = 0b11. -/
  | opReserved
  /-- OP = 0b10 and FUNC is neither TICK's nor SET_WAVEFORM's (R79). -/
  | funcReserved
  /-- OP = 0b10, FUNC names a command, and ARG is not what that command requires (R79). -/
  | argReserved
deriving DecidableEq, Repr

/-- What a word decodes to. -/
inductive Decoded where
  | command (i : Instr)
  | reserved (r : ReservedReason)
deriving DecidableEq, Repr

/-- OP, bits 15:14 (30_encoding.md R77). -/
def opField (w : CmdWord) : BitVec 2 := w.extractLsb' 14 2

/-- NOTE, bits 13:7, zero-extended to an integer (30_encoding.md R78, R82). -/
def noteField (w : CmdWord) : Nat := (w.extractLsb' 7 7).toNat

/-- VEL, bits 6:0, zero-extended to an integer (30_encoding.md R78, R82). -/
def velField (w : CmdWord) : Nat := (w.extractLsb' 0 7).toNat

/-- FUNC, bits 13:8 (30_encoding.md R79). -/
def funcField (w : CmdWord) : BitVec 6 := w.extractLsb' 8 6

/-- WAVE, bits 1:0 of ARG (30_encoding.md R79, R83). -/
def waveField (w : CmdWord) : BitVec 2 := w.extractLsb' 0 2

/-- A format S word (OP = 0b10), as R81 tests it. -/
def decodeSystem (w : CmdWord) : Decoded :=
  if w = 0x8000 then .command .tick
  else if w.extractLsb' 2 14 = 0b10000001000000 then .command (.setWaveform (Waveform.ofCode (waveField w)))
  else if funcField w = 0b000000 ∨ funcField w = 0b000001 then .reserved .argReserved
  else .reserved .funcReserved

/-- DECODE(w), 30_encoding.md R81. -/
def decode (w : CmdWord) : Decoded :=
  if opField w = 0b00 then .command (.noteOff (noteField w) (velField w))
  else if opField w = 0b01 then .command (.noteOn (noteField w) (velField w))
  else if opField w = 0b10 then decodeSystem w
  else .reserved .opReserved

/-- The command a word spells, if it spells one. -/
def Decoded.instr? : Decoded → Option Instr
  | .command i => some i
  | .reserved _ => none

/-- The decoder's answer for a word numbered as spec/opcode_table.json numbers it: a command is one 16-bit word
(30_encoding.md R76), bits above `nbits` are 0. -/
def decodeTableWord (nbits w : Nat) : Option Instr :=
  (decode (BitVec.ofNat 16 (w % 2 ^ nbits))).instr?

/-- The word of a format N command: OP, NOTE, VEL from the most significant bit (30_encoding.md R78). -/
def encodeNote (op : BitVec 2) (note vel : Nat) : CmdWord :=
  op ++ BitVec.ofNat 7 note ++ BitVec.ofNat 7 vel

/-- The word of a format S command: OP = 0b10, FUNC, ARG (30_encoding.md R79). -/
def encodeSystem (func : BitVec 6) (arg : BitVec 8) : CmdWord :=
  (0b10#2) ++ func ++ arg

/-- The word of a command (30_encoding.md R78 to R80). -/
def encode : Instr → CmdWord
  | .noteOff note vel => encodeNote 0b00 note vel
  | .noteOn note vel => encodeNote 0b01 note vel
  | .tick => encodeSystem 0b000000 0x00
  | .setWaveform wave => encodeSystem 0b000001 ((0b000000#6) ++ wave.code)

end Sys2Proof
end

