-- ==== Sys2Proof/Machine/Float.lean ====
section
/-! DEFINITION. IEEE 754 binary32 arithmetic (00_scope.md R13, R15): every operator computes exactly and rounds once, to
nearest, ties to even; subnormals are kept; there are no exception flags. Exact values are counted in units of 2^-149, the
least positive binary32 value, so every finite value is an integer number of units. Log entry 1. -/

namespace Sys2Proof

/-- The sign bit, bit 31. -/
def F32.sign (x : F32) : Bool := x.bits.msb

/-- Exponent and fraction, bits 30:0, as one number. It orders magnitudes. -/
def F32.mag (x : F32) : Nat := x.bits.toNat % 2 ^ 31

/-- The magnitude bits of infinity; those above it are NaN's. -/
def F32.infMag : Nat := 0x7F800000

def F32.isNaN (x : F32) : Bool := decide (F32.infMag < x.mag)

def F32.isInf (x : F32) : Bool := decide (x.mag = F32.infMag)

def F32.isFinite (x : F32) : Bool := decide (x.mag < F32.infMag)

def F32.isZero (x : F32) : Bool := decide (x.mag = 0)

/-- The number of units of 2^-149 in the value with magnitude bits `m`: the fraction alone for a subnormal, the fraction
with its hidden bit, scaled, for a normal value. Infinity's bits give 2^277, above every finite value. -/
def F32.magUnits (m : Nat) : Nat :=
  if m / 2 ^ 23 = 0 then m else (2 ^ 23 + m % 2 ^ 23) * 2 ^ (m / 2 ^ 23 - 1)

/-- The value in units of 2^-149 of a value that is not NaN. Both zeros are 0. -/
def F32.units (x : F32) : Int :=
  if x.sign then -(F32.magUnits x.mag : Int) else (F32.magUnits x.mag : Int)

/-- The value with this sign and these magnitude bits. -/
def F32.ofSignMag (neg : Bool) (m : Nat) : F32 :=
  ⟨BitVec.ofNat 32 (if neg then 2 ^ 31 + m else m)⟩

/-- `num / den` rounded to the nearest integer, ties to even. -/
def F32.roundQuot (num den : Nat) : Nat :=
  let q := num / den
  let r := num % den
  if den < 2 * r ∨ (2 * r = den ∧ q % 2 = 1) then q + 1 else q

/-- The spacing of binary32 values around `num / den` units is 2^(roundScale num den) units: it leaves 24 significant
bits, and is never finer than one unit. -/
def F32.roundScale (num den : Nat) : Nat := Nat.log2 (num / den) - 23

/-- The magnitude bits of the binary32 value nearest `num / den` units, ties to even. With `e` the spacing's exponent and
`r` the rounded significand, the bits are e·2^23 + r whether the value is subnormal, normal, or carries into the next
binade; from infinity's bits on it is infinity. -/
def F32.roundMag (num den : Nat) : Nat :=
  let e := F32.roundScale num den
  min (e * 2 ^ 23 + F32.roundQuot num (den * 2 ^ e)) F32.infMag

/-- The value nearest `num / den` units with the sign `neg`. A magnitude that rounds to 0 keeps its sign. -/
def F32.round (neg : Bool) (num den : Nat) : F32 := F32.ofSignMag neg (F32.roundMag num den)

/-- The value nearest `v` units, `v` an integer; 0 is +0.0. -/
def F32.roundInt (v : Int) : F32 := F32.round (decide (v < 0)) v.natAbs 1

/-- A NaN made by operation `o` from `a` and `b`: its sign and fraction are free (Config.nanBits), its fraction is not 0.
Log entry 2. -/
def F32.nanOf (o : NanSource) (a b : F32) : F32 :=
  let s := (Config.nanBits o a b).msb
  let f := (Config.nanBits o a b).toNat % 2 ^ 23
  F32.ofSignMag s (F32.infMag + (if f = 0 then 2 ^ 22 else f))

/-- +0.0 -/
def F32.zero : F32 := ⟨0x00000000⟩

/-- 1.0 -/
def F32.one : F32 := ⟨0x3F800000⟩

/-- −1.0 -/
def F32.negOne : F32 := ⟨0xBF800000⟩

/-- 2.0 -/
def F32.two : F32 := ⟨0x40000000⟩

/-- `−x`: the sign bit inverted. -/
def F32.neg (x : F32) : F32 := F32.ofSignMag (!x.sign) x.mag

/-- `a + b`. An exact sum of 0 is +0.0 unless both operands are negative. -/
def F32.add (a b : F32) : F32 :=
  if a.isNaN || b.isNaN then F32.nanOf .add a b
  else if a.isInf && b.isInf then (if a.sign = b.sign then a else F32.nanOf .add a b)
  else if a.isInf then a
  else if b.isInf then b
  else if a.units + b.units = 0 then F32.ofSignMag (a.sign && b.sign) 0
  else F32.roundInt (a.units + b.units)

/-- `a − b`, which IEEE 754 gives the value of `a + (−b)`. The bits of a NaN difference are free on their own, not those of
a sum (DESIGN CHOICE, log entry 2). -/
def F32.sub (a b : F32) : F32 :=
  if (a.add b.neg).isNaN then F32.nanOf .sub a b else a.add b.neg

/-- `a × b`. A product of unit counts is in units of 2^-298. -/
def F32.mul (a b : F32) : F32 :=
  if a.isNaN || b.isNaN then F32.nanOf .mul a b
  else if (a.isInf && b.isZero) || (a.isZero && b.isInf) then F32.nanOf .mul a b
  else if a.isInf || b.isInf then F32.ofSignMag (a.sign != b.sign) F32.infMag
  else F32.round (a.sign != b.sign) (F32.magUnits a.mag * F32.magUnits b.mag) (2 ^ 149)

/-- `a / b`. -/
def F32.div (a b : F32) : F32 :=
  if a.isNaN || b.isNaN then F32.nanOf .div a b
  else if (a.isInf && b.isInf) || (a.isZero && b.isZero) then F32.nanOf .div a b
  else if a.isInf || b.isZero then F32.ofSignMag (a.sign != b.sign) F32.infMag
  else if b.isInf then F32.ofSignMag (a.sign != b.sign) 0
  else F32.round (a.sign != b.sign) (F32.magUnits a.mag * 2 ^ 149) (F32.magUnits b.mag)

/-- The ordered comparison `a < b`: false when an operand is NaN; the zeros are equal. -/
def F32.lt (a b : F32) : Bool := !a.isNaN && !b.isNaN && decide (a.units < b.units)

/-- The ordered comparison `a ≤ b`, which is also `b ≥ a`. -/
def F32.le (a b : F32) : Bool := !a.isNaN && !b.isNaN && decide (a.units ≤ b.units)

/-- The ordered comparison `a = b`. -/
def F32.feq (a b : F32) : Bool := !a.isNaN && !b.isNaN && decide (a.units = b.units)

/-- `f32(k)` of a natural number (00_scope.md R15). -/
def F32.ofNat (k : Nat) : F32 := F32.round false (k * 2 ^ 149) 1

/-- `f32(k)` of an integer (00_scope.md R15). -/
def F32.ofInt (k : Int) : F32 := F32.round (decide (k < 0)) (k.natAbs * 2 ^ 149) 1

end Sys2Proof
end

