-- ==== Sys2Proof/Machine/Transcend.lean ====
section
/-! DEFINITION. The configuration functions SIN and EXP2 and the constant TWO_PI (00_scope.md R12, R15). Each function is a
free function of Config kept within the properties that 93_implementation_defined.md I-SIN and I-EXP2 let a model assume:
a free function that has the properties is itself, one that breaks them at a point is replaced at that point. So every
function the spec admits is admitted, and none other. Log entries 3 and 4. -/

namespace Sys2Proof

/-- TWO_PI (00_scope.md R15). -/
def F32.twoPi : F32 := ⟨0x40C90FDB⟩

/-- Whether I-SIN's first property admits `r` as a value of SIN at a finite argument: finite, −1.0 ≤ r ≤ 1.0. -/
def sinAdmits (r : F32) : Bool := F32.negOne.le r && r.le F32.one

/-- `raw` kept within 93_implementation_defined.md I-SIN: SIN(+0.0) = +0.0, and a value in [−1.0, 1.0] at every finite
argument. At an infinity or a NaN I-SIN says nothing, and `raw` stands. -/
def sinWithin (raw : F32 → F32) (x : F32) : F32 :=
  if !x.isFinite then raw x
  else if x = F32.zero then F32.zero
  else if sinAdmits (raw x) then raw x
  else F32.zero

/-- SIN (00_scope.md R12). -/
def F32.sin (x : F32) : F32 := sinWithin Config.rawSin x

/-- One of EXP2's 128 arguments, f32(n − 69) / 12.0, with the least, the nearest and the greatest binary32 value that
I-EXP2's property 4 admits there: |r − 2^arg| ≤ 2^-10 · 2^arg. At an integer argument property 2 leaves one value. -/
structure Exp2Row where
  arg : BitVec 32
  least : BitVec 32
  nearest : BitVec 32
  greatest : BitVec 32
deriving DecidableEq, Repr

/-- Rows of notes 16·0 to 16·0 + 15. -/
def exp2Rows0 : List Exp2Row := [
  ⟨0xC0B80000, 0x3C9811E3, 0x3C9837F0, 0x3C985DFE⟩,
  ⟨0xC0B55555, 0x3CA11CC8, 0x3CA14519, 0x3CA16D6A⟩,
  ⟨0xC0B2AAAB, 0x3CAAB151, 0x3CAADC07, 0x3CAB06BE⟩,
  ⟨0xC0B00000, 0x3CB4D7B2, 0x3CB504F3, 0x3CB53234⟩,
  ⟨0xC0AD5555, 0x3CBF9896, 0x3CBFC888, 0x3CBFF87A⟩,
  ⟨0xC0AAAAAB, 0x3CCAFD28, 0x3CCB2FF4, 0x3CCB62BF⟩,
  ⟨0xC0A80000, 0x3CD70F2C, 0x3CD744FD, 0x3CD77ACE⟩,
  ⟨0xC0A55555, 0x3CE3D8EE, 0x3CE411F2, 0x3CE44AF6⟩,
  ⟨0xC0A2AAAB, 0x3CF16556, 0x3CF1A1BD, 0x3CF1DE25⟩,
  ⟨0xC0A00000, 0x3D000000, 0x3D000000, 0x3D000000⟩,
  ⟨0xC09D5555, 0x3D077A97, 0x3D079C7E, 0x3D07BE64⟩,
  ⟨0xC09AAAAB, 0x3D0F88EA, 0x3D0FACD5, 0x3D0FD0C0⟩,
  ⟨0xC0980000, 0x3D1811E3, 0x3D1837F0, 0x3D185DFE⟩,
  ⟨0xC0955555, 0x3D211CC8, 0x3D214519, 0x3D216D6A⟩,
  ⟨0xC092AAAB, 0x3D2AB151, 0x3D2ADC07, 0x3D2B06BE⟩,
  ⟨0xC0900000, 0x3D34D7B2, 0x3D3504F3, 0x3D353234⟩]

/-- Rows of notes 16·1 to 16·1 + 15. -/
def exp2Rows1 : List Exp2Row := [
  ⟨0xC08D5555, 0x3D3F9896, 0x3D3FC888, 0x3D3FF87A⟩,
  ⟨0xC08AAAAB, 0x3D4AFD28, 0x3D4B2FF4, 0x3D4B62BF⟩,
  ⟨0xC0880000, 0x3D570F2C, 0x3D5744FD, 0x3D577ACE⟩,
  ⟨0xC0855555, 0x3D63D8EE, 0x3D6411F2, 0x3D644AF6⟩,
  ⟨0xC082AAAB, 0x3D716556, 0x3D71A1BD, 0x3D71DE25⟩,
  ⟨0xC0800000, 0x3D800000, 0x3D800000, 0x3D800000⟩,
  ⟨0xC07AAAAB, 0x3D877A95, 0x3D879C7C, 0x3D87BE63⟩,
  ⟨0xC0755555, 0x3D8F88EC, 0x3D8FACD7, 0x3D8FD0C1⟩,
  ⟨0xC0700000, 0x3D9811E3, 0x3D9837F0, 0x3D985DFE⟩,
  ⟨0xC06AAAAB, 0x3DA11CC6, 0x3DA14517, 0x3DA16D68⟩,
  ⟨0xC0655555, 0x3DAAB152, 0x3DAADC09, 0x3DAB06BF⟩,
  ⟨0xC0600000, 0x3DB4D7B2, 0x3DB504F3, 0x3DB53234⟩,
  ⟨0xC05AAAAB, 0x3DBF9894, 0x3DBFC886, 0x3DBFF878⟩,
  ⟨0xC0555555, 0x3DCAFD2A, 0x3DCB2FF6, 0x3DCB62C1⟩,
  ⟨0xC0500000, 0x3DD70F2C, 0x3DD744FD, 0x3DD77ACE⟩,
  ⟨0xC04AAAAB, 0x3DE3D8EB, 0x3DE411EF, 0x3DE44AF3⟩]

/-- Rows of notes 16·2 to 16·2 + 15. -/
def exp2Rows2 : List Exp2Row := [
  ⟨0xC0455555, 0x3DF16558, 0x3DF1A1C0, 0x3DF1DE28⟩,
  ⟨0xC0400000, 0x3E000000, 0x3E000000, 0x3E000000⟩,
  ⟨0xC03AAAAB, 0x3E077A95, 0x3E079C7C, 0x3E07BE63⟩,
  ⟨0xC0355555, 0x3E0F88EC, 0x3E0FACD7, 0x3E0FD0C1⟩,
  ⟨0xC0300000, 0x3E1811E3, 0x3E1837F0, 0x3E185DFE⟩,
  ⟨0xC02AAAAB, 0x3E211CC6, 0x3E214517, 0x3E216D68⟩,
  ⟨0xC0255555, 0x3E2AB152, 0x3E2ADC09, 0x3E2B06BF⟩,
  ⟨0xC0200000, 0x3E34D7B2, 0x3E3504F3, 0x3E353234⟩,
  ⟨0xC01AAAAB, 0x3E3F9894, 0x3E3FC886, 0x3E3FF878⟩,
  ⟨0xC0155555, 0x3E4AFD2A, 0x3E4B2FF6, 0x3E4B62C1⟩,
  ⟨0xC0100000, 0x3E570F2C, 0x3E5744FD, 0x3E577ACE⟩,
  ⟨0xC00AAAAB, 0x3E63D8EB, 0x3E6411EF, 0x3E644AF3⟩,
  ⟨0xC0055555, 0x3E716558, 0x3E71A1C0, 0x3E71DE28⟩,
  ⟨0xC0000000, 0x3E800000, 0x3E800000, 0x3E800000⟩,
  ⟨0xBFF55555, 0x3E877A96, 0x3E879C7D, 0x3E87BE63⟩,
  ⟨0xBFEAAAAB, 0x3E8F88EB, 0x3E8FACD6, 0x3E8FD0C1⟩]

/-- Rows of notes 16·3 to 16·3 + 15. -/
def exp2Rows3 : List Exp2Row := [
  ⟨0xBFE00000, 0x3E9811E3, 0x3E9837F0, 0x3E985DFE⟩,
  ⟨0xBFD55555, 0x3EA11CC7, 0x3EA14518, 0x3EA16D69⟩,
  ⟨0xBFCAAAAB, 0x3EAAB151, 0x3EAADC08, 0x3EAB06BE⟩,
  ⟨0xBFC00000, 0x3EB4D7B2, 0x3EB504F3, 0x3EB53234⟩,
  ⟨0xBFB55555, 0x3EBF9895, 0x3EBFC887, 0x3EBFF879⟩,
  ⟨0xBFAAAAAB, 0x3ECAFD29, 0x3ECB2FF5, 0x3ECB62C0⟩,
  ⟨0xBFA00000, 0x3ED70F2C, 0x3ED744FD, 0x3ED77ACE⟩,
  ⟨0xBF955555, 0x3EE3D8ED, 0x3EE411F1, 0x3EE44AF5⟩,
  ⟨0xBF8AAAAB, 0x3EF16557, 0x3EF1A1BF, 0x3EF1DE27⟩,
  ⟨0xBF800000, 0x3F000000, 0x3F000000, 0x3F000000⟩,
  ⟨0xBF6AAAAB, 0x3F077A96, 0x3F079C7C, 0x3F07BE63⟩,
  ⟨0xBF555555, 0x3F0F88EC, 0x3F0FACD6, 0x3F0FD0C1⟩,
  ⟨0xBF400000, 0x3F1811E3, 0x3F1837F0, 0x3F185DFE⟩,
  ⟨0xBF2AAAAB, 0x3F211CC7, 0x3F214518, 0x3F216D68⟩,
  ⟨0xBF155555, 0x3F2AB152, 0x3F2ADC08, 0x3F2B06BF⟩,
  ⟨0xBF000000, 0x3F34D7B2, 0x3F3504F3, 0x3F353234⟩]

/-- Rows of notes 16·4 to 16·4 + 15. -/
def exp2Rows4 : List Exp2Row := [
  ⟨0xBED55555, 0x3F3F9895, 0x3F3FC887, 0x3F3FF878⟩,
  ⟨0xBEAAAAAB, 0x3F4AFD2A, 0x3F4B2FF5, 0x3F4B62C1⟩,
  ⟨0xBE800000, 0x3F570F2C, 0x3F5744FD, 0x3F577ACE⟩,
  ⟨0xBE2AAAAB, 0x3F63D8EC, 0x3F6411F0, 0x3F644AF4⟩,
  ⟨0xBDAAAAAB, 0x3F716557, 0x3F71A1BF, 0x3F71DE27⟩,
  ⟨0x00000000, 0x3F800000, 0x3F800000, 0x3F800000⟩,
  ⟨0x3DAAAAAB, 0x3F877A96, 0x3F879C7D, 0x3F87BE63⟩,
  ⟨0x3E2AAAAB, 0x3F8F88EB, 0x3F8FACD6, 0x3F8FD0C1⟩,
  ⟨0x3E800000, 0x3F9811E3, 0x3F9837F0, 0x3F985DFE⟩,
  ⟨0x3EAAAAAB, 0x3FA11CC7, 0x3FA14518, 0x3FA16D69⟩,
  ⟨0x3ED55555, 0x3FAAB152, 0x3FAADC08, 0x3FAB06BF⟩,
  ⟨0x3F000000, 0x3FB4D7B2, 0x3FB504F3, 0x3FB53234⟩,
  ⟨0x3F155555, 0x3FBF9895, 0x3FBFC887, 0x3FBFF878⟩,
  ⟨0x3F2AAAAB, 0x3FCAFD2A, 0x3FCB2FF5, 0x3FCB62C1⟩,
  ⟨0x3F400000, 0x3FD70F2C, 0x3FD744FD, 0x3FD77ACE⟩,
  ⟨0x3F555555, 0x3FE3D8EC, 0x3FE411F0, 0x3FE44AF4⟩]

/-- Rows of notes 16·5 to 16·5 + 15. -/
def exp2Rows5 : List Exp2Row := [
  ⟨0x3F6AAAAB, 0x3FF16558, 0x3FF1A1BF, 0x3FF1DE27⟩,
  ⟨0x3F800000, 0x40000000, 0x40000000, 0x40000000⟩,
  ⟨0x3F8AAAAB, 0x40077A96, 0x40079C7D, 0x4007BE63⟩,
  ⟨0x3F955555, 0x400F88EB, 0x400FACD6, 0x400FD0C1⟩,
  ⟨0x3FA00000, 0x401811E3, 0x401837F0, 0x40185DFE⟩,
  ⟨0x3FAAAAAB, 0x40211CC7, 0x40214518, 0x40216D69⟩,
  ⟨0x3FB55555, 0x402AB151, 0x402ADC08, 0x402B06BE⟩,
  ⟨0x3FC00000, 0x4034D7B2, 0x403504F3, 0x40353234⟩,
  ⟨0x3FCAAAAB, 0x403F9895, 0x403FC887, 0x403FF879⟩,
  ⟨0x3FD55555, 0x404AFD29, 0x404B2FF5, 0x404B62C0⟩,
  ⟨0x3FE00000, 0x40570F2C, 0x405744FD, 0x40577ACE⟩,
  ⟨0x3FEAAAAB, 0x4063D8ED, 0x406411F1, 0x40644AF5⟩,
  ⟨0x3FF55555, 0x40716557, 0x4071A1BF, 0x4071DE27⟩,
  ⟨0x40000000, 0x40800000, 0x40800000, 0x40800000⟩,
  ⟨0x40055555, 0x40877A95, 0x40879C7C, 0x4087BE63⟩,
  ⟨0x400AAAAB, 0x408F88EC, 0x408FACD7, 0x408FD0C1⟩]

/-- Rows of notes 16·6 to 16·6 + 15. -/
def exp2Rows6 : List Exp2Row := [
  ⟨0x40100000, 0x409811E3, 0x409837F0, 0x40985DFE⟩,
  ⟨0x40155555, 0x40A11CC6, 0x40A14517, 0x40A16D68⟩,
  ⟨0x401AAAAB, 0x40AAB152, 0x40AADC09, 0x40AB06BF⟩,
  ⟨0x40200000, 0x40B4D7B2, 0x40B504F3, 0x40B53234⟩,
  ⟨0x40255555, 0x40BF9894, 0x40BFC886, 0x40BFF878⟩,
  ⟨0x402AAAAB, 0x40CAFD2A, 0x40CB2FF6, 0x40CB62C1⟩,
  ⟨0x40300000, 0x40D70F2C, 0x40D744FD, 0x40D77ACE⟩,
  ⟨0x40355555, 0x40E3D8EB, 0x40E411EF, 0x40E44AF3⟩,
  ⟨0x403AAAAB, 0x40F16558, 0x40F1A1C0, 0x40F1DE28⟩,
  ⟨0x40400000, 0x41000000, 0x41000000, 0x41000000⟩,
  ⟨0x40455555, 0x41077A95, 0x41079C7C, 0x4107BE63⟩,
  ⟨0x404AAAAB, 0x410F88EC, 0x410FACD7, 0x410FD0C1⟩,
  ⟨0x40500000, 0x411811E3, 0x411837F0, 0x41185DFE⟩,
  ⟨0x40555555, 0x41211CC6, 0x41214517, 0x41216D68⟩,
  ⟨0x405AAAAB, 0x412AB152, 0x412ADC09, 0x412B06BF⟩,
  ⟨0x40600000, 0x4134D7B2, 0x413504F3, 0x41353234⟩]

/-- Rows of notes 16·7 to 16·7 + 15. -/
def exp2Rows7 : List Exp2Row := [
  ⟨0x40655555, 0x413F9894, 0x413FC886, 0x413FF878⟩,
  ⟨0x406AAAAB, 0x414AFD2A, 0x414B2FF6, 0x414B62C1⟩,
  ⟨0x40700000, 0x41570F2C, 0x415744FD, 0x41577ACE⟩,
  ⟨0x40755555, 0x4163D8EB, 0x416411EF, 0x41644AF3⟩,
  ⟨0x407AAAAB, 0x41716558, 0x4171A1C0, 0x4171DE28⟩,
  ⟨0x40800000, 0x41800000, 0x41800000, 0x41800000⟩,
  ⟨0x4082AAAB, 0x41877A97, 0x41879C7E, 0x4187BE64⟩,
  ⟨0x40855555, 0x418F88EA, 0x418FACD5, 0x418FD0C0⟩,
  ⟨0x40880000, 0x419811E3, 0x419837F0, 0x41985DFE⟩,
  ⟨0x408AAAAB, 0x41A11CC8, 0x41A14519, 0x41A16D6A⟩,
  ⟨0x408D5555, 0x41AAB151, 0x41AADC07, 0x41AB06BE⟩,
  ⟨0x40900000, 0x41B4D7B2, 0x41B504F3, 0x41B53234⟩,
  ⟨0x4092AAAB, 0x41BF9896, 0x41BFC888, 0x41BFF87A⟩,
  ⟨0x40955555, 0x41CAFD28, 0x41CB2FF4, 0x41CB62BF⟩,
  ⟨0x40980000, 0x41D70F2C, 0x41D744FD, 0x41D77ACE⟩,
  ⟨0x409AAAAB, 0x41E3D8EE, 0x41E411F2, 0x41E44AF6⟩]

/-- The 128 rows, in the order of the notes. -/
def exp2Rows : List Exp2Row :=
  exp2Rows0 ++ exp2Rows1 ++ exp2Rows2 ++ exp2Rows3 ++ exp2Rows4 ++ exp2Rows5 ++ exp2Rows6 ++ exp2Rows7

/-- A row's value for the free value `r`: the exact power of two at an integer argument, `r` where it is admitted, else the
nearest value (the reference EXP2 of 93_implementation_defined.md I-EXP2). Positive values are ordered as their bits. -/
def Exp2Row.value (row : Exp2Row) (r : F32) : F32 :=
  if row.least = row.greatest then ⟨row.nearest⟩
  else if row.least ≤ r.bits ∧ r.bits ≤ row.greatest then r
  else ⟨row.nearest⟩

/-- `raw` kept within 93_implementation_defined.md I-EXP2 on its 128 arguments; elsewhere I-EXP2 says nothing, and `raw`
stands. -/
def exp2Within (raw : F32 → F32) (x : F32) : F32 :=
  match exp2Rows.find? (fun row => row.arg == x.bits) with
  | some row => row.value (raw x)
  | none => raw x

/-- EXP2 (00_scope.md R12). -/
def F32.exp2 (x : F32) : F32 := exp2Within Config.rawExp2 x

end Sys2Proof
end

