-- ==== Sys2Proof/Machine/Operands.lean ====
section
/-! DEFINITION. The operand forms: the real-valued operands computed from the fields of a note event (43_allocator_mixer.md
R182, R183), and the codes of the enumerations (10_state.md R25, R26). -/

namespace Sys2Proof.Machine

/-- 440.0, the frequency of A4 and OSC[i].FREQ's reset value (43_allocator_mixer.md R182, 10_state.md R24). -/
def a4Hz : F32 := ⟨0x43DC0000⟩

/-- The argument NOTE_TO_HZ hands to EXP2: f32(n − 69) / 12.0, n − 69 exact (43_allocator_mixer.md R182). -/
def noteExponent (n : Nat) : F32 := (F32.ofInt ((n : Int) - 69)).div (F32.ofNat 12)

/-- NOTE_TO_HZ(n) = 440.0 × EXP2(f32(n − 69) / 12.0), 43_allocator_mixer.md R182. -/
def noteToHz (n : Nat) : F32 := a4Hz.mul (noteExponent n).exp2

/-- VEL_TO_GAIN(v) = f32(v) / 127.0, 43_allocator_mixer.md R183. -/
def velToGain (v : Nat) : F32 := (F32.ofNat v).div (F32.ofNat 127)

/-- The assignment a NOTE_ON loads into a slot (43_allocator_mixer.md R186): the two operands in 7-bit fields. Every decoded
operand fits (R181); log entry 12 says what stands for one that does not. -/
def Slot.assigned (note vel : Nat) : Slot :=
  { valid := true, note := BitVec.ofNat 7 note, vel := BitVec.ofNat 7 vel }

/-- The 3-bit codes of ENV[i].STATE (10_state.md R26). No rule reads them. -/
def EnvState.code : EnvState → BitVec 3
  | .idle => 0b000
  | .attack => 0b001
  | .decay => 0b010
  | .sustain => 0b011
  | .release => 0b100

end Sys2Proof.Machine
end

