-- ==== Sys2Proof/Machine/Ops.lean ====
section
/-! DEFINITION. The named operations over the registers: the lanes, the slot scans (43_allocator_mixer.md R184, R185), the
configuration (60_exceptions.md R214, 30_encoding.md R75) and RESET (70_reset_and_hazards.md R240). The block has no memory
(20_memory.md R50), so there is no operation over one. -/

namespace Sys2Proof.Machine

/-- N (00_scope.md R8). -/
def voiceCount : Nat := 4

/-- The entry of voice i. -/
def Lanes.get {α : Type} (l : Lanes α) (i : Fin 4) : α :=
  match i with
  | 0 => l.v0
  | 1 => l.v1
  | 2 => l.v2
  | 3 => l.v3

/-- `l` with the entry of voice i replaced. -/
def Lanes.set {α : Type} (l : Lanes α) (i : Fin 4) (a : α) : Lanes α :=
  match i with
  | 0 => { l with v0 := a }
  | 1 => { l with v1 := a }
  | 2 => { l with v2 := a }
  | 3 => { l with v3 := a }

/-- `for i in 0 .. N−1`: the same action on every lane. -/
def Lanes.map {α β : Type} (f : α → β) (l : Lanes α) : Lanes β := ⟨f l.v0, f l.v1, f l.v2, f l.v3⟩

/-- The entries in index order. -/
def Lanes.toList {α : Type} (l : Lanes α) : List α := [l.v0, l.v1, l.v2, l.v3]

/-- The voice indices in the order of every scan (43_allocator_mixer.md, opening paragraph). -/
def voiceIndices : List (Fin 4) := [0, 1, 2, 3]

/-- FIRST_FREE(), 43_allocator_mixer.md R184. -/
def State.firstFree (s : State) : Option (Fin 4) :=
  voiceIndices.find? fun i => !(s.slots.get i).valid

/-- FIRST_MATCH(note), 43_allocator_mixer.md R185: matching by note identity. -/
def State.firstMatch (s : State) (note : Nat) : Option (Fin 4) :=
  voiceIndices.find? fun i => (s.slots.get i).valid && decide ((s.slots.get i).note.toNat = note)

/-- The other reading of NOTE_OFF_MATCH, matching by the derived frequency (43_allocator_mixer.md R191). No command uses it;
it is here to be compared with `firstMatch`. Log entry 13. -/
def State.firstMatchByHz (s : State) (note : Nat) : Option (Fin 4) :=
  voiceIndices.find? fun i =>
    (s.slots.get i).valid && (noteToHz (s.slots.get i).note.toNat).feq (noteToHz note)

/-- A legal segment time: finite and > 0.0 (60_exceptions.md R214). -/
def legalTime (t : F32) : Bool := t.isFinite && F32.zero.lt t

/-- 2^24, the greatest legal SAMPLE_RATE (00_scope.md R9). -/
def maxSampleRate : F32 := ⟨0x4B800000⟩

/-- A legal configuration (60_exceptions.md R214). A NaN fails the comparisons. -/
def Cfg.legal (c : Cfg) : Bool :=
  F32.one.le c.sampleRate && c.sampleRate.le maxSampleRate
    && legalTime c.attackTime && legalTime c.decayTime && legalTime c.releaseTime
    && F32.zero.le c.sustainLevel && c.sustainLevel.le F32.one

/-- The configuration that a CFG_IN word carries (30_encoding.md R75): SAMPLE_RATE in bits 162:131 down to GAIN_SCALING in
bit 0. -/
def Cfg.ofPort (w : BitVec 163) : Cfg :=
  { sampleRate := ⟨w.extractLsb' 131 32⟩
    attackTime := ⟨w.extractLsb' 99 32⟩
    decayTime := ⟨w.extractLsb' 67 32⟩
    sustainLevel := ⟨w.extractLsb' 35 32⟩
    releaseTime := ⟨w.extractLsb' 3 32⟩
    waveformInit := Waveform.ofCode (w.extractLsb' 1 2)
    gainScaling := w.getLsbD 0 }

/-- The CFG_IN word of a configuration (30_encoding.md R75). -/
def Cfg.toPort (c : Cfg) : BitVec 163 :=
  c.sampleRate.bits ++ c.attackTime.bits ++ c.decayTime.bits ++ c.sustainLevel.bits ++ c.releaseTime.bits
    ++ c.waveformInit.code ++ BitVec.ofBool c.gainScaling

/-- A voice after RESET (70_reset_and_hazards.md R240). -/
def Voice.afterReset (w : Waveform) : Voice :=
  { osc := { phase := F32.zero, freq := a4Hz, wave := w }
    env := { state := .idle, amp := F32.zero, elapsed := 0 }
    gain := F32.zero }

/-- A slot after RESET, and after NOTE_OFF frees it: {0, 0, 0} (70_reset_and_hazards.md R240, 43_allocator_mixer.md R189). -/
def Slot.cleared : Slot := { valid := false, note := 0, vel := 0 }

/-- The registers after RESET with configuration `c` (70_reset_and_hazards.md R240): none keeps a value from before. What is
the host's stays: CFG_IN and the transactions to come. A new run begins, so nothing is emitted yet (R253). -/
def State.afterReset (c : Cfg) (s : State) : State :=
  { voices := ⟨Voice.afterReset c.waveformInit, Voice.afterReset c.waveformInit,
      Voice.afterReset c.waveformInit, Voice.afterReset c.waveformInit⟩
    slots := ⟨Slot.cleared, Slot.cleared, Slot.cleared, Slot.cleared⟩
    cfg := c
    status := 0x0000
    sampleOut := F32.zero
    cfgIn := s.cfgIn
    input := s.input
    emitted := [] }

/-- RESET (70_reset_and_hazards.md R240, R241): CFG is loaded from CFG_IN. The model admits no run from a reset with an
illegal configuration (R242, 60_exceptions.md R214). -/
def performReset (s : State) : Host.Outcome State Fault Refusal :=
  if (Cfg.ofPort s.cfgIn).legal then .next (s.afterReset (Cfg.ofPort s.cfgIn)) else .refused .refusedConfiguration

/-- A new level on CFG_IN: no register changes (70_reset_and_hazards.md R241). -/
def State.driveCfgIn (c : BitVec 163) (s : State) : State := { s with cfgIn := c }

end Sys2Proof.Machine
end

