-- ==== Sys2Proof/Machine/Envelope.lean ====
section
/-! DEFINITION. The envelope's operations (41_envelope.md). Each acts on one envelope's registers. -/

namespace Sys2Proof.Machine

/-- ATTACK_INC (41_envelope.md R131): the product is rounded first, then the quotient. -/
def attackInc (c : Cfg) : F32 := F32.one.div (c.attackTime.mul c.sampleRate)

/-- DECAY_DEC (41_envelope.md R131). -/
def decayDec (c : Cfg) : F32 := (F32.one.sub c.sustainLevel).div (c.decayTime.mul c.sampleRate)

/-- RELEASE_DEC (41_envelope.md R131): from SUSTAIN_LEVEL, not from the amplitude at note-off. -/
def releaseDec (c : Cfg) : F32 := c.sustainLevel.div (c.releaseTime.mul c.sampleRate)

/-- ENV_NOTE_ON (41_envelope.md R132), the same in every state. -/
def envNoteOn (_ : Env) : Env := { state := .attack, amp := F32.zero, elapsed := 0 }

/-- ENV_NOTE_OFF (41_envelope.md R133): AMP is unchanged. -/
def envNoteOff (e : Env) : Env :=
  { e with state := if e.state ≠ .idle then .release else .idle, elapsed := 0 }

/-- ELAPSED + 1, saturating at 0xFFFFFFFF (41_envelope.md R135). -/
def elapsedNext (n : BitVec 32) : BitVec 32 := if n < 0xFFFFFFFF#32 then n + 1#32 else n

/-- The per-state update of a tick, state and amplitude (41_envelope.md R136 to R140). -/
def envLevel (c : Cfg) (st : EnvState) (amp : F32) : EnvState × F32 :=
  match st with
  | .idle => (.idle, F32.zero)
  | .attack =>
    let a := amp.add (attackInc c)
    if F32.one.le a then (.decay, F32.one) else (.attack, a)
  | .decay =>
    let a := amp.sub (decayDec c)
    if a.le c.sustainLevel then (.sustain, c.sustainLevel) else (.decay, a)
  | .sustain => (.sustain, c.sustainLevel)
  | .release =>
    let a := amp.sub (releaseDec c)
    if a.le F32.zero then (.idle, F32.zero) else (.release, a)

/-- ENV_TICK (41_envelope.md R135): one count, one per-state update; the value returned is AMP after the update (R141). -/
def envTick (c : Cfg) (e : Env) : Env × F32 :=
  let level := envLevel c e.state e.amp
  ({ state := level.1, amp := level.2, elapsed := elapsedNext e.elapsed }, level.2)

end Sys2Proof.Machine
end

