-- ==== Sys2Proof/Machine/Oscillator.lean ====
section
/-! DEFINITION. The oscillator's operations (40_oscillator.md). Each acts on one oscillator's registers; every binary32
operator rounds once and operators group left to right (00_scope.md R15). -/

namespace Sys2Proof.Machine

/-- OSC_SET_FREQUENCY (40_oscillator.md R101): PHASE and WAVE are unchanged. -/
def oscSetFrequency (o : Osc) (hz : F32) : Osc := { o with freq := hz }

/-- OSC_SET_WAVEFORM (40_oscillator.md R102): PHASE and FREQ are unchanged. -/
def oscSetWaveform (o : Osc) (w : Waveform) : Osc := { o with wave := w }

/-- TONE(h, p) = SIN(((TWO_PI × h) × p) / SAMPLE_RATE), 40_oscillator.md R103. -/
def tone (c : Cfg) (h p : F32) : F32 := (((F32.twoPi.mul h).mul p).div c.sampleRate).sin

/-- f32(k) × f, the frequency of harmonic k (40_oscillator.md R108). -/
def harmonicFreq (k : Nat) (f : F32) : F32 := (F32.ofNat k).mul f

/-- The Nyquist test f32(k) × f > SAMPLE_RATE / 2.0 (40_oscillator.md R108). -/
def aboveNyquist (c : Cfg) (f : F32) (k : Nat) : Bool := (c.sampleRate.div F32.two).lt (harmonicFreq k f)

/-- The weight divisor k^g of harmonic k (40_oscillator.md R108, R109). -/
def harmonicWeight (g k : Nat) : F32 :=
  if g = 1 then F32.ofNat k else (F32.ofNat k).mul (F32.ofNat k)

/-- The harmonic indices that the loop of 40_oscillator.md R108 visits from index `k` on: the body runs, then `k` is stepped
and tested. `fuel` bounds the turns. -/
def harmonicsFrom (c : Cfg) (f : F32) (step : Nat) : Nat → Nat → List Nat
  | 0, _ => []
  | fuel + 1, k => k :: if aboveNyquist c f (k + step) then [] else harmonicsFrom c f step fuel (k + step)

/-- More turns than the loop of 40_oscillator.md R108 can take when f > 0.0: f32(k) is infinite from k = 2^128 on, and then
exceeds every Nyquist frequency (`harmonicsFrom_fuel` in Laws: the bound is never the reason the list ends). -/
def harmonicFuel : Nat := 2 ^ 128

/-- The included harmonics, in order (40_oscillator.md R106, R107). -/
def harmonics (c : Cfg) (f : F32) (step : Nat) : List Nat := harmonicsFrom c f step harmonicFuel 1

/-- HSUM(f, p, step, g), 40_oscillator.md R108: the terms TONE(f32(k) × f, p) / k^g are added to +0.0 in order of
increasing k. -/
def hsum (c : Cfg) (f p : F32) (step g : Nat) : F32 :=
  (harmonics c f step).foldl (fun acc k => acc.add ((tone c (harmonicFreq k f) p).div (harmonicWeight g k))) F32.zero

/-- The raw sample of a waveform at phase `p` (40_oscillator.md R104 to R106). -/
def oscSample (c : Cfg) (w : Waveform) (f p : F32) : F32 :=
  match w with
  | .sine => tone c f p
  | .square => hsum c f p 2 1
  | .saw => hsum c f p 1 1
  | .triangle => hsum c f p 2 2

/-- The phase after one tick: p + 1.0, less SAMPLE_RATE when that is ≥ SAMPLE_RATE (40_oscillator.md R104). -/
def phaseNext (c : Cfg) (p : F32) : F32 :=
  let q := p.add F32.one
  if c.sampleRate.le q then q.sub c.sampleRate else q

/-- OSC_TICK (40_oscillator.md R104): the phase is advanced, then the sample is computed at the new phase. -/
def oscTick (c : Cfg) (o : Osc) : Osc × F32 :=
  let o' := { o with phase := phaseNext c o.phase }
  (o', oscSample c o'.wave o'.freq o'.phase)

/-- The harmonic loop never ends: a waveform other than Sine with FREQ ≤ 0 or NaN (40_oscillator.md R111,
60_exceptions.md R216 code 3). -/
def oscHangs (o : Osc) : Bool := decide (o.wave ≠ .sine) && !(F32.zero.lt o.freq)

end Sys2Proof.Machine
end

