-- ==== Sys2Proof/Machine/Voice.lean ====
section
/-! DEFINITION. The voice's operations (42_voice.md): an oscillator and an envelope, gated together. -/

namespace Sys2Proof.Machine

/-- VOICE_NOTE_ON (42_voice.md R161): GAIN is written whatever GAIN_SCALING holds; PHASE is kept. -/
def voiceNoteOn (v : Voice) (freq gain : F32) : Voice :=
  { osc := oscSetFrequency v.osc freq, gain := gain, env := envNoteOn v.env }

/-- VOICE_NOTE_OFF (42_voice.md R162): the envelope only. -/
def voiceNoteOff (v : Voice) : Voice := { v with env := envNoteOff v.env }

/-- The voice's output from its raw sample and its amplitude (42_voice.md R163, R165): rounded after each multiply. -/
def voiceOutput (c : Cfg) (gain s a : F32) : F32 :=
  if c.gainScaling then (s.mul a).mul gain else s.mul a

/-- VOICE_TICK (42_voice.md R163): both sub-units tick, in every envelope state. -/
def voiceTick (c : Cfg) (v : Voice) : Voice × F32 :=
  let o := oscTick c v.osc
  let e := envTick c v.env
  ({ osc := o.1, env := e.1, gain := v.gain }, voiceOutput c v.gain o.2 e.2)

/-- "A voice is 'active' iff its Envelope state ≠ Idle" (42_voice.md R166). No rule reads it. -/
def Voice.active (v : Voice) : Bool := decide (v.env.state ≠ .idle)

end Sys2Proof.Machine
end

