-- ==== Sys2Proof/Machine/Allocator.lean ====
section
/-! DEFINITION. The meanings of NOTE_ON and NOTE_OFF (43_allocator_mixer.md R184 to R192). -/

namespace Sys2Proof.Machine

/-- Slot i loaded and its voice started (43_allocator_mixer.md R186). -/
def State.startNote (s : State) (i : Fin 4) (note vel : Nat) : State :=
  { s with
    slots := s.slots.set i (Slot.assigned note vel)
    voices := s.voices.set i (voiceNoteOn (s.voices.get i) (noteToHz note) (velToGain vel)) }

/-- Voice i released and its slot freed at once (43_allocator_mixer.md R189). -/
def State.releaseNote (s : State) (i : Fin 4) : State :=
  { s with
    slots := s.slots.set i Slot.cleared
    voices := s.voices.set i (voiceNoteOff (s.voices.get i)) }

/-- NOTE_ON(note, vel), 43_allocator_mixer.md R186: first fit; dropped silently when no slot is free (R187). -/
def execNoteOn (note vel : Nat) (s : State) : Host.Outcome State Fault Refusal :=
  match s.firstFree with
  | some i => .next (s.startNote i note vel)
  | none => .next s

/-- NOTE_OFF(note, vel), 43_allocator_mixer.md R189: dropped silently when no slot matches (R190). The velocity is read by
no rule (R192). -/
def execNoteOff (note _vel : Nat) (s : State) : Host.Outcome State Fault Refusal :=
  match s.firstMatch note with
  | some i => .next (s.releaseNote i)
  | none => .next s

end Sys2Proof.Machine
end

