-- ==== Sys2Proof/Machine/Mixer.lean ====
section
/-! DEFINITION. The meanings of TICK (43_allocator_mixer.md R193) and SET_WAVEFORM (R196). -/

namespace Sys2Proof.Machine

/-- The mean of the voices' samples: summed from +0.0 in index order, divided by f32(N) (43_allocator_mixer.md R193). -/
def mix (samples : List F32) : F32 := (samples.foldl F32.add F32.zero).div (F32.ofNat voiceCount)

/-- The samples the voices return in this tick, in index order. -/
def State.voiceSamples (s : State) : Lanes F32 := s.voices.map fun v => (voiceTick s.cfg v).2

/-- The state after a TICK (43_allocator_mixer.md R193): every voice ticked, SAMPLE_OUT written, the sample emitted. -/
def State.ticked (s : State) : State :=
  { s with
    voices := s.voices.map fun v => (voiceTick s.cfg v).1
    sampleOut := mix s.voiceSamples.toList
    emitted := s.emitted ++ [mix s.voiceSamples.toList] }

/-- TICK, 43_allocator_mixer.md R193. No rule of it runs under an illegal configuration (60_exceptions.md R214, 41_envelope.md
R147; log entry 10), and an oscillator whose harmonic loop never ends is a fault (40_oscillator.md R111). No run reaches
either. -/
def execTick (s : State) : Host.Outcome State Fault Refusal :=
  if !s.cfg.legal then .refused .refusedConfiguration
  else if s.voices.toList.any fun v => oscHangs v.osc then .fault .oscFrequencyPrecondition
  else .next s.ticked

/-- The state with OSC_SET_WAVEFORM done on every oscillator (43_allocator_mixer.md R196). -/
def State.withWaveform (s : State) (w : Waveform) : State :=
  { s with voices := s.voices.map fun v => { v with osc := oscSetWaveform v.osc w } }

/-- SET_WAVEFORM(w), 43_allocator_mixer.md R196: one waveform for every oscillator, and no other change. -/
def execSetWaveform (w : Waveform) (s : State) : Host.Outcome State Fault Refusal := .next (s.withWaveform w)

end Sys2Proof.Machine
end

