-- ==== Sys2Proof/Machine/Dispatch.lean ====
section
/-! DEFINITION. One arm per command of 30_encoding.md R80. -/

namespace Sys2Proof.Machine

def exec (i : Instr) (s : State) : Host.Outcome State Fault Refusal :=
  match i with
  | .noteOff note vel => Sys2Proof.Machine.execNoteOff note vel s
  | .noteOn note vel => Sys2Proof.Machine.execNoteOn note vel s
  | .tick => Sys2Proof.Machine.execTick s
  | .setWaveform wave => Sys2Proof.Machine.execSetWaveform wave s

end Sys2Proof.Machine
end

