-- ==== Sys2Proof/Machine/Ports.lean ====
section
/-! DEFINITION. What one transaction of the host does to the block (30_encoding.md R70, R71, R74, R75), and how a host with a
byte-wide transport makes words (20_memory.md R51, R52). -/

namespace Sys2Proof.Machine

/-- One word on CMD, executed to completion (30_encoding.md R71, R81). -/
def serveWord (w : CmdWord) (s : State) : Host.Outcome State Fault Refusal :=
  match decode w with
  | .command i => exec i s
  | .reserved _ => .next (execReserved s)

/-- One transaction. RESET has priority: of the command it abandons no effect is kept (60_exceptions.md R220). -/
def serve (t : Transaction) (s : State) : Host.Outcome State Fault Refusal :=
  match t with
  | .command w => serveWord w s
  | .reset _ => performReset s
  | .driveCfg c => .next (s.driveCfgIn c)

/-- The next transaction is `t`. -/
def State.present (s : State) (t : Transaction) : State := { s with input := t :: s.input }

/-- The word of a table row (bit 0 least significant; a command is one 16-bit word, 30_encoding.md R76) is the next one on
CMD. -/
def State.presentTableWord (s : State) (nbits w : Nat) : State :=
  s.present (.command (BitVec.ofNat 16 (w % 2 ^ nbits)))

/-- The words a host makes of the bytes of a byte-wide transport: the most significant byte of a word comes first
(20_memory.md R51). The second component is the byte of a word not yet complete, which has not been presented (R52). -/
def wordsOfBytes : List (BitVec 8) → List CmdWord × Option (BitVec 8)
  | [] => ([], none)
  | [b] => ([], some b)
  | hi :: lo :: rest => ((hi ++ lo) :: (wordsOfBytes rest).1, (wordsOfBytes rest).2)

/-- The bytes of a word on a byte-wide transport (20_memory.md R51). -/
def bytesOfWord (w : CmdWord) : List (BitVec 8) := [w.extractLsb' 8 8, w.extractLsb' 0 8]

end Sys2Proof.Machine
end

