-- ==== Sys2Proof/Machine/Step.lean ====
section
/-! DEFINITION. One step: the host's next transaction, taken to completion (20_memory.md R55, 30_encoding.md R71). -/

namespace Sys2Proof.Machine

/-- The next transaction is consumed (20_memory.md R57) and served. With none to serve the block holds its state
(60_exceptions.md R226). -/
def step (s : State) : Host.Outcome State Fault Refusal :=
  match s.input with
  | [] => .next s
  | t :: rest => serve t { s with input := rest }

/-- `s` with a table row's word as the next word the host presents on CMD. Log entry 7. -/
def State.withFetchWord (s : State) (nbits w : Nat) : State := s.presentTableWord nbits w

end Sys2Proof.Machine
end

