-- ==== Sys2Proof/Safety.lean ====
section
/-! DEFINITION. What counts as a safe run, in the terms the claims use: the invariant of the registers (10_state.md R23 to
R34), a faulted run and the observation of a run (60_exceptions.md R211, 70_reset_and_hazards.md R253), HSUM's loop as
40_oscillator.md R108 writes it, and the properties of 93_implementation_defined.md I-EXP2. -/

namespace Sys2Proof.Machine

/-- A whole number: a multiple of 2^149 units. -/
def wholeNumber (x : F32) : Bool := decide (x.units % 2 ^ 149 = 0)

/-- 93_implementation_defined.md I-EXP2, properties 1 to 4, for a function `f` in EXP2's place. A unit is 2^-149; property 4
is about real numbers. -/
structure MeetsIExp2 (f : F32 → F32) : Prop where
  /-- Property 1. -/
  positive : ∀ n, n ≤ 127 → (f (noteExponent n)).isFinite = true ∧ F32.zero.lt (f (noteExponent n)) = true
  /-- Property 2: f(j) = 2^j for j = k − 5, k = 0 to 9. -/
  powers : ∀ k : Nat, k < 10 → (f (F32.ofInt ((k : Int) - 5))).units = 2 ^ (144 + k)
  /-- Property 3. -/
  increasing : ∀ m n, m < n → n ≤ 127 → (f (noteExponent m)).lt (f (noteExponent n)) = true
  /-- Property 4: |f(x) − 2^x| ≤ 2^-10 · 2^x. -/
  near : ∀ n, n ≤ 127 →
    |((f (noteExponent n)).units : ℝ) / 2 ^ 149 - (2 : ℝ) ^ (((noteExponent n).units : ℝ) / 2 ^ 149)| ≤
      (2 : ℝ) ^ (((noteExponent n).units : ℝ) / 2 ^ 149) / 2 ^ 10

/-- 16384.0, above NOTE_TO_HZ of every note under every EXP2 that meets I-EXP2. -/
def maxNoteHz : F32 := ⟨0x46800000⟩

/-- The invariant of one oscillator (10_state.md R23, R24). Where SAMPLE_RATE is a whole number PHASE is one (R23); without
that clause the range of PHASE is not kept in one state that no run reaches (log entry 14). -/
structure OscInv (c : Cfg) (o : Osc) : Prop where
  phase_ge : F32.zero.le o.phase = true
  phase_lt : o.phase.lt c.sampleRate = true
  phase_whole : wholeNumber c.sampleRate = true → wholeNumber o.phase = true
  freq_pos : F32.zero.lt o.freq = true
  freq_le : o.freq.le maxNoteHz = true

/-- The invariant of one envelope (10_state.md R27, 41_envelope.md R142). -/
structure EnvInv (c : Cfg) (e : Env) : Prop where
  amp_ge : F32.zero.le e.amp = true
  amp_le : e.amp.le F32.one = true
  idle_amp : e.state = .idle → e.amp = F32.zero
  decay_amp : e.state = .decay → c.sustainLevel.le e.amp = true
  sustain_amp : e.state = .sustain → e.amp = c.sustainLevel

/-- The invariant of a slot and its voice (10_state.md R30, R31): a held slot's voice sounds its note in Attack, Decay or
Sustain; a free slot is cleared and its voice is Idle or in Release. -/
structure SlotInv (sl : Slot) (v : Voice) : Prop where
  held_state : sl.valid = true → v.env.state = .attack ∨ v.env.state = .decay ∨ v.env.state = .sustain
  held_freq : sl.valid = true → v.osc.freq = noteToHz sl.note.toNat
  held_gain : sl.valid = true → v.gain = velToGain sl.vel.toNat
  free_state : sl.valid = false → v.env.state = .idle ∨ v.env.state = .release
  free_note : sl.valid = false → sl.note = 0
  free_vel : sl.valid = false → sl.vel = 0

/-- The invariant of one voice: its oscillator, its envelope and 0.0 ≤ GAIN ≤ 1.0 (10_state.md R29). -/
structure VoiceInv (c : Cfg) (v : Voice) : Prop where
  osc : OscInv c v.osc
  env : EnvInv c v.env
  gain_ge : F32.zero.le v.gain = true
  gain_le : v.gain.le F32.one = true

/-- The invariant of the block. -/
structure State.Inv (s : State) : Prop where
  legal : s.cfg.legal = true
  voice : ∀ i, VoiceInv s.cfg (s.voices.get i)
  slot : ∀ i, SlotInv (s.slots.get i) (s.voices.get i)
  status : s.status &&& 0xFFFE#16 = 0#16
  sample_finite : s.sampleOut.isFinite = true
  emitted_finite : ∀ x ∈ s.emitted, x.isFinite = true
  emitted_last : s.emitted.getLastD F32.zero = s.sampleOut

/-- A run with a recorded fault is faulted: never final (60_exceptions.md R211). -/
def State.final (s : State) : Bool := s.input.isEmpty && s.recordedFault.isNone

/-- The observation of a run (70_reset_and_hazards.md R253): the emitted samples and the final value of every register. -/
structure Observation where
  samples : List F32
  voices : Lanes Voice
  slots : Lanes Slot
  cfg : Cfg
  status : BitVec 16
  sampleOut : F32
deriving DecidableEq, Repr

/-- What is observed of a run that has ended and is not faulted. -/
def State.observe (s : State) : Option Observation :=
  if s.final then
    some { samples := s.emitted, voices := s.voices, slots := s.slots, cfg := s.cfg, status := s.status,
           sampleOut := s.sampleOut }
  else none

/-- The loop of 40_oscillator.md R108, turn by turn: `acc` and `k` are its variables, `fuel` bounds its turns. -/
def hsumLoop (c : Cfg) (f p : F32) (step g : Nat) : Nat → F32 → Nat → F32
  | 0, acc, _ => acc
  | fuel + 1, acc, k =>
    let h := (F32.ofNat k).mul f
    let w := if g = 1 then F32.ofNat k else (F32.ofNat k).mul (F32.ofNat k)
    let acc := acc.add ((tone c h p).div w)
    let k := k + step
    if (c.sampleRate.div F32.two).lt ((F32.ofNat k).mul f) then acc else hsumLoop c f p step g fuel acc k

end Sys2Proof.Machine
end

