-- ==== Sys2Proof/Certificates/Slice0/Obligations.lean ====
section
/-! DEFINITION. The statements for the provers. Each docstring names the rules of spec/ it formalises. -/

section
open Sys2Proof Sys2Proof.Machine

/-! ## Encoding -/

/-- 30_encoding.md R87: the examples, encoded and decoded; the four reserved words. -/
def Obligations.ExampleWordsEncodeAndDecode : Prop :=
  (encode (.noteOn 69 127) = 0x62FF ∧ decode 0x62FF = .command (.noteOn 69 127)) ∧
  (encode (.noteOff 69 0) = 0x2280 ∧ decode 0x2280 = .command (.noteOff 69 0)) ∧
  (encode (.noteOn 60 100) = 0x5E64 ∧ decode 0x5E64 = .command (.noteOn 60 100)) ∧
  (encode (.noteOn 0 0) = 0x4000 ∧ decode 0x4000 = .command (.noteOn 0 0)) ∧
  (encode (.noteOff 0 0) = 0x0000 ∧ decode 0x0000 = .command (.noteOff 0 0)) ∧
  (encode (.noteOn 127 127) = 0x7FFF ∧ decode 0x7FFF = .command (.noteOn 127 127)) ∧
  (encode .tick = 0x8000 ∧ decode 0x8000 = .command .tick) ∧
  (encode (.setWaveform .triangle) = 0x8103 ∧ decode 0x8103 = .command (.setWaveform .triangle)) ∧
  ∀ w ∈ [0x8001#16, 0x8104#16, 0x8200#16, 0xC000#16], ∃ r, decode w = .reserved r

/-- 30_encoding.md R78 to R83: the word of every well-formed command decodes to that command, at every operand. -/
def Obligations.EncodedCommandDecodesToItself : Prop :=
  ∀ i : Instr, i.wellFormed = true → decode (encode i) = .command i

/-- 30_encoding.md R81, R82: a word that decodes to a command is that command's own word, and the command's operands are in
range (43_allocator_mixer.md R181). -/
def Obligations.DecodedCommandEncodesToItsWord : Prop :=
  ∀ (w : CmdWord) (i : Instr), decode w = .command i → i.wellFormed = true ∧ encode i = w

/-- 30_encoding.md R80, R83: each command is selected by its mask and match, its NOTE bits are bits 13 to 7, its VEL bits 6 to
0 and its WAVE bits 1 to 0: 00 Sine, 01 Square, 10 Saw, 11 Triangle. -/
def Obligations.CommandsSelectedByMaskAndMatch : Prop :=
  ∀ w : CmdWord,
    (∀ n v, decode w = .command (.noteOff n v) ↔
      w &&& 0xC000 = 0x0000 ∧ n = ((w >>> 7) &&& 0x7F).toNat ∧ v = (w &&& 0x7F).toNat) ∧
    (∀ n v, decode w = .command (.noteOn n v) ↔
      w &&& 0xC000 = 0x4000 ∧ n = ((w >>> 7) &&& 0x7F).toNat ∧ v = (w &&& 0x7F).toNat) ∧
    (decode w = .command .tick ↔ w &&& 0xFFFF = 0x8000) ∧
    (∀ wave, decode w = .command (.setWaveform wave) ↔ w &&& 0xFFFC = 0x8100 ∧ wave.code.toNat = (w &&& 0x3).toNat) ∧
    (decode w = .command (.setWaveform .sine) ↔ w = 0x8100) ∧
    (decode w = .command (.setWaveform .square) ↔ w = 0x8101) ∧
    (decode w = .command (.setWaveform .saw) ↔ w = 0x8102) ∧
    (decode w = .command (.setWaveform .triangle) ↔ w = 0x8103)

/-- 30_encoding.md R84: the reserved words are those with OP = 0b11, and those with OP = 0b10 other than 0x8000 and 0x8100 to
0x8103. -/
def Obligations.ReservedWordsAreTheRest : Prop :=
  ∀ w : CmdWord,
    (∃ r, decode w = .reserved r) ↔
      0xC000 ≤ w.toNat ∨ (0x8000 < w.toNat ∧ w.toNat < 0x8100) ∨ (0x8103 < w.toNat ∧ w.toNat < 0xC000)

/-- 30_encoding.md R75: CFG_IN carries the seven fields whole and in order, SAMPLE_RATE most significant, WAVEFORM_INIT by the
codes of 10_state.md R25. -/
def Obligations.ConfigurationPortCarriesEveryField : Prop :=
  (∀ c : Cfg, Cfg.ofPort c.toPort = c) ∧
  (Waveform.ofCode 0b00#2 = .sine ∧ Waveform.ofCode 0b01#2 = .square ∧ Waveform.ofCode 0b10#2 = .saw ∧
    Waveform.ofCode 0b11#2 = .triangle) ∧
  ∀ (sr at' dt sl rt : BitVec 32) (wf : BitVec 2) (g : BitVec 1),
    Cfg.ofPort (sr ++ at' ++ dt ++ sl ++ rt ++ wf ++ g) =
      { sampleRate := ⟨sr⟩, attackTime := ⟨at'⟩, decayTime := ⟨dt⟩, sustainLevel := ⟨sl⟩, releaseTime := ⟨rt⟩,
        waveformInit := Waveform.ofCode wf, gainScaling := decide (g = 1#1) }

/-- 20_memory.md R51, R52: over a byte transport the most significant byte (bits 15:8) goes first and bits 7:0 second, and
the bytes are so reassembled; a byte of an incomplete word makes no command. -/
def Obligations.ByteTransportIsMostSignificantFirst : Prop :=
  (∀ w : CmdWord, ∃ hi lo : BitVec 8, bytesOfWord w = [hi, lo] ∧ hi.toNat = w.toNat / 256 ∧ lo.toNat = w.toNat % 256) ∧
  (∀ hi lo : BitVec 8, ∃ w : CmdWord, wordsOfBytes [hi, lo] = ([w], none) ∧ w.toNat = hi.toNat * 256 + lo.toNat) ∧
  ∀ ws : List CmdWord,
    wordsOfBytes (ws.flatMap bytesOfWord) = (ws, none) ∧
    ∀ b : BitVec 8, wordsOfBytes (ws.flatMap bytesOfWord ++ [b]) = (ws, some b)

/-! ## One step -/

/-- 30_encoding.md R71: the next word on CMD, when it spells a command, is consumed and that command is executed. -/
def Obligations.StepRunsTheDecodedCommand : Prop :=
  ∀ (s : State) (w : CmdWord) (rest : List Transaction) (i : Instr),
    s.input = .command w :: rest → decode w = .command i → step s = exec i { s with input := rest }

/-- 60_exceptions.md R211: a reserved word sets STATUS.ILLEGAL and nothing else, the next word is then taken as usual, and the
run is faulted; the flag is sticky: only RESET clears it. It is bit 0 of what the STATUS port reads (10_state.md R33,
30_encoding.md R73). That the step answers next and keeps the fault in the flag, where 93_implementation_defined.md I-ILLEGAL
has the model stop, is the model's choice (log entry 9). -/
def Obligations.ReservedWordSetsIllegalOnly : Prop :=
  (∀ (s : State) (w : CmdWord) (rest : List Transaction) (r : ReservedReason),
    s.input = .command w :: rest → decode w = .reserved r →
      step s = .next { s with input := rest, status := s.status ||| 0x0001 } ∧
      ({ s with input := rest, status := s.status ||| 0x0001 } : State).recordedFault = some .illegalCommand ∧
      ({ s with input := rest, status := s.status ||| 0x0001 } : State).final = false) ∧
  (∀ s t : State, step s = .next t → s.illegal = true →
    t.illegal = true ∨ ∃ abandoned rest, s.input = .reset abandoned :: rest) ∧
  ∀ s : State, s.statusPort = if s.illegal then 0x0001 else 0x0000

/-- 60_exceptions.md R226, log entry 7: with nothing presented the block holds its state. -/
def Obligations.StepWithoutInputHoldsTheState : Prop :=
  ∀ s : State, s.input = [] → step s = .next s

/-- 70_reset_and_hazards.md R240, 60_exceptions.md R220: RESET with a legal CFG_IN loads CFG from it and gives every register
its reset value, whatever it abandons and whatever the registers held. -/
def Obligations.ResetLoadsEveryRegister : Prop :=
  ∀ (s : State) (abandoned : Option CmdWord) (rest : List Transaction),
    s.input = .reset abandoned :: rest → (Cfg.ofPort s.cfgIn).legal = true →
      ∃ t, step s = .next t ∧ t.cfg = Cfg.ofPort s.cfgIn ∧
        (∀ i, t.voices.get i =
          { osc := { phase := ⟨0x00000000⟩, freq := ⟨0x43DC0000⟩, wave := (Cfg.ofPort s.cfgIn).waveformInit }
            env := { state := .idle, amp := ⟨0x00000000⟩, elapsed := 0 }
            gain := ⟨0x00000000⟩ }) ∧
        (∀ i, t.slots.get i = { valid := false, note := 0, vel := 0 }) ∧
        t.status = 0x0000 ∧ t.sampleOut = ⟨0x00000000⟩ ∧ t.emitted = [] ∧ t.input = rest ∧ t.cfgIn = s.cfgIn

/-- 70_reset_and_hazards.md R242: the model admits no run from a reset with an illegal configuration. -/
def Obligations.IllegalConfigurationIsRefusedAtReset : Prop :=
  ∀ (s : State) (abandoned : Option CmdWord) (rest : List Transaction),
    s.input = .reset abandoned :: rest → (Cfg.ofPort s.cfgIn).legal = false → step s = .refused .refusedConfiguration

/-- 60_exceptions.md R214: which configurations are legal, in exact units of 2^-149 (1.0 is 2^149 of them). -/
def Obligations.LegalConfigurations : Prop :=
  ∀ c : Cfg, c.legal = true ↔
    (c.sampleRate.isNaN = false ∧ 2 ^ 149 ≤ c.sampleRate.units ∧ c.sampleRate.units ≤ 2 ^ 173) ∧
    (∀ t ∈ [c.attackTime, c.decayTime, c.releaseTime], t.isFinite = true ∧ 0 < t.units) ∧
    (c.sustainLevel.isNaN = false ∧ 0 ≤ c.sustainLevel.units ∧ c.sustainLevel.units ≤ 2 ^ 149)

/-- 70_reset_and_hazards.md R241: CFG takes the values on CFG_IN at RESET and only then; a change of CFG_IN changes nothing
else. -/
def Obligations.ConfigurationChangesOnlyAtReset : Prop :=
  (∀ (s t : State) (abandoned : Option CmdWord) (rest : List Transaction),
    s.input = .reset abandoned :: rest → step s = .next t → t.cfg = Cfg.ofPort s.cfgIn) ∧
  (∀ (s t : State), (∀ abandoned rest, s.input ≠ .reset abandoned :: rest) → step s = .next t → t.cfg = s.cfg) ∧
  ∀ (s : State) (c : BitVec 163) (rest : List Transaction),
    s.input = .driveCfg c :: rest → step s = .next { s with input := rest, cfgIn := c }

/-- 10_state.md section 8: the registers right after reset, at the values the spec gives. The values of ATTACK_TIME,
DECAY_TIME, SUSTAIN_LEVEL and RELEASE_TIME are the model's (log entry 5), and are not stated. -/
def Obligations.ResetStateHoldsTheSpecValues : Prop :=
  (∀ i, State.reset.voices.get i =
    { osc := { phase := ⟨0x00000000⟩, freq := ⟨0x43DC0000⟩, wave := .sine }
      env := { state := .idle, amp := ⟨0x00000000⟩, elapsed := 0 }
      gain := ⟨0x00000000⟩ }) ∧
  (∀ i, State.reset.slots.get i = { valid := false, note := 0, vel := 0 }) ∧
  State.reset.status = 0x0000 ∧ State.reset.sampleOut = ⟨0x00000000⟩ ∧
  State.reset.cfg.sampleRate = ⟨0x472C4400⟩ ∧ State.reset.cfg.waveformInit = .sine ∧
  State.reset.cfg.gainScaling = false

/-! ## NOTE_ON and NOTE_OFF -/

/-- 43_allocator_mixer.md R184: FIRST_FREE is the free slot of least index, or none. -/
def Obligations.FirstFreeIsTheLeastFreeSlot : Prop :=
  ∀ s : State,
    (∀ i, s.firstFree = some i ↔
      (s.slots.get i).valid = false ∧ ∀ j, j < i → (s.slots.get j).valid = true) ∧
    (s.firstFree = none ↔ ∀ i, (s.slots.get i).valid = true)

/-- 43_allocator_mixer.md R185: FIRST_MATCH is the valid slot of least index that holds the note, or none. -/
def Obligations.FirstMatchIsTheLeastMatchingSlot : Prop :=
  ∀ (s : State) (n : Nat),
    (∀ i, s.firstMatch n = some i ↔
      ((s.slots.get i).valid = true ∧ (s.slots.get i).note.toNat = n) ∧
        ∀ j, j < i → ¬((s.slots.get j).valid = true ∧ (s.slots.get j).note.toNat = n)) ∧
    (s.firstMatch n = none ↔ ∀ i, ¬((s.slots.get i).valid = true ∧ (s.slots.get i).note.toNat = n))

/-- 43_allocator_mixer.md R186: NOTE_ON loads the first free slot with its note and velocity, and its voice with the note's
frequency 440.0 × EXP2(f32(n − 69) / 12.0), the gain f32(v) / 127.0 and an envelope at the start of Attack; the phase and the
waveform are kept. With no free slot it returns at once. -/
def Obligations.NoteOnClaimsTheFirstFreeSlot : Prop :=
  ∀ (s : State) (n v : Nat), (Instr.noteOn n v).wellFormed = true →
    (∀ i, s.firstFree = some i →
      ∃ t, exec (.noteOn n v) s = .next t ∧
        (t.slots.get i).valid = true ∧ (t.slots.get i).note.toNat = n ∧ (t.slots.get i).vel.toNat = v ∧
        t.voices.get i =
          { osc := { phase := (s.voices.get i).osc.phase
                     freq := (F32.mk 0x43DC0000).mul (((F32.ofInt ((n : Int) - 69)).div (F32.ofNat 12)).exp2)
                     wave := (s.voices.get i).osc.wave }
            env := { state := .attack, amp := ⟨0x00000000⟩, elapsed := 0 }
            gain := (F32.ofNat v).div (F32.ofNat 127) } ∧
        (∀ j, j ≠ i → t.slots.get j = s.slots.get j ∧ t.voices.get j = s.voices.get j) ∧
        t.cfg = s.cfg ∧ t.status = s.status ∧ t.sampleOut = s.sampleOut ∧ t.emitted = s.emitted ∧
        t.cfgIn = s.cfgIn ∧ t.input = s.input) ∧
    (s.firstFree = none → exec (.noteOn n v) s = .next s)

/-- 43_allocator_mixer.md R187, 60_exceptions.md R212: when no slot is free, NOTE_ON changes no state. -/
def Obligations.NoteOnIsDroppedWhenFull : Prop :=
  ∀ (s : State) (n v : Nat), (∀ i, (s.slots.get i).valid = true) → exec (.noteOn n v) s = .next s

/-- 43_allocator_mixer.md R189: NOTE_OFF, whatever its velocity (R192), releases the voice of the first slot holding the note
and clears the slot at once; other slots are untouched, and FREQ, WAVE, PHASE, AMP and GAIN are unchanged (42_voice.md R162).
With no matching slot it returns at once. -/
def Obligations.NoteOffReleasesTheFirstMatch : Prop :=
  ∀ (s : State) (n v : Nat),
    (∀ i, s.firstMatch n = some i →
      ∃ t, exec (.noteOff n v) s = .next t ∧
        t.slots.get i = { valid := false, note := 0, vel := 0 } ∧
        t.voices.get i =
          { osc := (s.voices.get i).osc
            env := { state := if (s.voices.get i).env.state = .idle then .idle else .release
                     amp := (s.voices.get i).env.amp
                     elapsed := 0 }
            gain := (s.voices.get i).gain } ∧
        (∀ j, j ≠ i → t.slots.get j = s.slots.get j ∧ t.voices.get j = s.voices.get j) ∧
        t.cfg = s.cfg ∧ t.status = s.status ∧ t.sampleOut = s.sampleOut ∧ t.emitted = s.emitted ∧
        t.cfgIn = s.cfgIn ∧ t.input = s.input) ∧
    (s.firstMatch n = none → exec (.noteOff n v) s = .next s)

/-- 43_allocator_mixer.md R190, 60_exceptions.md R213: an unmatched NOTE_OFF changes no state. -/
def Obligations.UnmatchedNoteOffChangesNothing : Prop :=
  ∀ (s : State) (n v : Nat),
    (∀ i, ¬((s.slots.get i).valid = true ∧ (s.slots.get i).note.toNat = n)) → exec (.noteOff n v) s = .next s

/-- The frame of NOTE_ON and NOTE_OFF (43_allocator_mixer.md R186, R189; 40_oscillator.md R114): only the chosen lane changes,
no phase or waveform changes, NOTE_OFF changes no frequency or gain, and nothing outside the lanes changes. -/
def Obligations.NoteEventFrame : Prop :=
  ∀ (s t : State) (n v : Nat) (on : Bool),
    exec (if on then .noteOn n v else .noteOff n v) s = .next t →
      (∀ j, (if on then s.firstFree else s.firstMatch n) ≠ some j →
        t.voices.get j = s.voices.get j ∧ t.slots.get j = s.slots.get j) ∧
      (∀ j, (t.voices.get j).osc.phase = (s.voices.get j).osc.phase ∧
        (t.voices.get j).osc.wave = (s.voices.get j).osc.wave ∧
        (on = false → (t.voices.get j).osc.freq = (s.voices.get j).osc.freq ∧
          (t.voices.get j).gain = (s.voices.get j).gain ∧
          (t.voices.get j).env.amp = (s.voices.get j).env.amp)) ∧
      t.cfg = s.cfg ∧ t.status = s.status ∧ t.sampleOut = s.sampleOut ∧ t.emitted = s.emitted ∧
      t.cfgIn = s.cfgIn ∧ t.input = s.input

/-- 43_allocator_mixer.md R188: a NOTE_ON of a note that slot a holds claims a second slot j, free until then, at the same
frequency; a NOTE_OFF of the note then releases only the lower of the two slots, and a second one the other. The premise on
slot a's voice is the invariant's (10_state.md R24). -/
def Obligations.SecondPressTakesASecondSlot : Prop :=
  ∀ (s : State) (n v v' v'' : Nat) (a j : Fin 4), n ≤ 127 →
    SlotInv (s.slots.get a) (s.voices.get a) →
    (s.slots.get a).valid = true → (s.slots.get a).note.toNat = n →
    (∀ k, k ≠ a → ¬((s.slots.get k).valid = true ∧ (s.slots.get k).note.toNat = n)) → s.firstFree = some j →
      ∃ u r q, exec (.noteOn n v) s = .next u ∧
        u.slots.get a = s.slots.get a ∧ (u.slots.get j).valid = true ∧ (u.slots.get j).note.toNat = n ∧
        (u.voices.get j).osc.freq = (u.voices.get a).osc.freq ∧
        exec (.noteOff n v') u = .next r ∧
        r.slots.get (min a j) = { valid := false, note := 0, vel := 0 } ∧ (r.voices.get (min a j)).env.state = .release ∧
        r.slots.get (max a j) = u.slots.get (max a j) ∧ r.voices.get (max a j) = u.voices.get (max a j) ∧
        exec (.noteOff n v'') r = .next q ∧ q.slots.get (max a j) = { valid := false, note := 0, vel := 0 } ∧
        (q.voices.get (max a j)).env.state = .release

/-- 43_allocator_mixer.md R191: matching by frequency and matching by note identity pick the same slot, for every EXP2 that
meets I-EXP2. -/
def Obligations.MatchingByFrequencyPicksTheSameSlot : Prop :=
  ∀ (s : State) (n : Nat), n ≤ 127 → s.firstMatchByHz n = s.firstMatch n

/-! ## Conversions -/

/-- 43_allocator_mixer.md R182: NOTE_TO_HZ is finite, positive and strictly increasing, for every EXP2 that meets I-EXP2. -/
def Obligations.NoteToHzIsPositiveAndIncreasing : Prop :=
  (∀ n, n ≤ 127 → (noteToHz n).isFinite = true ∧ F32.zero.lt (noteToHz n) = true ∧ (noteToHz n).le maxNoteHz = true) ∧
  ∀ m n, m < n → n ≤ 127 → (noteToHz m).lt (noteToHz n) = true

/-- 43_allocator_mixer.md R182: NOTE_TO_HZ is exact at the ten notes an octave apart from A4, for every EXP2 that meets
I-EXP2. -/
def Obligations.NoteToHzIsExactAtTheAs : Prop :=
  noteToHz 9 = ⟨0x415C0000⟩ ∧ noteToHz 21 = ⟨0x41DC0000⟩ ∧ noteToHz 33 = ⟨0x425C0000⟩ ∧
  noteToHz 45 = ⟨0x42DC0000⟩ ∧ noteToHz 57 = ⟨0x435C0000⟩ ∧ noteToHz 69 = ⟨0x43DC0000⟩ ∧
  noteToHz 81 = ⟨0x445C0000⟩ ∧ noteToHz 93 = ⟨0x44DC0000⟩ ∧ noteToHz 105 = ⟨0x455C0000⟩ ∧
  noteToHz 117 = ⟨0x45DC0000⟩

/-- 43_allocator_mixer.md R183, 10_state.md R29: VEL_TO_GAIN is f32(v) / 127.0, with its three stated values; it is in
[0.0, 1.0] and strictly increasing on the velocities. -/
def Obligations.VelToGainIsVelocityOver127 : Prop :=
  (∀ v, velToGain v = (F32.ofNat v).div ⟨0x42FE0000⟩) ∧
  velToGain 0 = ⟨0x00000000⟩ ∧ velToGain 127 = ⟨0x3F800000⟩ ∧ velToGain 64 = ⟨0x3F010204⟩ ∧
  (∀ v, v ≤ 127 → F32.zero.le (velToGain v) = true ∧ (velToGain v).le F32.one = true) ∧
  ∀ u v, u < v → v ≤ 127 → (velToGain u).lt (velToGain v) = true

/-- 93_implementation_defined.md I-SIN: SIN has its properties, and every function that has them is admitted. -/
def Obligations.SinMeetsItsProperties : Prop :=
  (∀ x : F32, x.isFinite = true →
    x.sin.isFinite = true ∧ F32.negOne.le x.sin = true ∧ x.sin.le F32.one = true) ∧
  F32.zero.sin = F32.zero ∧
  ∀ f : F32 → F32,
    (∀ x, x.isFinite = true → F32.negOne.le (f x) = true ∧ (f x).le F32.one = true) → f F32.zero = F32.zero →
      sinWithin f = f

/-- 93_implementation_defined.md I-EXP2: EXP2 has its properties 1 to 4 at its 128 arguments (finite and positive; 2^j at
the integers; strictly increasing; within 2^-10 of 2^x, relatively), ten of which are the integers −5 to 4; and every function
that has the properties is admitted. -/
def Obligations.Exp2MeetsItsProperties : Prop :=
  MeetsIExp2 F32.exp2 ∧
  (∀ k : Nat, k < 10 → noteExponent (9 + 12 * k) = F32.ofInt ((k : Int) - 5)) ∧
  ∀ f : F32 → F32, MeetsIExp2 f → exp2Within f = f

/-! ## Arithmetic -/

/-- 00_scope.md R13, R15: a finite sum or difference of finite values is the nearest binary32 value to the exact sum or
difference; on a tie the one with an even significand. From 2^128 − 2^103 on ((2^25 − 1) · 2^252 units) it is the infinity of the
exact sign. -/
def Obligations.AdditionRoundsToNearestEven : Prop :=
  (∀ a b c : F32, a.isFinite = true → b.isFinite = true → (a.add b).isFinite = true → c.isFinite = true →
    |(a.add b).units - (a.units + b.units)| ≤ |c.units - (a.units + b.units)| ∧
    (|(a.add b).units - (a.units + b.units)| = |c.units - (a.units + b.units)| → c.units ≠ (a.add b).units →
      (a.add b).mag % 2 = 0)) ∧
  (∀ a b c : F32, a.isFinite = true → b.isFinite = true → (a.sub b).isFinite = true → c.isFinite = true →
    |(a.sub b).units - (a.units - b.units)| ≤ |c.units - (a.units - b.units)| ∧
    (|(a.sub b).units - (a.units - b.units)| = |c.units - (a.units - b.units)| → c.units ≠ (a.sub b).units →
      (a.sub b).mag % 2 = 0)) ∧
  (∀ a b : F32, a.isFinite = true → b.isFinite = true →
    (a.add b).isNaN = false ∧ ((a.add b).isInf = true ↔ (2 ^ 25 - 1) * 2 ^ 252 ≤ |a.units + b.units|) ∧
    ((a.add b).isInf = true → (a.add b).sign = decide (a.units + b.units < 0))) ∧
  ∀ a b : F32, a.isFinite = true → b.isFinite = true →
    (a.sub b).isNaN = false ∧ ((a.sub b).isInf = true ↔ (2 ^ 25 - 1) * 2 ^ 252 ≤ |a.units - b.units|) ∧
    ((a.sub b).isInf = true → (a.sub b).sign = decide (a.units - b.units < 0))

/-- 00_scope.md R13, R15: a finite product of finite values is the nearest binary32 value to the exact product; on a tie the
one with an even significand. From 2^128 − 2^103 on it is the infinity of the exact sign. -/
def Obligations.MultiplicationRoundsToNearestEven : Prop :=
  (∀ a b c : F32, a.isFinite = true → b.isFinite = true → (a.mul b).isFinite = true → c.isFinite = true →
    |(a.mul b).units * 2 ^ 149 - a.units * b.units| ≤ |c.units * 2 ^ 149 - a.units * b.units| ∧
    (|(a.mul b).units * 2 ^ 149 - a.units * b.units| = |c.units * 2 ^ 149 - a.units * b.units| →
      c.units ≠ (a.mul b).units → (a.mul b).mag % 2 = 0)) ∧
  ∀ a b : F32, a.isFinite = true → b.isFinite = true →
    (a.mul b).isNaN = false ∧ ((a.mul b).isInf = true ↔ (2 ^ 25 - 1) * 2 ^ 252 * 2 ^ 149 ≤ |a.units * b.units|) ∧
    ((a.mul b).isInf = true → (a.mul b).sign = decide (a.units * b.units < 0))

/-- 00_scope.md R13, R15: a finite quotient of finite values is the nearest binary32 value to the exact quotient; on a tie
the one with an even significand. From 2^128 − 2^103 on it is the infinity of the exact sign. A finite value over an infinity
is a zero (41_envelope.md R131), and a nonzero one over a zero an infinity. -/
def Obligations.DivisionRoundsToNearestEven : Prop :=
  (∀ a b c : F32, a.isFinite = true → b.isFinite = true → b.units ≠ 0 → (a.div b).isFinite = true → c.isFinite = true →
    |(a.div b).units * b.units - a.units * 2 ^ 149| ≤ |c.units * b.units - a.units * 2 ^ 149| ∧
    (|(a.div b).units * b.units - a.units * 2 ^ 149| = |c.units * b.units - a.units * 2 ^ 149| →
      c.units ≠ (a.div b).units → (a.div b).mag % 2 = 0)) ∧
  (∀ a b : F32, a.isFinite = true → b.isFinite = true → b.units ≠ 0 →
    (a.div b).isNaN = false ∧ ((a.div b).isInf = true ↔ (2 ^ 25 - 1) * 2 ^ 252 * |b.units| ≤ |a.units| * 2 ^ 149) ∧
    ((a.div b).isInf = true → (a.div b).sign = decide (a.units * b.units < 0))) ∧
  (∀ a b : F32, a.isFinite = true → b.isInf = true → (a.div b).isZero = true ∧ (a.div b).sign = (a.sign != b.sign)) ∧
  ∀ a b : F32, a.isFinite = true → a.units ≠ 0 → b.units = 0 → (a.div b).isInf = true ∧ (a.div b).sign = (a.sign != b.sign)

/-! ## Oscillator -/

/-- 40_oscillator.md R104: whatever the SAMPLE_RATE, the new phase is PHASE + 1.0, less SAMPLE_RATE where that sum is at least
SAMPLE_RATE, and FREQ and WAVE are unchanged; for a whole SAMPLE_RATE that is exactly PHASE + 1 modulo SAMPLE_RATE. -/
def Obligations.PhaseCountsModuloTheSampleRate : Prop :=
  (∀ (c : Cfg) (o : Osc),
    (c.sampleRate.le (o.phase.add ⟨0x3F800000⟩) = true →
      (oscTick c o).1.phase = (o.phase.add ⟨0x3F800000⟩).sub c.sampleRate) ∧
    (c.sampleRate.le (o.phase.add ⟨0x3F800000⟩) = false → (oscTick c o).1.phase = o.phase.add ⟨0x3F800000⟩) ∧
    (oscTick c o).1.freq = o.freq ∧ (oscTick c o).1.wave = o.wave) ∧
  ∀ (c : Cfg) (o : Osc), c.legal = true → wholeNumber c.sampleRate = true → OscInv c o →
    (oscTick c o).1.phase.units = (o.phase.units + 2 ^ 149) % c.sampleRate.units

/-- 40_oscillator.md R104, 10_state.md R23: the phase stays in [0.0, SAMPLE_RATE), whole or not. -/
def Obligations.PhaseStaysBelowTheSampleRate : Prop :=
  ∀ (c : Cfg) (o : Osc), c.legal = true → OscInv c o → OscInv c (oscTick c o).1

/-- 40_oscillator.md R103, R105: a Sine oscillator returns SIN(((TWO_PI × f) × p) / SAMPLE_RATE) at the advanced phase,
whatever its frequency. -/
def Obligations.SineSampleIsTheToneAtTheNewPhase : Prop :=
  ∀ (c : Cfg) (o : Osc), o.wave = .sine →
    (oscTick c o).2 =
      (((((F32.mk 0x40C90FDB).mul o.freq).mul (oscTick c o).1.phase).div c.sampleRate)).sin

/-- 40_oscillator.md R107, R108: the harmonics that are summed are k = 1, always, and every later k of the waveform's step
whose frequency f32(k) × f does not exceed SAMPLE_RATE / 2.0; they come in increasing order. -/
def Obligations.HarmonicsStopAtTheNyquistFrequency : Prop :=
  ∀ (c : Cfg) (f : F32) (step : Nat), c.legal = true → F32.zero.lt f = true → step = 1 ∨ step = 2 →
    (∀ k, k ∈ harmonics c f step ↔
      k = 1 ∨ (1 < k ∧ k % step = 1 % step ∧ (c.sampleRate.div F32.two).lt ((F32.ofNat k).mul f) = false)) ∧
    (harmonics c f step).Pairwise (· < ·)

/-- 40_oscillator.md R106, R108: the samples of Square, Saw and Triangle are the loop of R108 with the waveform's step and
weight exponent. -/
def Obligations.HarmonicSumIsTheLoop : Prop :=
  ∀ (c : Cfg) (o : Osc),
    (o.wave = .square → (oscTick c o).2 = hsumLoop c o.freq (oscTick c o).1.phase 2 1 harmonicFuel F32.zero 1) ∧
    (o.wave = .saw → (oscTick c o).2 = hsumLoop c o.freq (oscTick c o).1.phase 1 1 harmonicFuel F32.zero 1) ∧
    (o.wave = .triangle → (oscTick c o).2 = hsumLoop c o.freq (oscTick c o).1.phase 2 2 harmonicFuel F32.zero 1)

/-- 40_oscillator.md R110, 70_reset_and_hazards.md R252: under the precondition f > 0.0 the loop of R108 ends by its own test:
more turns allowed change nothing. -/
def Obligations.HarmonicLoopEnds : Prop :=
  ∀ (c : Cfg) (f p : F32) (step g extra : Nat), c.legal = true → F32.zero.lt f = true → 0 < step →
    hsumLoop c f p step g (harmonicFuel + extra) F32.zero 1 = hsumLoop c f p step g harmonicFuel F32.zero 1

/-! ## Envelope -/

/-- 41_envelope.md R132, R133: ENV_NOTE_ON restarts Attack at +0.0 from every state; ENV_NOTE_OFF goes to Release from every
state but Idle and keeps AMP; both restart ELAPSED. -/
def Obligations.EnvelopeNoteEvents : Prop :=
  ∀ e : Env,
    envNoteOn e = { state := .attack, amp := ⟨0x00000000⟩, elapsed := 0 } ∧
    (e.state ≠ .idle → envNoteOff e = { state := .release, amp := e.amp, elapsed := 0 }) ∧
    (e.state = .idle → envNoteOff e = { state := .idle, amp := e.amp, elapsed := 0 })

/-- 41_envelope.md R131, R136 to R141: the update of each state; the value returned is AMP after the update. -/
def Obligations.EnvelopeTickFollowsItsState : Prop :=
  ∀ (c : Cfg) (e : Env),
    let t := (envTick c e).1
    let inc := F32.one.div (c.attackTime.mul c.sampleRate)
    let dec := (F32.one.sub c.sustainLevel).div (c.decayTime.mul c.sampleRate)
    let rel := c.sustainLevel.div (c.releaseTime.mul c.sampleRate)
    (envTick c e).2 = t.amp ∧
    (e.state = .idle → t.state = .idle ∧ t.amp = ⟨0x00000000⟩) ∧
    (e.state = .attack → F32.one.le (e.amp.add inc) = true → t.state = .decay ∧ t.amp = ⟨0x3F800000⟩) ∧
    (e.state = .attack → F32.one.le (e.amp.add inc) = false → t.state = .attack ∧ t.amp = e.amp.add inc) ∧
    (e.state = .decay → (e.amp.sub dec).le c.sustainLevel = true → t.state = .sustain ∧ t.amp = c.sustainLevel) ∧
    (e.state = .decay → (e.amp.sub dec).le c.sustainLevel = false → t.state = .decay ∧ t.amp = e.amp.sub dec) ∧
    (e.state = .sustain → t.state = .sustain ∧ t.amp = c.sustainLevel) ∧
    (e.state = .release → (e.amp.sub rel).le F32.zero = true → t.state = .idle ∧ t.amp = ⟨0x00000000⟩) ∧
    (e.state = .release → (e.amp.sub rel).le F32.zero = false → t.state = .release ∧ t.amp = e.amp.sub rel)

/-- 41_envelope.md R135, 10_state.md R28: ELAPSED counts ticks and saturates at 0xFFFFFFFF. -/
def Obligations.ElapsedCountsAndSaturates : Prop :=
  ∀ (c : Cfg) (e : Env), (envTick c e).1.elapsed.toNat = min (e.elapsed.toNat + 1) 0xFFFFFFFF

/-- 41_envelope.md R134: the transitions of a tick are those of the table and no other. -/
def Obligations.EnvelopeTickTransitions : Prop :=
  ∀ (c : Cfg) (e : Env) (st : EnvState), (envTick c e).1.state = st →
    (e.state, st) ∈ [(EnvState.idle, EnvState.idle), (.attack, .attack), (.attack, .decay), (.decay, .decay),
      (.decay, .sustain), (.sustain, .sustain), (.release, .release), (.release, .idle)]

/-- 41_envelope.md R142: under a legal configuration a tick keeps the amplitude in its state's range, and moves it in its
state's direction only. -/
def Obligations.AmplitudeStaysInItsStatesRange : Prop :=
  ∀ (c : Cfg) (e : Env), c.legal = true → EnvInv c e →
    EnvInv c (envTick c e).1 ∧
    (e.state = .attack → e.amp.le (envTick c e).1.amp = true) ∧
    (e.state = .decay → (envTick c e).1.amp.le e.amp = true) ∧
    (e.state = .release → (envTick c e).1.amp.le e.amp = true)

/-- 41_envelope.md R145: with SUSTAIN_LEVEL = 1.0, DECAY_DEC = +0.0 and Decay lasts exactly one tick. -/
def Obligations.SustainLevelOneDecaysInOneTick : Prop :=
  ∀ (c : Cfg) (e : Env), c.legal = true → c.sustainLevel = F32.one → e.state = .decay → e.amp = F32.one →
    decayDec c = F32.zero ∧ (envTick c e).1.state = .sustain ∧ (envTick c e).1.amp = F32.one

/-- 41_envelope.md R144: with SUSTAIN_LEVEL = 0.0, a Release at an amplitude above 0.0 never moves, and one at 0.0 ends at
once. -/
def Obligations.SustainLevelZeroStallsRelease : Prop :=
  ∀ (c : Cfg) (e : Env), c.legal = true → c.sustainLevel = F32.zero → e.state = .release → EnvInv c e →
    releaseDec c = F32.zero ∧
    (F32.zero.lt e.amp = true → (envTick c e).1.state = .release ∧ (envTick c e).1.amp = e.amp) ∧
    (F32.zero.lt e.amp = false → (envTick c e).1.state = .idle ∧ (envTick c e).1.amp = F32.zero)

/-! ## TICK and SET_WAVEFORM -/

/-- 42_voice.md R163, R165: a voice returns s × a, and (s × a) × GAIN when GAIN_SCALING is set; both sub-units tick, and GAIN is
kept. -/
def Obligations.VoiceTickIsTheGatedProduct : Prop :=
  ∀ (c : Cfg) (v : Voice),
    (voiceTick c v).1 = { osc := (oscTick c v.osc).1, env := (envTick c v.env).1, gain := v.gain } ∧
    (c.gainScaling = false → (voiceTick c v).2 = (oscTick c v.osc).2.mul (envTick c v.env).2) ∧
    (c.gainScaling = true → (voiceTick c v).2 = ((oscTick c v.osc).2.mul (envTick c v.env).2).mul v.gain)

/-- 43_allocator_mixer.md R193: TICK ticks every voice and emits the mean of their samples, summed from +0.0 in index order,
which the SAMPLE_OUT port then carries (30_encoding.md R72). It completes under a legal configuration when every oscillator is
Sine or has FREQ > 0.0. -/
def Obligations.TickMixesEveryVoice : Prop :=
  ∀ s : State, s.cfg.legal = true →
    (∀ i, (s.voices.get i).osc.wave = .sine ∨ F32.zero.lt (s.voices.get i).osc.freq = true) →
      ∃ t v, exec .tick s = .next t ∧
        v = (((((F32.mk 0x00000000).add (voiceTick s.cfg (s.voices.get 0)).2).add
          (voiceTick s.cfg (s.voices.get 1)).2).add (voiceTick s.cfg (s.voices.get 2)).2).add
          (voiceTick s.cfg (s.voices.get 3)).2).div ⟨0x40800000⟩ ∧
        (∀ i, t.voices.get i = (voiceTick s.cfg (s.voices.get i)).1) ∧
        t.sampleOut = v ∧ t.sampleOutPort = v.bits ∧ t.emitted = s.emitted ++ [v] ∧
        t.slots = s.slots ∧ t.cfg = s.cfg ∧ t.status = s.status ∧ t.cfgIn = s.cfgIn ∧ t.input = s.input

/-- The frame of TICK (40_oscillator.md R104, 42_voice.md R163): no frequency, waveform, gain, slot, configuration or status
changes. -/
def Obligations.TickFrame : Prop :=
  ∀ s t : State, exec .tick s = .next t →
    (∀ i, (t.voices.get i).osc.freq = (s.voices.get i).osc.freq ∧
      (t.voices.get i).osc.wave = (s.voices.get i).osc.wave ∧ (t.voices.get i).gain = (s.voices.get i).gain) ∧
    t.slots = s.slots ∧ t.cfg = s.cfg ∧ t.status = s.status ∧ t.cfgIn = s.cfgIn ∧ t.input = s.input

/-- 60_exceptions.md R214, R216: where TICK stops. Under an illegal configuration it is refused (code 2; log entry 10); under
a legal one a non-Sine oscillator with FREQ ≤ 0 or NaN is a fault (code 3); in every other state it completes. -/
def Obligations.TickStopsOnlyOnABrokenPrecondition : Prop :=
  ∀ s : State,
    (s.cfg.legal = false → exec .tick s = .refused .refusedConfiguration) ∧
    (s.cfg.legal = true →
      (∃ i, (s.voices.get i).osc.wave ≠ .sine ∧ F32.zero.lt (s.voices.get i).osc.freq = false) →
        exec .tick s = .fault .oscFrequencyPrecondition) ∧
    (s.cfg.legal = true →
      (∀ i, (s.voices.get i).osc.wave = .sine ∨ F32.zero.lt (s.voices.get i).osc.freq = true) → ∃ t, exec .tick s = .next t)

/-- 43_allocator_mixer.md R196: SET_WAVEFORM sets every oscillator's waveform and changes nothing else. -/
def Obligations.SetWaveformSetsEveryOscillator : Prop :=
  ∀ (s : State) (w : Waveform),
    ∃ t, exec (.setWaveform w) s = .next t ∧
      (∀ i, t.voices.get i = { s.voices.get i with
        osc := { phase := (s.voices.get i).osc.phase, freq := (s.voices.get i).osc.freq, wave := w } }) ∧
      t.slots = s.slots ∧ t.cfg = s.cfg ∧ t.status = s.status ∧ t.sampleOut = s.sampleOut ∧
      t.emitted = s.emitted ∧ t.cfgIn = s.cfgIn ∧ t.input = s.input

/-- 43_allocator_mixer.md R194 (a), 70_reset_and_hazards.md R243: a TICK in which every voice is Idle emits exactly +0.0,
leaves every voice Idle at +0.0, and advances only phases and elapsed counts. -/
def Obligations.IdleTickEmitsPositiveZero : Prop :=
  ∀ s : State, s.Inv → (∀ i, (s.voices.get i).env.state = .idle) →
    ∃ t, exec .tick s = .next t ∧ t.sampleOut = ⟨0x00000000⟩ ∧ t.emitted = s.emitted ++ [⟨0x00000000⟩] ∧
      (∀ i, t.voices.get i =
        { osc := { phase := phaseNext s.cfg (s.voices.get i).osc.phase
                   freq := (s.voices.get i).osc.freq
                   wave := (s.voices.get i).osc.wave }
          env := { state := .idle, amp := ⟨0x00000000⟩, elapsed := elapsedNext (s.voices.get i).env.elapsed }
          gain := (s.voices.get i).gain }) ∧
      t.slots = s.slots ∧ t.cfg = s.cfg ∧ t.status = s.status

/-! ## The whole machine -/

/-- 42_voice.md R160, 60_exceptions.md R224: what a voice becomes in a TICK depends on that voice and CFG alone. -/
def Obligations.VoicesDoNotInterfere : Prop :=
  ∀ (s s' t t' : State) (j : Fin 4), s.cfg = s'.cfg → s.voices.get j = s'.voices.get j →
    exec .tick s = .next t → exec .tick s' = .next t' → t.voices.get j = t'.voices.get j

/-- 42_voice.md R165: with GAIN_SCALING = 0 no stored gain reaches a sample. -/
def Obligations.GainIsSilentWithoutGainScaling : Prop :=
  ∀ (s : State) (g : Lanes F32), s.cfg.gainScaling = false →
    ∀ t t' : State, exec .tick s = .next t →
      exec .tick { s with voices := ⟨{ s.voices.v0 with gain := g.v0 }, { s.voices.v1 with gain := g.v1 },
        { s.voices.v2 with gain := g.v2 }, { s.voices.v3 with gain := g.v3 }⟩ } = .next t' →
      t'.sampleOut = t.sampleOut

/-- 60_exceptions.md R211, R222: no command reads STATUS: a command acts the same whatever STATUS holds, and keeps it. -/
def Obligations.StatusDoesNotInfluenceCommands : Prop :=
  ∀ (i : Instr) (s : State) (x : BitVec 16),
    (∀ t, exec i s = .next t → t.status = s.status ∧ exec i { s with status := x } = .next { t with status := x }) ∧
    (∀ f, exec i s = .fault f → exec i { s with status := x } = .fault f) ∧
    ∀ r, exec i s = .refused r → exec i { s with status := x } = .refused r

/-- 10_state.md R22 to R34: which transactions write which registers. Beside RESET, which writes all: CFG: none; STATUS: a
reserved word; SAMPLE_OUT and the emitted samples: TICK; a slot: a note word; a frequency or a gain: a NOTE_ON word; a
waveform: a SET_WAVEFORM word; a phase: TICK; an envelope's state or elapsed count: a note word or TICK; an amplitude: a
NOTE_ON word or TICK. -/
def Obligations.RegistersHaveOnlyTheirWriters : Prop :=
  ∀ (s t : State) (x : Transaction) (rest : List Transaction),
    s.input = x :: rest → step s = .next t → (∀ a, x ≠ .reset a) →
      (t.status ≠ s.status → ∃ w r, x = .command w ∧ decode w = .reserved r) ∧
      (t.sampleOut ≠ s.sampleOut ∨ t.emitted ≠ s.emitted → x = .command 0x8000) ∧
      (t.slots ≠ s.slots → ∃ w, x = .command w ∧ w &&& 0x8000 = 0x0000) ∧
      (∀ i, (t.voices.get i).osc.freq ≠ (s.voices.get i).osc.freq → ∃ w, x = .command w ∧ w &&& 0xC000 = 0x4000) ∧
      (∀ i, (t.voices.get i).osc.wave ≠ (s.voices.get i).osc.wave → ∃ w, x = .command w ∧ w &&& 0xFFFC = 0x8100) ∧
      (∀ i, (t.voices.get i).osc.phase ≠ (s.voices.get i).osc.phase → x = .command 0x8000) ∧
      (∀ i, (t.voices.get i).gain ≠ (s.voices.get i).gain → ∃ w, x = .command w ∧ w &&& 0xC000 = 0x4000) ∧
      (∀ i, (t.voices.get i).env.state ≠ (s.voices.get i).env.state ∨
          (t.voices.get i).env.elapsed ≠ (s.voices.get i).env.elapsed →
        x = .command 0x8000 ∨ ∃ w, x = .command w ∧ w &&& 0x8000 = 0x0000) ∧
      (∀ i, (t.voices.get i).env.amp ≠ (s.voices.get i).env.amp →
        x = .command 0x8000 ∨ ∃ w, x = .command w ∧ w &&& 0xC000 = 0x4000) ∧
      t.cfg = s.cfg

/-- State.reset meets the invariant (10_state.md R23 to R34). -/
def Obligations.ResetMeetsTheInvariant : Prop :=
  State.reset.Inv

/-- 10_state.md R23 to R34, 60_exceptions.md R215: every step keeps the invariant; so no NaN and no infinity reaches a
register, and no legal mode of a slot or an envelope is left. -/
def Obligations.StepKeepsTheInvariant : Prop :=
  ∀ s t : State, s.Inv → step s = .next t → t.Inv

/-- 60_exceptions.md R210, 70_reset_and_hazards.md R252: under the invariant the block cannot fail: every transaction but a
RESET with an illegal configuration completes. -/
def Obligations.TheBlockCannotFail : Prop :=
  ∀ s : State, s.Inv →
    (∀ abandoned rest, s.input = .reset abandoned :: rest → (Cfg.ofPort s.cfgIn).legal = true) →
      ∃ t, step s = .next t

/-- 00_scope.md R15: f32(k) is exact for |k| ≤ 2^24; the conversion of a natural number is that of the integer. -/
def Obligations.SmallIntegersConvertExactly : Prop :=
  (∀ k : Int, |k| ≤ 2 ^ 24 → (F32.ofInt k).isFinite = true ∧ (F32.ofInt k).units = k * 2 ^ 149) ∧
  ∀ k : Nat, F32.ofNat k = F32.ofInt (k : Int)

/-- 41_envelope.md R131: the three level steps; under a legal configuration none is NaN, each is ≥ 0.0, and a product that
overflows to +∞ gives a step of +0.0 (of −0.0 for RELEASE_DEC where SUSTAIN_LEVEL is −0.0; log entry 16). -/
def Obligations.LevelStepsAreNotNegative : Prop :=
  ∀ c : Cfg,
    (attackInc c = F32.one.div (c.attackTime.mul c.sampleRate) ∧
      decayDec c = (F32.one.sub c.sustainLevel).div (c.decayTime.mul c.sampleRate) ∧
      releaseDec c = c.sustainLevel.div (c.releaseTime.mul c.sampleRate)) ∧
    (c.legal = true →
      (F32.zero.le (attackInc c) = true ∧ F32.zero.le (decayDec c) = true ∧ F32.zero.le (releaseDec c) = true) ∧
      ((c.attackTime.mul c.sampleRate).isInf = true → attackInc c = ⟨0x00000000⟩) ∧
      ((c.decayTime.mul c.sampleRate).isInf = true → decayDec c = ⟨0x00000000⟩) ∧
      ((c.releaseTime.mul c.sampleRate).isInf = true →
        releaseDec c = if c.sustainLevel = ⟨0x80000000⟩ then ⟨0x80000000⟩ else ⟨0x00000000⟩))

end
end

