-- ==== Sys2Proof/Laws/Rounding.lean ====
section
/-! SUPPORT. Rounding of magnitudes: `F32.magUnits` orders magnitudes as their bits, and `F32.roundMag` is monotone, keeps
what is representable, and does not depend on how a quotient is written. -/

namespace Sys2Proof

/-- Every magnitude is a significand of at most 24 bits at a scale; a scale above 0 has a full significand. -/
theorem F32.mag_split (m : Nat) :
    ∃ s q, m = s * 2 ^ 23 + q ∧ q < 2 ^ 24 ∧ (s = 0 ∨ 2 ^ 23 ≤ q) := by
  refine ⟨m / 2 ^ 23 - 1, m - (m / 2 ^ 23 - 1) * 2 ^ 23, ?_, ?_, ?_⟩ <;> omega

theorem F32.magUnits_scaled {s q : Nat} (hq : q ≤ 2 ^ 24) (hs : s = 0 ∨ 2 ^ 23 ≤ q) :
    F32.magUnits (s * 2 ^ 23 + q) = q * 2 ^ s := by
  unfold F32.magUnits
  rcases Nat.lt_or_ge q (2 ^ 23) with h | h
  · obtain rfl : s = 0 := by omega
    have h0 : (0 * 2 ^ 23 + q) / 2 ^ 23 = 0 := by omega
    rw [if_pos h0, Nat.zero_mul, Nat.zero_add, Nat.pow_zero, Nat.mul_one]
  · rcases Nat.lt_or_ge q (2 ^ 24) with h' | h'
    · have h1 : (s * 2 ^ 23 + q) / 2 ^ 23 = s + 1 := by omega
      have h2 : (s * 2 ^ 23 + q) % 2 ^ 23 = q - 2 ^ 23 := by omega
      have h3 : 2 ^ 23 + (q - 2 ^ 23) = q := by omega
      rw [h1, h2, h3]; simp
    · obtain rfl : q = 2 ^ 24 := by omega
      have h1 : (s * 2 ^ 23 + 2 ^ 24) / 2 ^ 23 = s + 2 := by omega
      have h2 : (s * 2 ^ 23 + 2 ^ 24) % 2 ^ 23 = 0 := by omega
      rw [h1, h2]
      simp only [show s + 2 ≠ 0 by omega, if_false, show s + 2 - 1 = s + 1 by omega, Nat.pow_succ]
      omega

theorem F32.magUnits_strictMono {m n : Nat} (h : m < n) : F32.magUnits m < F32.magUnits n := by
  obtain ⟨s, q, rfl, hq, hs⟩ := F32.mag_split m
  obtain ⟨s', q', rfl, hq', hs'⟩ := F32.mag_split n
  rw [F32.magUnits_scaled hq.le hs, F32.magUnits_scaled hq'.le hs']
  rcases Nat.lt_trichotomy s s' with hlt | rfl | hgt
  · calc q * 2 ^ s < 2 ^ 24 * 2 ^ s := by exact Nat.mul_lt_mul_of_pos_right hq (by positivity)
      _ = 2 ^ 23 * 2 ^ (s + 1) := by rw [Nat.pow_succ]; omega
      _ ≤ q' * 2 ^ s' := Nat.mul_le_mul (by omega) (Nat.pow_le_pow_right (by norm_num) hlt)
  · exact Nat.mul_lt_mul_of_pos_right (by omega) (by positivity)
  · omega

theorem F32.magUnits_mono {m n : Nat} (h : m ≤ n) : F32.magUnits m ≤ F32.magUnits n := by
  rcases h.lt_or_eq with h | rfl
  · exact (F32.magUnits_strictMono h).le
  · exact le_rfl

theorem F32.magUnits_inj {m n : Nat} (h : F32.magUnits m = F32.magUnits n) : m = n := by
  rcases Nat.lt_trichotomy m n with h' | h' | h'
  · have := F32.magUnits_strictMono h'; omega
  · exact h'
  · have := F32.magUnits_strictMono h'; omega

@[simp] theorem F32.magUnits_zero : F32.magUnits 0 = 0 := rfl

theorem F32.magUnits_pos {m : Nat} (h : 0 < m) : 0 < F32.magUnits m := F32.magUnits_strictMono h

/-- A rounded quotient is at least every integer the quotient is at least. -/
theorem F32.le_roundQuot {n d a : Nat} (hd : 0 < d) (h : a * d ≤ n) : a ≤ F32.roundQuot n d := by
  have : a ≤ n / d := (Nat.le_div_iff_mul_le hd).2 h
  unfold F32.roundQuot
  dsimp only
  split <;> omega

/-- A rounded quotient is at most every integer the quotient is at most. -/
theorem F32.roundQuot_le {n d b : Nat} (hd : 0 < d) (h : n ≤ b * d) : F32.roundQuot n d ≤ b := by
  unfold F32.roundQuot
  dsimp only
  have hdm := Nat.div_add_mod n d
  rcases Nat.lt_or_ge (n / d) b with hlt | hge
  · split <;> omega
  · have h1 : b * d ≤ d * (n / d) := by rw [Nat.mul_comm b d]; exact Nat.mul_le_mul_left d hge
    have h0 : n % d = 0 := by omega
    have hq : n / d ≤ b := by
      rw [Nat.div_le_iff_le_mul_add_pred hd, Nat.mul_comm]; omega
    simp [h0, hq, hd.ne]

theorem F32.roundQuot_mul {q d : Nat} (hd : 0 < d) : F32.roundQuot (q * d) d = q :=
  le_antisymm (F32.roundQuot_le hd le_rfl) (F32.le_roundQuot hd le_rfl)

theorem F32.roundQuot_mono {n n' d : Nat} (h : n ≤ n') : F32.roundQuot n d ≤ F32.roundQuot n' d := by
  unfold F32.roundQuot
  dsimp only
  have hq : n / d ≤ n' / d := Nat.div_le_div_right h
  rcases hq.lt_or_eq with hlt | heq
  · split <;> split <;> omega
  · have h1 := Nat.div_add_mod n d
    have h2 := Nat.div_add_mod n' d
    rw [heq] at h1
    have hr : n % d ≤ n' % d := by omega
    rw [heq]
    split <;> split <;> omega

theorem F32.roundQuot_scale {n d k : Nat} (hk : 0 < k) :
    F32.roundQuot (n * k) (d * k) = F32.roundQuot n d := by
  unfold F32.roundQuot
  dsimp only
  rw [Nat.mul_div_mul_right n d hk, Nat.mul_mod_mul_right k n d]
  have h1 : (d * k < 2 * (n % d * k)) ↔ (d < 2 * (n % d)) := by
    rw [← Nat.mul_assoc]; exact Nat.mul_lt_mul_right hk
  have h2 : (2 * (n % d * k) = d * k) ↔ (2 * (n % d) = d) := by
    rw [← Nat.mul_assoc]; exact Nat.mul_left_inj (by omega)
  simp only [h1, h2]

theorem F32.roundScale_scale {n d k : Nat} (hk : 0 < k) : F32.roundScale (n * k) (d * k) = F32.roundScale n d := by
  unfold F32.roundScale; rw [Nat.mul_div_mul_right n d hk]

/-- The rounding depends on the quotient only. -/
theorem F32.roundMag_scale {n d k : Nat} (hk : 0 < k) : F32.roundMag (n * k) (d * k) = F32.roundMag n d := by
  unfold F32.roundMag
  dsimp only
  rw [F32.roundScale_scale hk, Nat.mul_right_comm d k, F32.roundQuot_scale hk]

/-- The rounded significand has at most 24 bits, or is 2^24; above the least scale it is full. -/
theorem F32.roundQuot_bounds {n d : Nat} (hd : 0 < d) :
    F32.roundQuot n (d * 2 ^ F32.roundScale n d) ≤ 2 ^ 24 ∧
      (F32.roundScale n d = 0 ∨ 2 ^ 23 ≤ F32.roundQuot n (d * 2 ^ F32.roundScale n d)) := by
  have hlt : n < 2 ^ (Nat.log2 (n / d) + 1) * d := by
    have := Nat.lt_log2_self (n := n / d)
    rwa [Nat.div_lt_iff_lt_mul hd] at this
  have hpos : 0 < d * 2 ^ F32.roundScale n d := by positivity
  refine ⟨F32.roundQuot_le hpos ?_, ?_⟩
  · refine hlt.le.trans ?_
    have hp : 2 ^ (Nat.log2 (n / d) + 1) ≤ 2 ^ 24 * 2 ^ F32.roundScale n d := by
      rw [← Nat.pow_add]
      exact Nat.pow_le_pow_right (by norm_num) (by unfold F32.roundScale; omega)
    calc 2 ^ (Nat.log2 (n / d) + 1) * d ≤ 2 ^ 24 * 2 ^ F32.roundScale n d * d := Nat.mul_le_mul_right d hp
      _ = 2 ^ 24 * (d * 2 ^ F32.roundScale n d) := by ring
  · rcases Nat.eq_zero_or_pos (F32.roundScale n d) with h0 | h0
    · exact .inl h0
    · right
      have hne : n / d ≠ 0 := by
        intro h; unfold F32.roundScale at h0; rw [h] at h0; simp at h0
      have hle : 2 ^ Nat.log2 (n / d) * d ≤ n := by
        rw [← Nat.le_div_iff_mul_le hd]; exact Nat.log2_self_le hne
      have hs : Nat.log2 (n / d) = 23 + F32.roundScale n d := by unfold F32.roundScale at h0 ⊢; omega
      refine F32.le_roundQuot hpos ?_
      rw [hs, Nat.pow_add] at hle
      calc 2 ^ 23 * (d * 2 ^ F32.roundScale n d) = 2 ^ 23 * 2 ^ F32.roundScale n d * d := by ring
        _ ≤ n := hle

theorem F32.roundMag_le_infMag (n d : Nat) : F32.roundMag n d ≤ F32.infMag := min_le_right _ _

/-- Rounding to the same denominator is monotone. -/
theorem F32.roundMag_mono_num {n n' d : Nat} (hd : 0 < d) (h : n ≤ n') : F32.roundMag n d ≤ F32.roundMag n' d := by
  unfold F32.roundMag
  dsimp only
  have hb := F32.roundQuot_bounds (n := n) hd
  have hb' := F32.roundQuot_bounds (n := n') hd
  have hs : F32.roundScale n d ≤ F32.roundScale n' d := by
    have hq : n / d ≤ n' / d := Nat.div_le_div_right h
    have : Nat.log2 (n / d) ≤ Nat.log2 (n' / d) := by
      rw [Nat.log2_eq_log_two, Nat.log2_eq_log_two]; exact Nat.log_mono_right hq
    unfold F32.roundScale; omega
  refine min_le_min ?_ le_rfl
  rcases hs.lt_or_eq with hlt | heq
  · have hfull : 2 ^ 23 ≤ F32.roundQuot n' (d * 2 ^ F32.roundScale n' d) := by
      rcases hb'.2 with h0 | h0
      · omega
      · exact h0
    have := hb.1
    omega
  · rw [← heq]
    exact Nat.add_le_add_left (F32.roundQuot_mono h) _

/-- Rounding is monotone in the quotient. -/
theorem F32.roundMag_mono {n d n' d' : Nat} (hd : 0 < d) (hd' : 0 < d') (h : n * d' ≤ n' * d) :
    F32.roundMag n d ≤ F32.roundMag n' d' := by
  rw [← F32.roundMag_scale (n := n) (d := d) hd', ← F32.roundMag_scale (n := n') (d := d') hd, Nat.mul_comm d' d]
  exact F32.roundMag_mono_num (by positivity) h

/-- A representable magnitude is its own rounding. -/
theorem F32.roundMag_magUnits {m d : Nat} (hd : 0 < d) (hm : m ≤ F32.infMag) :
    F32.roundMag (F32.magUnits m * d) d = m := by
  have h1 : F32.roundMag (F32.magUnits m * d) d = F32.roundMag (F32.magUnits m) 1 := by
    have := F32.roundMag_scale (n := F32.magUnits m) (d := 1) hd
    rwa [Nat.one_mul] at this
  rw [h1]
  obtain ⟨s, q, rfl, hq, hs⟩ := F32.mag_split m
  rw [F32.magUnits_scaled hq.le hs]
  have hscale : F32.roundScale (q * 2 ^ s) 1 = s := by
    unfold F32.roundScale
    rw [Nat.div_one]
    rcases Nat.lt_or_ge q (2 ^ 23) with hlt | hge
    · obtain rfl : s = 0 := by omega
      have : Nat.log2 q < 24 := by
        rcases Nat.eq_zero_or_pos q with rfl | hp
        · decide
        · exact (Nat.log2_lt hp.ne').2 hq
      simp only [Nat.pow_zero, Nat.mul_one]; omega
    · have hne : q * 2 ^ s ≠ 0 := by positivity
      have hlo : 23 + s ≤ Nat.log2 (q * 2 ^ s) := by
        rw [Nat.le_log2 hne, Nat.pow_add]; exact Nat.mul_le_mul_right _ hge
      have hhi : Nat.log2 (q * 2 ^ s) < 24 + s := by
        rw [Nat.log2_lt hne, Nat.pow_add]; exact Nat.mul_lt_mul_of_pos_right hq (by positivity)
      omega
  unfold F32.roundMag
  dsimp only
  rw [hscale, Nat.one_mul, F32.roundQuot_mul (by positivity)]
  exact min_eq_left hm

/-- At least a representable magnitude: so is the rounding. -/
theorem F32.le_roundMag {n d m : Nat} (hd : 0 < d) (hm : m ≤ F32.infMag) (h : F32.magUnits m * d ≤ n) :
    m ≤ F32.roundMag n d := by
  calc m = F32.roundMag (F32.magUnits m * d) d := (F32.roundMag_magUnits hd hm).symm
    _ ≤ F32.roundMag n d := F32.roundMag_mono_num hd h

/-- At most a representable magnitude: so is the rounding. -/
theorem F32.roundMag_le {n d m : Nat} (hd : 0 < d) (hm : m ≤ F32.infMag) (h : n ≤ F32.magUnits m * d) :
    F32.roundMag n d ≤ m := by
  calc F32.roundMag n d ≤ F32.roundMag (F32.magUnits m * d) d := F32.roundMag_mono_num hd h
    _ = m := F32.roundMag_magUnits hd hm

end Sys2Proof
end

