-- ==== Sys2Proof/Laws/Float.lean ====
section
/-! SUPPORT. What each binary32 operation can do (00_scope.md R13, R15): one lemma per operation, in units of 2^-149. Later
proofs cite these and do not unfold the operations. -/

namespace Sys2Proof

/-! ## Bit patterns -/

theorem F32.mag_lt (x : F32) : x.mag < 2 ^ 31 := Nat.mod_lt _ (by norm_num)

theorem F32.sign_ofSignMag (neg : Bool) {m : Nat} (h : m < 2 ^ 31) : (F32.ofSignMag neg m).sign = neg := by
  unfold F32.sign F32.ofSignMag
  rw [BitVec.msb_eq_decide]
  cases neg <;> simp <;> omega

theorem F32.mag_ofSignMag (neg : Bool) {m : Nat} (h : m < 2 ^ 31) : (F32.ofSignMag neg m).mag = m := by
  unfold F32.mag F32.ofSignMag
  cases neg <;> simp <;> omega

/-- A value is its sign and its magnitude bits. -/
theorem F32.ofSignMag_sign_mag (x : F32) : F32.ofSignMag x.sign x.mag = x := by
  obtain ⟨b⟩ := x
  unfold F32.ofSignMag F32.sign F32.mag
  dsimp only
  congr 1
  apply BitVec.eq_of_toNat_eq
  rw [BitVec.msb_eq_decide]
  have := b.isLt
  simp only [BitVec.toNat_ofNat]
  simp only [decide_eq_true_eq]
  split <;> omega

theorem F32.ext_sign_mag {x y : F32} (hs : x.sign = y.sign) (hm : x.mag = y.mag) : x = y := by
  rw [← F32.ofSignMag_sign_mag x, ← F32.ofSignMag_sign_mag y, hs, hm]

theorem F32.isNaN_iff (x : F32) : x.isNaN = true ↔ F32.infMag < x.mag := by simp [F32.isNaN]

theorem F32.isNaN_false (x : F32) : x.isNaN = false ↔ x.mag ≤ F32.infMag := by simp [F32.isNaN]

theorem F32.isFinite_iff (x : F32) : x.isFinite = true ↔ x.mag < F32.infMag := by simp [F32.isFinite]

theorem F32.isInf_iff (x : F32) : x.isInf = true ↔ x.mag = F32.infMag := by simp [F32.isInf]

theorem F32.isZero_iff (x : F32) : x.isZero = true ↔ x.mag = 0 := by simp [F32.isZero]

theorem F32.isNaN_of_isFinite {x : F32} (h : x.isFinite = true) : x.isNaN = false := by
  rw [F32.isFinite_iff] at h; rw [F32.isNaN_false]; exact h.le

theorem F32.isInf_of_isFinite {x : F32} (h : x.isFinite = true) : x.isInf = false := by
  rw [F32.isFinite_iff] at h; simp [F32.isInf, h.ne]

/-! ## Units -/

/-- The units of infinity, above those of every finite value. -/
def F32.infUnits : Int := 2 ^ 277

theorem F32.magUnits_infMag : (F32.magUnits F32.infMag : Int) = F32.infUnits := by decide +kernel

theorem F32.natAbs_units (x : F32) : x.units.natAbs = F32.magUnits x.mag := by
  unfold F32.units; split <;> simp

theorem F32.units_nonneg {x : F32} (h : x.sign = false) : 0 ≤ x.units := by simp [F32.units, h]

theorem F32.units_nonpos {x : F32} (h : x.sign = true) : x.units ≤ 0 := by simp [F32.units, h]

theorem F32.units_eq_zero_iff (x : F32) : x.units = 0 ↔ x.mag = 0 := by
  rw [← Int.natAbs_eq_zero, F32.natAbs_units]
  constructor
  · intro h; by_contra hne; have := F32.magUnits_pos (Nat.pos_of_ne_zero hne); omega
  · rintro h; rw [h]; rfl

theorem F32.sign_of_units_pos {x : F32} (h : 0 < x.units) : x.sign = false := by
  by_contra hs; have := F32.units_nonpos (x := x) (by simpa using hs); omega

theorem F32.sign_of_units_neg {x : F32} (h : x.units < 0) : x.sign = true := by
  by_contra hs; have := F32.units_nonneg (x := x) (by simpa using hs); omega

/-- A value that is not NaN is finite when its units are below infinity's. -/
theorem F32.isFinite_iff_units {x : F32} (h : x.isNaN = false) :
    x.isFinite = true ↔ -F32.infUnits < x.units ∧ x.units < F32.infUnits := by
  have habs : (x.units.natAbs : Int) = F32.magUnits x.mag := by rw [F32.natAbs_units]
  rw [F32.isNaN_false] at h
  rw [F32.isFinite_iff, ← F32.magUnits_infMag]
  constructor
  · intro hm; have := F32.magUnits_strictMono hm; omega
  · rintro ⟨h1, h2⟩
    by_contra hn
    have hm : x.mag = F32.infMag := by omega
    rw [hm] at habs; omega

/-- Values that are not NaN with the same units and the same sign are the same. -/
theorem F32.eq_of_units {x y : F32} (hs : x.sign = y.sign) (hu : x.units = y.units) : x = y := by
  refine F32.ext_sign_mag hs (F32.magUnits_inj ?_)
  rw [← F32.natAbs_units, ← F32.natAbs_units, hu]

/-- A nonzero value is determined by its units. -/
theorem F32.eq_of_units_ne_zero {x y : F32} (h0 : x.units ≠ 0) (hu : x.units = y.units) : x = y := by
  refine F32.eq_of_units ?_ hu
  rcases lt_or_gt_of_ne h0 with h | h
  · rw [F32.sign_of_units_neg h, F32.sign_of_units_neg (hu ▸ h)]
  · rw [F32.sign_of_units_pos h, F32.sign_of_units_pos (hu ▸ h)]

/-! ## Comparisons -/

theorem F32.lt_iff (a b : F32) : a.lt b = true ↔ a.isNaN = false ∧ b.isNaN = false ∧ a.units < b.units := by
  simp [F32.lt, and_assoc]

theorem F32.le_iff (a b : F32) : a.le b = true ↔ a.isNaN = false ∧ b.isNaN = false ∧ a.units ≤ b.units := by
  simp [F32.le, and_assoc]

theorem F32.feq_iff (a b : F32) : a.feq b = true ↔ a.isNaN = false ∧ b.isNaN = false ∧ a.units = b.units := by
  simp [F32.feq, and_assoc]

/-! ## Rounding of signed quotients -/

/-- `v / den` units rounded, in units. -/
def F32.roundUnits (v : Int) (den : Nat) : Int :=
  if v < 0 then -(F32.magUnits (F32.roundMag v.natAbs den) : Int) else (F32.magUnits (F32.roundMag v.natAbs den) : Int)

theorem F32.roundUnits_mono {v w : Int} {d e : Nat} (hd : 0 < d) (he : 0 < e) (h : v * e ≤ w * d) :
    F32.roundUnits v d ≤ F32.roundUnits w e := by
  have hd' : (0 : Int) < d := by exact_mod_cast hd
  have he' : (0 : Int) < e := by exact_mod_cast he
  unfold F32.roundUnits
  split <;> split
  · rename_i hv hw
    have : F32.roundMag w.natAbs e ≤ F32.roundMag v.natAbs d := by
      refine F32.roundMag_mono he hd ?_
      zify
      rw [abs_of_neg hv, abs_of_neg hw]
      linarith
    have := F32.magUnits_mono this
    omega
  · omega
  · rename_i hv hw
    have h1 : 0 ≤ v * e := mul_nonneg (by omega) he'.le
    have h2 : w * d < 0 := mul_neg_of_neg_of_pos hw hd'
    omega
  · rename_i hv hw
    have : F32.roundMag v.natAbs d ≤ F32.roundMag w.natAbs e := by
      refine F32.roundMag_mono hd he ?_
      zify
      rw [abs_of_nonneg (by omega), abs_of_nonneg (by omega)]
      exact h
    have := F32.magUnits_mono this
    omega

/-- A representable value is its own rounding. -/
theorem F32.roundUnits_units {x : F32} (h : x.isNaN = false) {d : Nat} (hd : 0 < d) :
    F32.roundUnits (x.units * d) d = x.units := by
  rw [F32.isNaN_false] at h
  have hd' : (0 : Int) < d := by exact_mod_cast hd
  have hn : (x.units * d).natAbs = F32.magUnits x.mag * d := by rw [Int.natAbs_mul, F32.natAbs_units]; simp
  have habs : (x.units.natAbs : Int) = F32.magUnits x.mag := by rw [F32.natAbs_units]
  unfold F32.roundUnits
  rw [hn, F32.roundMag_magUnits hd h]
  split
  · rename_i hv
    have : x.units < 0 := by by_contra hc; have := mul_nonneg (not_lt.1 hc) hd'.le; omega
    omega
  · rename_i hv
    have : 0 ≤ x.units := by by_contra hc; have := mul_neg_of_neg_of_pos (not_le.1 hc) hd'; omega
    omega

theorem F32.roundUnits_ge {x : F32} (h : x.isNaN = false) {v : Int} {d : Nat} (hd : 0 < d) (hv : x.units * d ≤ v) :
    x.units ≤ F32.roundUnits v d := by
  rw [← F32.roundUnits_units h hd]
  exact F32.roundUnits_mono hd hd (mul_le_mul_of_nonneg_right hv (by positivity))

theorem F32.roundUnits_le {x : F32} (h : x.isNaN = false) {v : Int} {d : Nat} (hd : 0 < d) (hv : v ≤ x.units * d) :
    F32.roundUnits v d ≤ x.units := by
  rw [← F32.roundUnits_units h hd]
  exact F32.roundUnits_mono hd hd (mul_le_mul_of_nonneg_right hv (by positivity))

@[simp] theorem F32.roundUnits_zero (d : Nat) : F32.roundUnits 0 d = 0 := by
  simp [F32.roundUnits, F32.roundMag, F32.roundScale, F32.roundQuot]

theorem F32.roundUnits_neg (v : Int) (d : Nat) : F32.roundUnits (-v) d = -F32.roundUnits v d := by
  rcases lt_trichotomy v 0 with h | rfl | h
  · simp [F32.roundUnits, h, not_lt.2 h.le]
  · simp
  · simp [F32.roundUnits, h, not_lt.2 h.le]

theorem F32.roundUnits_nonneg {v : Int} {d : Nat} (h : 0 ≤ v) : 0 ≤ F32.roundUnits v d := by
  simp [F32.roundUnits, not_lt.2 h]

theorem F32.roundUnits_nonpos {v : Int} {d : Nat} (h : v ≤ 0) : F32.roundUnits v d ≤ 0 := by
  have := F32.roundUnits_nonneg (d := d) (v := -v) (by omega)
  rw [F32.roundUnits_neg] at this; omega

theorem F32.mag_round (neg : Bool) (n d : Nat) : (F32.round neg n d).mag = F32.roundMag n d :=
  F32.mag_ofSignMag neg (lt_of_le_of_lt (F32.roundMag_le_infMag n d) (by decide))

theorem F32.sign_round (neg : Bool) (n d : Nat) : (F32.round neg n d).sign = neg :=
  F32.sign_ofSignMag neg (lt_of_le_of_lt (F32.roundMag_le_infMag n d) (by decide))

theorem F32.isNaN_round (neg : Bool) (n d : Nat) : (F32.round neg n d).isNaN = false := by
  rw [F32.isNaN_false, F32.mag_round]; exact F32.roundMag_le_infMag n d

theorem F32.units_round (neg : Bool) (n d : Nat) :
    (F32.round neg n d).units = F32.roundUnits (if neg then -(n : Int) else n) d := by
  unfold F32.units
  rw [F32.sign_round, F32.mag_round]
  cases neg
  · simp [F32.roundUnits]
  · rcases Nat.eq_zero_or_pos n with rfl | h
    · simp [F32.roundMag, F32.roundScale, F32.roundQuot]
    · simp [F32.roundUnits, h.ne']

theorem F32.units_roundInt (v : Int) : (F32.roundInt v).units = F32.roundUnits v 1 := by
  unfold F32.roundInt
  rw [F32.units_round]
  congr 1
  rcases lt_or_ge v 0 with h | h
  · simp [h, abs_of_neg h]
  · simp [not_lt.2 h, abs_of_nonneg h]

theorem F32.sign_roundInt (v : Int) : (F32.roundInt v).sign = decide (v < 0) := F32.sign_round _ _ _

/-! ## The operations -/

theorem F32.sign_neg (x : F32) : x.neg.sign = !x.sign := F32.sign_ofSignMag _ x.mag_lt

theorem F32.mag_neg (x : F32) : x.neg.mag = x.mag := F32.mag_ofSignMag _ x.mag_lt

@[simp] theorem F32.units_neg (x : F32) : x.neg.units = -x.units := by
  unfold F32.units; rw [F32.sign_neg, F32.mag_neg]; cases x.sign <;> simp

@[simp] theorem F32.isNaN_neg (x : F32) : x.neg.isNaN = x.isNaN := by simp [F32.isNaN, F32.mag_neg]

@[simp] theorem F32.isInf_neg (x : F32) : x.neg.isInf = x.isInf := by simp [F32.isInf, F32.mag_neg]

@[simp] theorem F32.isFinite_neg (x : F32) : x.neg.isFinite = x.isFinite := by simp [F32.isFinite, F32.mag_neg]

theorem F32.units_ofSignMag_zero (neg : Bool) : (F32.ofSignMag neg 0).units = 0 := by
  unfold F32.units; rw [F32.mag_ofSignMag neg (by norm_num)]; cases (F32.ofSignMag neg 0).sign <;> rfl

/-- A finite sum is the exact sum, rounded once. -/
theorem F32.add_finite {a b : F32} (ha : a.isFinite = true) (hb : b.isFinite = true) :
    (a.add b).isNaN = false ∧ (a.add b).units = F32.roundUnits (a.units + b.units) 1 := by
  unfold F32.add
  simp only [F32.isNaN_of_isFinite ha, F32.isNaN_of_isFinite hb, F32.isInf_of_isFinite ha, F32.isInf_of_isFinite hb,
    Bool.or_false, Bool.and_false, Bool.false_eq_true, if_false]
  split
  · rename_i h
    rw [h, F32.roundUnits_zero, F32.units_ofSignMag_zero]
    refine ⟨?_, rfl⟩
    rw [F32.isNaN_false, F32.mag_ofSignMag _ (by norm_num)]
    exact Nat.zero_le _
  · exact ⟨F32.isNaN_round _ _ _, F32.units_roundInt _⟩

/-- The sign of a finite sum: that of the exact sum, and of an exact zero only when both operands are negative. -/
theorem F32.sign_add_finite {a b : F32} (ha : a.isFinite = true) (hb : b.isFinite = true) :
    (a.add b).sign = if a.units + b.units = 0 then a.sign && b.sign else decide (a.units + b.units < 0) := by
  unfold F32.add
  simp only [F32.isNaN_of_isFinite ha, F32.isNaN_of_isFinite hb, F32.isInf_of_isFinite ha, F32.isInf_of_isFinite hb,
    Bool.or_false, Bool.and_false, Bool.false_eq_true, if_false]
  split
  · exact F32.sign_ofSignMag _ (by norm_num)
  · exact F32.sign_roundInt _

/-- A difference that is not NaN is the sum with the negated operand. -/
theorem F32.sub_eq_add {a b : F32} (h : (a.add b.neg).isNaN = false) : a.sub b = a.add b.neg := by
  simp [F32.sub, h]

/-- A finite difference is the exact difference, rounded once. -/
theorem F32.sub_finite {a b : F32} (ha : a.isFinite = true) (hb : b.isFinite = true) :
    (a.sub b).isNaN = false ∧ (a.sub b).units = F32.roundUnits (a.units - b.units) 1 := by
  have := F32.add_finite ha (b := b.neg) (by simpa using hb)
  rw [F32.sub_eq_add this.1]
  rwa [F32.units_neg, ← sub_eq_add_neg] at this

/-- A finite value less infinity is minus infinity. -/
theorem F32.sub_posInf {a b : F32} (ha : a.isFinite = true) (hb : b.isInf = true) (hs : b.sign = false) :
    (a.sub b).isNaN = false ∧ (a.sub b).units = -F32.infUnits := by
  have hn : b.isNaN = false := by rw [F32.isInf_iff] at hb; rw [F32.isNaN_false]; exact hb.le
  have hd : a.add b.neg = b.neg := by
    simp [F32.add, F32.isNaN_of_isFinite ha, F32.isInf_of_isFinite ha, hn, hb]
  rw [F32.sub_eq_add (by simp [hd, hn]), hd]
  refine ⟨by simp [hn], ?_⟩
  rw [F32.isInf_iff] at hb
  rw [F32.units_neg, ← F32.magUnits_infMag, F32.units, hs, hb]; rfl

/-- A finite value plus infinity is infinity. -/
theorem F32.add_posInf {a b : F32} (ha : a.isFinite = true) (hb : b.isInf = true) (hs : b.sign = false) :
    (a.add b).isNaN = false ∧ (a.add b).units = F32.infUnits := by
  have hn : b.isNaN = false := by rw [F32.isInf_iff] at hb; rw [F32.isNaN_false]; exact hb.le
  have hd : a.add b = b := by
    simp [F32.add, F32.isNaN_of_isFinite ha, F32.isInf_of_isFinite ha, hn, hb]
  rw [hd]
  refine ⟨hn, ?_⟩
  rw [F32.isInf_iff] at hb
  rw [← F32.magUnits_infMag, F32.units, hs, hb]; rfl

theorem F32.units_mul_units (a b : F32) :
    a.units * b.units =
      if (a.sign != b.sign) = true then -((F32.magUnits a.mag * F32.magUnits b.mag : Nat) : Int)
      else ((F32.magUnits a.mag * F32.magUnits b.mag : Nat) : Int) := by
  unfold F32.units; cases a.sign <;> cases b.sign <;> simp

/-- A finite product is the exact product, rounded once. -/
theorem F32.mul_finite {a b : F32} (ha : a.isFinite = true) (hb : b.isFinite = true) :
    (a.mul b).isNaN = false ∧ (a.mul b).units = F32.roundUnits (a.units * b.units) (2 ^ 149) := by
  unfold F32.mul
  simp only [F32.isNaN_of_isFinite ha, F32.isNaN_of_isFinite hb, F32.isInf_of_isFinite ha, F32.isInf_of_isFinite hb,
    Bool.or_false, Bool.and_false, Bool.false_and, Bool.false_eq_true, if_false]
  exact ⟨F32.isNaN_round _ _ _, by rw [F32.units_round, F32.units_mul_units]⟩

theorem F32.sign_mul_finite {a b : F32} (ha : a.isFinite = true) (hb : b.isFinite = true) :
    (a.mul b).sign = (a.sign != b.sign) := by
  unfold F32.mul
  simp only [F32.isNaN_of_isFinite ha, F32.isNaN_of_isFinite hb, F32.isInf_of_isFinite ha, F32.isInf_of_isFinite hb,
    Bool.or_false, Bool.and_false, Bool.false_and, Bool.false_eq_true, if_false]
  exact F32.sign_round _ _ _

/-- A finite quotient by a finite nonzero divisor is the exact quotient, rounded once. -/
theorem F32.div_finite {a b : F32} (ha : a.isFinite = true) (hb : b.isFinite = true) (h0 : b.units ≠ 0) :
    (a.div b).isNaN = false ∧
      (a.div b).units = F32.roundUnits (a.units * b.units.sign * 2 ^ 149) b.units.natAbs := by
  have hz : b.isZero = false := by
    rw [Ne, F32.units_eq_zero_iff] at h0; simp [F32.isZero, h0]
  unfold F32.div
  simp only [F32.isNaN_of_isFinite ha, F32.isNaN_of_isFinite hb, F32.isInf_of_isFinite ha, F32.isInf_of_isFinite hb, hz,
    Bool.or_false, Bool.and_false, Bool.false_eq_true, if_false]
  refine ⟨F32.isNaN_round _ _ _, ?_⟩
  rw [F32.units_round, F32.natAbs_units]
  congr 1
  have hb0 : b.units.sign = if b.sign then -1 else 1 := by
    cases hs : b.sign
    · have := F32.units_nonneg hs
      simp [Int.sign_eq_one_of_pos (by omega : 0 < b.units)]
    · have := F32.units_nonpos hs
      simp [Int.sign_eq_neg_one_of_neg (by omega : b.units < 0)]
  rw [hb0]
  unfold F32.units
  cases a.sign <;> cases b.sign <;> simp

/-- A finite value over infinity is a zero. -/
theorem F32.div_inf {a b : F32} (ha : a.isFinite = true) (hb : b.isInf = true) :
    (a.div b).isNaN = false ∧ (a.div b).units = 0 := by
  have hn : b.isNaN = false := by rw [F32.isInf_iff] at hb; rw [F32.isNaN_false]; exact hb.le
  have hz : b.isZero = false := by rw [F32.isInf_iff] at hb; simp [F32.isZero, hb, F32.infMag]
  have hd : a.div b = F32.ofSignMag (a.sign != b.sign) 0 := by
    simp [F32.div, F32.isNaN_of_isFinite ha, F32.isInf_of_isFinite ha, hn, hb, hz]
  rw [hd, F32.units_ofSignMag_zero]
  refine ⟨?_, rfl⟩
  rw [F32.isNaN_false, F32.mag_ofSignMag _ (by norm_num)]; exact Nat.zero_le _

/-- `f32(k)`, in units. -/
theorem F32.units_ofNat (k : Nat) : (F32.ofNat k).units = F32.roundUnits (k * 2 ^ 149) 1 := by
  unfold F32.ofNat; rw [F32.units_round]; simp

@[simp] theorem F32.isNaN_ofNat (k : Nat) : (F32.ofNat k).isNaN = false := F32.isNaN_round _ _ _

@[simp] theorem F32.sign_ofNat (k : Nat) : (F32.ofNat k).sign = false := F32.sign_round _ _ _

theorem F32.ofNat_mono {j k : Nat} (h : j ≤ k) : (F32.ofNat j).units ≤ (F32.ofNat k).units := by
  rw [F32.units_ofNat, F32.units_ofNat]
  refine F32.roundUnits_mono (by norm_num) (by norm_num) ?_
  have : (j : Int) ≤ k := by exact_mod_cast h
  nlinarith [this]

/-- A NaN result is a NaN, whatever its free bits are. -/
theorem F32.isNaN_nanOf (o : NanSource) (a b : F32) : (F32.nanOf o a b).isNaN = true := by
  unfold F32.nanOf
  dsimp only
  have h : (Config.nanBits o a b).toNat % 2 ^ 23 < 2 ^ 23 := Nat.mod_lt _ (by norm_num)
  have hi : F32.infMag = 2139095040 := rfl
  rw [F32.isNaN_iff, F32.mag_ofSignMag]
  · split <;> omega
  · split <;> omega

/-! ## Constants -/

@[simp] theorem F32.isNaN_zero : F32.zero.isNaN = false := by decide
@[simp] theorem F32.isNaN_one : F32.one.isNaN = false := by decide
@[simp] theorem F32.isNaN_negOne : F32.negOne.isNaN = false := by decide
@[simp] theorem F32.isFinite_zero : F32.zero.isFinite = true := by decide
@[simp] theorem F32.isFinite_one : F32.one.isFinite = true := by decide
@[simp] theorem F32.isFinite_negOne : F32.negOne.isFinite = true := by decide
@[simp] theorem F32.sign_zero : F32.zero.sign = false := by decide
@[simp] theorem F32.units_zero : F32.zero.units = 0 := by decide
theorem F32.units_one : F32.one.units = 2 ^ 149 := by decide +kernel
theorem F32.units_negOne : F32.negOne.units = -2 ^ 149 := by decide +kernel
theorem F32.units_two : F32.two.units = 2 ^ 150 := by decide +kernel

/-- +0.0 is the one value with units 0 and a clear sign. -/
theorem F32.eq_zero_of_units {x : F32} (hs : x.sign = false) (hu : x.units = 0) : x = F32.zero :=
  F32.eq_of_units (by rw [hs, F32.sign_zero]) (by rw [hu, F32.units_zero])

end Sys2Proof
end

