-- ==== Sys2Proof/Laws/Bounds.lean ====
section
/-! SUPPORT. Bounds of binary32 results by powers of two, from which it follows that a result is finite. -/

namespace Sys2Proof

/-- Every power of two up to infinity's is representable. -/
theorem F32.exists_pow {j : Nat} (h : j ≤ 277) : ∃ x : F32, x.isNaN = false ∧ x.sign = false ∧ x.units = 2 ^ j := by
  have hi : F32.infMag = 2139095040 := rfl
  obtain ⟨m, hm, hu⟩ : ∃ m, m ≤ F32.infMag ∧ F32.magUnits m = 2 ^ j := by
    rcases Nat.lt_or_ge j 24 with hj | hj
    · refine ⟨2 ^ j, ?_, ?_⟩
      · have : 2 ^ j ≤ 2 ^ 24 := Nat.pow_le_pow_right (by norm_num) hj.le
        omega
      · have := F32.magUnits_scaled (s := 0) (q := 2 ^ j) (Nat.pow_le_pow_right (by norm_num) hj.le) (.inl rfl)
        simpa using this
    · refine ⟨(j - 23) * 2 ^ 23 + 2 ^ 23, by omega, ?_⟩
      rw [F32.magUnits_scaled (by norm_num) (.inr le_rfl), ← Nat.pow_add]
      congr 1; omega
  have hlt : m < 2 ^ 31 := by omega
  refine ⟨F32.ofSignMag false m, ?_, F32.sign_ofSignMag _ hlt, ?_⟩
  · rw [F32.isNaN_false, F32.mag_ofSignMag _ hlt]; exact hm
  · unfold F32.units
    rw [F32.sign_ofSignMag _ hlt, F32.mag_ofSignMag _ hlt, hu]; simp

theorem F32.roundUnits_le_pow {v : Int} {d j : Nat} (hd : 0 < d) (hj : j ≤ 277) (h : v ≤ 2 ^ j * d) :
    F32.roundUnits v d ≤ 2 ^ j := by
  obtain ⟨x, hn, -, hu⟩ := F32.exists_pow hj
  rw [← hu] at h ⊢
  exact F32.roundUnits_le hn hd h

theorem F32.pow_le_roundUnits {v : Int} {d j : Nat} (hd : 0 < d) (hj : j ≤ 277) (h : 2 ^ j * d ≤ v) :
    2 ^ j ≤ F32.roundUnits v d := by
  obtain ⟨x, hn, -, hu⟩ := F32.exists_pow hj
  rw [← hu] at h ⊢
  exact F32.roundUnits_ge hn hd h

theorem F32.abs_roundUnits (v : Int) (d : Nat) : |F32.roundUnits v d| = F32.roundUnits |v| d := by
  rcases le_total 0 v with h | h
  · rw [abs_of_nonneg h, abs_of_nonneg (F32.roundUnits_nonneg h)]
  · rw [abs_of_nonpos h, abs_of_nonpos (F32.roundUnits_nonpos h), F32.roundUnits_neg]

theorem F32.abs_roundUnits_le_pow {v : Int} {d j : Nat} (hd : 0 < d) (hj : j ≤ 277) (h : |v| ≤ 2 ^ j * d) :
    |F32.roundUnits v d| ≤ 2 ^ j := by
  rw [F32.abs_roundUnits]; exact F32.roundUnits_le_pow hd hj h

/-- Not NaN, and at most 2^j units in magnitude. -/
structure F32.Bounded (x : F32) (j : Nat) : Prop where
  notNaN : x.isNaN = false
  bound : |x.units| ≤ 2 ^ j

theorem F32.Bounded.mono {x : F32} {i j : Nat} (h : x.Bounded i) (hij : i ≤ j) : x.Bounded j :=
  ⟨h.notNaN, h.bound.trans (pow_le_pow_right₀ (by norm_num) hij)⟩

theorem F32.Bounded.isFinite {x : F32} {j : Nat} (h : x.Bounded j) (hj : j ≤ 276) : x.isFinite = true := by
  rw [F32.isFinite_iff_units h.notNaN]
  have h1 := abs_le.1 h.bound
  have h2 : (2 : Int) ^ j ≤ 2 ^ 276 := pow_le_pow_right₀ (by norm_num) hj
  have h3 : (2 : Int) ^ 276 < F32.infUnits := by decide
  omega

theorem F32.Bounded.add {a b : F32} {j : Nat} (ha : a.Bounded j) (hb : b.Bounded j) (hj : j ≤ 276) :
    (a.add b).Bounded (j + 1) := by
  obtain ⟨hn, hu⟩ := F32.add_finite (ha.isFinite hj) (hb.isFinite hj)
  refine ⟨hn, ?_⟩
  rw [hu]
  refine F32.abs_roundUnits_le_pow (by norm_num) (by omega) ?_
  have := abs_add_le a.units b.units
  have := ha.bound; have := hb.bound
  rw [pow_succ]; push_cast; linarith

theorem F32.Bounded.mul {a b : F32} {i j k : Nat} (ha : a.Bounded i) (hb : b.Bounded j) (hi : i ≤ 276) (hj : j ≤ 276)
    (hk : k ≤ 277) (h : i + j ≤ k + 149) : (a.mul b).Bounded k := by
  obtain ⟨hn, hu⟩ := F32.mul_finite (ha.isFinite hi) (hb.isFinite hj)
  refine ⟨hn, ?_⟩
  rw [hu]
  refine F32.abs_roundUnits_le_pow (by positivity) hk ?_
  rw [abs_mul]
  calc |a.units| * |b.units| ≤ 2 ^ i * 2 ^ j := mul_le_mul ha.bound hb.bound (abs_nonneg _) (by positivity)
    _ = 2 ^ (i + j) := (pow_add _ _ _).symm
    _ ≤ 2 ^ (k + 149) := pow_le_pow_right₀ (by norm_num) h
    _ = 2 ^ k * ((2 ^ 149 : Nat) : Int) := by rw [pow_add]; norm_num

theorem F32.Bounded.div {a b : F32} {i j k : Nat} (ha : a.Bounded i) (hb : b.isFinite = true) (hlo : 2 ^ j ≤ |b.units|)
    (hi : i ≤ 276) (hk : k ≤ 277) (h : i + 149 ≤ k + j) : (a.div b).Bounded k := by
  have h0 : b.units ≠ 0 := by
    intro hz; rw [hz] at hlo
    have : (0 : Int) < 2 ^ j := by positivity
    simp at hlo; omega
  obtain ⟨hn, hu⟩ := F32.div_finite (ha.isFinite hi) hb h0
  refine ⟨hn, ?_⟩
  rw [hu]
  refine F32.abs_roundUnits_le_pow (Int.natAbs_pos.2 h0) hk ?_
  have hs : |b.units.sign| = 1 := by
    rcases lt_trichotomy b.units 0 with hb' | hb' | hb'
    · rw [Int.sign_eq_neg_one_of_neg hb']; rfl
    · exact absurd hb' h0
    · rw [Int.sign_eq_one_of_pos hb']; rfl
  have ht : |(2 : Int) ^ 149| = 2 ^ 149 := abs_of_nonneg (by positivity)
  rw [abs_mul, abs_mul, hs, mul_one, Int.natCast_natAbs, ht]
  calc |a.units| * 2 ^ 149 ≤ 2 ^ i * 2 ^ 149 := mul_le_mul_of_nonneg_right ha.bound (by positivity)
    _ = 2 ^ (i + 149) := (pow_add _ _ _).symm
    _ ≤ 2 ^ (k + j) := pow_le_pow_right₀ (by norm_num) h
    _ = 2 ^ k * 2 ^ j := pow_add _ _ _
    _ ≤ 2 ^ k * |b.units| := mul_le_mul_of_nonneg_left hlo (by positivity)

theorem F32.units_le_infUnits {x : F32} (h : x.isNaN = false) : x.units ≤ F32.infUnits := by
  have := F32.magUnits_mono ((F32.isNaN_false x).1 h)
  rw [← F32.natAbs_units] at this
  have h2 := F32.magUnits_infMag
  omega

theorem F32.isInf_of_units {x : F32} (hu : x.units = F32.infUnits) :
    x.isInf = true ∧ x.sign = false := by
  have hp : (0 : Int) < F32.infUnits := by decide
  refine ⟨?_, F32.sign_of_units_pos (by omega)⟩
  rw [F32.isInf_iff]
  refine F32.magUnits_inj ?_
  have h1 := F32.natAbs_units x
  have h2 := F32.magUnits_infMag
  omega

theorem F32.isInf_of_not_finite {x : F32} (h : x.isNaN = false) (hf : x.isFinite ≠ true) : x.isInf = true := by
  simp only [ne_eq, F32.isFinite_iff] at hf
  rw [F32.isNaN_false] at h
  rw [F32.isInf_iff]; omega

theorem F32.units_of_posInf {x : F32} (h : x.isInf = true) (hs : x.sign = false) :
    x.isNaN = false ∧ x.units = F32.infUnits := by
  rw [F32.isInf_iff] at h
  refine ⟨by rw [F32.isNaN_false, h], ?_⟩
  unfold F32.units; rw [hs, h, ← F32.magUnits_infMag]; rfl

/-- Infinity times a positive value, in either order, is infinity. -/
theorem F32.mul_posInf {a b : F32} (ha : a.isNaN = false) (hb : b.isNaN = false) (hpa : 0 < a.units) (hpb : 0 < b.units)
    (h : a.isInf = true ∨ b.isInf = true) : (a.mul b).isNaN = false ∧ (a.mul b).units = F32.infUnits := by
  have hza : a.isZero = false := by
    have := (F32.units_eq_zero_iff a).not.1 (by omega); simp [F32.isZero, this]
  have hzb : b.isZero = false := by
    have := (F32.units_eq_zero_iff b).not.1 (by omega); simp [F32.isZero, this]
  have hor : (a.isInf || b.isInf) = true := by simpa using h
  have hd : a.mul b = F32.ofSignMag false F32.infMag := by
    unfold F32.mul
    simp only [ha, hb, hza, hzb, hor, F32.sign_of_units_pos hpa, F32.sign_of_units_pos hpb]
    simp
  have hlt : F32.infMag < 2 ^ 31 := by decide
  rw [hd]
  refine F32.units_of_posInf ?_ (F32.sign_ofSignMag _ hlt)
  rw [F32.isInf_iff, F32.mag_ofSignMag _ hlt]

/-- A product of values that are not NaN and positive is not NaN, and is not negative. -/
theorem F32.mul_pos {a b : F32} (ha : a.isNaN = false) (hb : b.isNaN = false) (hpa : 0 < a.units) (hpb : 0 < b.units) :
    (a.mul b).isNaN = false ∧ 0 ≤ (a.mul b).units := by
  by_cases hfa : a.isFinite = true
  · by_cases hfb : b.isFinite = true
    · obtain ⟨h1, h2⟩ := F32.mul_finite hfa hfb
      exact ⟨h1, h2 ▸ F32.roundUnits_nonneg (mul_nonneg hpa.le hpb.le)⟩
    · obtain ⟨h1, h2⟩ := F32.mul_posInf ha hb hpa hpb (.inr (F32.isInf_of_not_finite hb hfb))
      exact ⟨h1, h2 ▸ by decide⟩
  · obtain ⟨h1, h2⟩ := F32.mul_posInf ha hb hpa hpb (.inl (F32.isInf_of_not_finite ha hfa))
    exact ⟨h1, h2 ▸ by decide⟩

/-- A product of positive values grows with its left factor. -/
theorem F32.mul_mono_left {a a' b : F32} (ha : a.isNaN = false) (ha' : a'.isNaN = false) (hb : b.isNaN = false)
    (hpa : 0 < a.units) (hpb : 0 < b.units) (h : a.units ≤ a'.units) : (a.mul b).units ≤ (a'.mul b).units := by
  have hpa' : 0 < a'.units := by omega
  by_cases hfb : b.isFinite = true
  · by_cases hfa' : a'.isFinite = true
    · have hfa : a.isFinite = true := by
        rw [F32.isFinite_iff_units ha'] at hfa'
        rw [F32.isFinite_iff_units ha]
        have : (0 : Int) < F32.infUnits := by decide
        omega
      rw [(F32.mul_finite hfa hfb).2, (F32.mul_finite hfa' hfb).2]
      refine F32.roundUnits_mono (by positivity) (by positivity) ?_
      exact mul_le_mul_of_nonneg_right (mul_le_mul_of_nonneg_right h hpb.le) (by positivity)
    · rw [(F32.mul_posInf ha' hb hpa' hpb (.inl (F32.isInf_of_not_finite ha' hfa'))).2]
      exact F32.units_le_infUnits (F32.mul_pos ha hb hpa hpb).1
  · rw [(F32.mul_posInf ha' hb hpa' hpb (.inr (F32.isInf_of_not_finite hb hfb))).2]
    exact F32.units_le_infUnits (F32.mul_pos ha hb hpa hpb).1

/-- `f32(k)` of a positive integer is at least 1.0. -/
theorem F32.one_le_ofNat {k : Nat} (h : 1 ≤ k) : 2 ^ 149 ≤ (F32.ofNat k).units := by
  rw [F32.units_ofNat]
  refine F32.pow_le_roundUnits (by norm_num) (by norm_num) ?_
  have : (1 : Int) ≤ k := by exact_mod_cast h
  push_cast; linarith

/-- `f32(k)` is infinite from 2^128 on. -/
theorem F32.isInf_ofNat {k : Nat} (h : 2 ^ 128 ≤ k) : (F32.ofNat k).isInf = true := by
  refine (F32.isInf_of_units (le_antisymm (F32.units_le_infUnits (F32.isNaN_ofNat k)) ?_)).1
  rw [F32.units_ofNat]
  refine F32.pow_le_roundUnits (by norm_num) le_rfl ?_
  have : (2 : Int) ^ 128 ≤ k := by exact_mod_cast h
  have h2 : (2 : Int) ^ 277 = 2 ^ 128 * 2 ^ 149 := by rw [← pow_add]
  rw [Nat.cast_one, mul_one]
  refine le_of_eq_of_le h2 (mul_le_mul_of_nonneg_right this (by positivity))

/-- 1.0 × x is x. -/
theorem F32.ofNat_one : F32.ofNat 1 = F32.one := by decide +kernel

theorem F32.units_one_mul {x : F32} (h : x.isFinite = true) :
    (F32.one.mul x).isNaN = false ∧ (F32.one.mul x).units = x.units := by
  obtain ⟨h1, h2⟩ := F32.mul_finite F32.isFinite_one h
  refine ⟨h1, ?_⟩
  rw [h2, F32.units_one, Int.mul_comm]
  exact_mod_cast F32.roundUnits_units (F32.isNaN_of_isFinite h) (d := 2 ^ 149) (by positivity)

end Sys2Proof
end

