-- ==== Sys2Proof/Laws/Decode.lean ====
section
/-! SUPPORT. The fields of a command word as numbers, and the words of the encoder (30_encoding.md R77 to R79). -/

namespace Sys2Proof

theorem opField_toNat (w : CmdWord) : (opField w).toNat = w.toNat / 2 ^ 14 := by
  have := w.isLt
  simp [opField, BitVec.extractLsb'_toNat, Nat.shiftRight_eq_div_pow]; omega

theorem noteField_eq (w : CmdWord) : noteField w = w.toNat / 2 ^ 7 % 2 ^ 7 := by
  simp [noteField, BitVec.extractLsb'_toNat, Nat.shiftRight_eq_div_pow]

theorem velField_eq (w : CmdWord) : velField w = w.toNat % 2 ^ 7 := by
  simp [velField, BitVec.extractLsb'_toNat]

theorem funcField_toNat (w : CmdWord) : (funcField w).toNat = w.toNat / 2 ^ 8 % 2 ^ 6 := by
  simp [funcField, BitVec.extractLsb'_toNat, Nat.shiftRight_eq_div_pow]

theorem waveField_toNat (w : CmdWord) : (waveField w).toNat = w.toNat % 2 ^ 2 := by
  simp [waveField, BitVec.extractLsb'_toNat]

/-- The test R81 makes of a SET_WAVEFORM word: all its bits but WAVE. -/
theorem systemPrefix_toNat (w : CmdWord) : (w.extractLsb' 2 14).toNat = w.toNat / 2 ^ 2 := by
  have := w.isLt
  simp [BitVec.extractLsb'_toNat, Nat.shiftRight_eq_div_pow]; omega

/-- The word of a format N command as a number (R78). -/
theorem encodeNote_toNat (op : BitVec 2) {note vel : Nat} (hn : note ≤ 127) (hv : vel ≤ 127) :
    (encodeNote op note vel).toNat = op.toNat * 2 ^ 14 + note * 2 ^ 7 + vel := by
  have h1 : (BitVec.ofNat 7 note).toNat = note := by simp; omega
  have h2 : (BitVec.ofNat 7 vel).toNat = vel := by simp; omega
  unfold encodeNote
  rw [BitVec.toNat_append, BitVec.toNat_append, h1, h2, ← Nat.shiftLeft_add_eq_or_of_lt (by omega),
    ← Nat.shiftLeft_add_eq_or_of_lt (by omega), Nat.shiftLeft_eq, Nat.shiftLeft_eq]
  ring

/-- The waveform codes are the four values of two bits (R83). -/
theorem code_ofCode (c : BitVec 2) : (Waveform.ofCode c).code = c := by revert c; decide

theorem ofCode_code (w : Waveform) : Waveform.ofCode w.code = w := by cases w <;> decide

end Sys2Proof
end

