-- ==== Sys2Proof/Laws/State.lean ====
section
/-! SUPPORT. The small lemmas of the lanes and of every update of State: one per field per update. -/

namespace Sys2Proof.Machine

/-! ## Lanes -/

theorem Lanes.get_set_self {α : Type} (l : Lanes α) (i : Fin 4) (a : α) : (l.set i a).get i = a := by
  fin_cases i <;> rfl

theorem Lanes.get_set_ne {α : Type} (l : Lanes α) {i j : Fin 4} (h : j ≠ i) (a : α) : (l.set i a).get j = l.get j := by
  fin_cases i <;> fin_cases j <;> first | rfl | exact absurd rfl h

theorem Lanes.get_set {α : Type} (l : Lanes α) (i j : Fin 4) (a : α) :
    (l.set i a).get j = if j = i then a else l.get j := by
  split
  · subst j; exact l.get_set_self i a
  · exact l.get_set_ne ‹_› a

@[simp] theorem Lanes.get_map {α β : Type} (f : α → β) (l : Lanes α) (i : Fin 4) : (l.map f).get i = f (l.get i) := by
  fin_cases i <;> rfl

/-- Four equal entries. -/
theorem Lanes.get_const {α : Type} (a : α) (i : Fin 4) : (Lanes.mk a a a a).get i = a := by fin_cases i <;> rfl

theorem Lanes.ext_get {α : Type} {l m : Lanes α} (h : ∀ i, l.get i = m.get i) : l = m := by
  cases l; cases m
  have h0 := h 0; have h1 := h 1; have h2 := h 2; have h3 := h 3
  simp only [Lanes.get] at h0 h1 h2 h3
  subst h0; subst h1; subst h2; subst h3; rfl

theorem Lanes.mem_toList {α : Type} (l : Lanes α) (a : α) : a ∈ l.toList ↔ ∃ i, l.get i = a := by
  constructor
  · intro h
    simp only [Lanes.toList, List.mem_cons, List.not_mem_nil, or_false] at h
    rcases h with rfl | rfl | rfl | rfl
    exacts [⟨0, rfl⟩, ⟨1, rfl⟩, ⟨2, rfl⟩, ⟨3, rfl⟩]
  · rintro ⟨i, rfl⟩; fin_cases i <;> simp [Lanes.toList, Lanes.get]

/-! ## setIllegal -/

@[simp] theorem State.setIllegal_voices (s : State) : s.setIllegal.voices = s.voices := rfl
@[simp] theorem State.setIllegal_slots (s : State) : s.setIllegal.slots = s.slots := rfl
@[simp] theorem State.setIllegal_cfg (s : State) : s.setIllegal.cfg = s.cfg := rfl
@[simp] theorem State.setIllegal_status (s : State) : s.setIllegal.status = s.status ||| 0x0001 := rfl
@[simp] theorem State.setIllegal_sampleOut (s : State) : s.setIllegal.sampleOut = s.sampleOut := rfl
@[simp] theorem State.setIllegal_cfgIn (s : State) : s.setIllegal.cfgIn = s.cfgIn := rfl
@[simp] theorem State.setIllegal_input (s : State) : s.setIllegal.input = s.input := rfl
@[simp] theorem State.setIllegal_emitted (s : State) : s.setIllegal.emitted = s.emitted := rfl

/-! ## startNote -/

@[simp] theorem State.startNote_voices (s : State) (i : Fin 4) (n v : Nat) :
    (s.startNote i n v).voices = s.voices.set i (voiceNoteOn (s.voices.get i) (noteToHz n) (velToGain v)) := rfl
@[simp] theorem State.startNote_slots (s : State) (i : Fin 4) (n v : Nat) :
    (s.startNote i n v).slots = s.slots.set i (Slot.assigned n v) := rfl
@[simp] theorem State.startNote_cfg (s : State) (i : Fin 4) (n v : Nat) : (s.startNote i n v).cfg = s.cfg := rfl
@[simp] theorem State.startNote_status (s : State) (i : Fin 4) (n v : Nat) : (s.startNote i n v).status = s.status := rfl
@[simp] theorem State.startNote_sampleOut (s : State) (i : Fin 4) (n v : Nat) :
    (s.startNote i n v).sampleOut = s.sampleOut := rfl
@[simp] theorem State.startNote_cfgIn (s : State) (i : Fin 4) (n v : Nat) : (s.startNote i n v).cfgIn = s.cfgIn := rfl
@[simp] theorem State.startNote_input (s : State) (i : Fin 4) (n v : Nat) : (s.startNote i n v).input = s.input := rfl
@[simp] theorem State.startNote_emitted (s : State) (i : Fin 4) (n v : Nat) :
    (s.startNote i n v).emitted = s.emitted := rfl

/-! ## releaseNote -/

@[simp] theorem State.releaseNote_voices (s : State) (i : Fin 4) :
    (s.releaseNote i).voices = s.voices.set i (voiceNoteOff (s.voices.get i)) := rfl
@[simp] theorem State.releaseNote_slots (s : State) (i : Fin 4) :
    (s.releaseNote i).slots = s.slots.set i Slot.cleared := rfl
@[simp] theorem State.releaseNote_cfg (s : State) (i : Fin 4) : (s.releaseNote i).cfg = s.cfg := rfl
@[simp] theorem State.releaseNote_status (s : State) (i : Fin 4) : (s.releaseNote i).status = s.status := rfl
@[simp] theorem State.releaseNote_sampleOut (s : State) (i : Fin 4) : (s.releaseNote i).sampleOut = s.sampleOut := rfl
@[simp] theorem State.releaseNote_cfgIn (s : State) (i : Fin 4) : (s.releaseNote i).cfgIn = s.cfgIn := rfl
@[simp] theorem State.releaseNote_input (s : State) (i : Fin 4) : (s.releaseNote i).input = s.input := rfl
@[simp] theorem State.releaseNote_emitted (s : State) (i : Fin 4) : (s.releaseNote i).emitted = s.emitted := rfl

/-! ## ticked -/

@[simp] theorem State.ticked_voices (s : State) : s.ticked.voices = s.voices.map fun v => (voiceTick s.cfg v).1 := rfl
@[simp] theorem State.ticked_slots (s : State) : s.ticked.slots = s.slots := rfl
@[simp] theorem State.ticked_cfg (s : State) : s.ticked.cfg = s.cfg := rfl
@[simp] theorem State.ticked_status (s : State) : s.ticked.status = s.status := rfl
@[simp] theorem State.ticked_sampleOut (s : State) : s.ticked.sampleOut = mix s.voiceSamples.toList := by
  simp only [State.ticked]
@[simp] theorem State.ticked_cfgIn (s : State) : s.ticked.cfgIn = s.cfgIn := rfl
@[simp] theorem State.ticked_input (s : State) : s.ticked.input = s.input := rfl
@[simp] theorem State.ticked_emitted (s : State) : s.ticked.emitted = s.emitted ++ [mix s.voiceSamples.toList] := by
  simp only [State.ticked]

/-! ## withWaveform -/

@[simp] theorem State.withWaveform_voices (s : State) (w : Waveform) :
    (s.withWaveform w).voices = s.voices.map fun v => { v with osc := oscSetWaveform v.osc w } := rfl
@[simp] theorem State.withWaveform_slots (s : State) (w : Waveform) : (s.withWaveform w).slots = s.slots := rfl
@[simp] theorem State.withWaveform_cfg (s : State) (w : Waveform) : (s.withWaveform w).cfg = s.cfg := rfl
@[simp] theorem State.withWaveform_status (s : State) (w : Waveform) : (s.withWaveform w).status = s.status := rfl
@[simp] theorem State.withWaveform_sampleOut (s : State) (w : Waveform) : (s.withWaveform w).sampleOut = s.sampleOut := rfl
@[simp] theorem State.withWaveform_cfgIn (s : State) (w : Waveform) : (s.withWaveform w).cfgIn = s.cfgIn := rfl
@[simp] theorem State.withWaveform_input (s : State) (w : Waveform) : (s.withWaveform w).input = s.input := rfl
@[simp] theorem State.withWaveform_emitted (s : State) (w : Waveform) : (s.withWaveform w).emitted = s.emitted := rfl

/-! ## afterReset -/

@[simp] theorem State.afterReset_voice (c : Cfg) (s : State) (i : Fin 4) :
    (s.afterReset c).voices.get i = Voice.afterReset c.waveformInit := Lanes.get_const _ i
@[simp] theorem State.afterReset_slot (c : Cfg) (s : State) (i : Fin 4) : (s.afterReset c).slots.get i = Slot.cleared :=
  Lanes.get_const _ i
@[simp] theorem State.afterReset_cfg (c : Cfg) (s : State) : (s.afterReset c).cfg = c := rfl
@[simp] theorem State.afterReset_status (c : Cfg) (s : State) : (s.afterReset c).status = 0x0000 := rfl
@[simp] theorem State.afterReset_sampleOut (c : Cfg) (s : State) : (s.afterReset c).sampleOut = F32.zero := rfl
@[simp] theorem State.afterReset_cfgIn (c : Cfg) (s : State) : (s.afterReset c).cfgIn = s.cfgIn := rfl
@[simp] theorem State.afterReset_input (c : Cfg) (s : State) : (s.afterReset c).input = s.input := rfl
@[simp] theorem State.afterReset_emitted (c : Cfg) (s : State) : (s.afterReset c).emitted = [] := rfl

/-! ## driveCfgIn -/

@[simp] theorem State.driveCfgIn_voices (c : BitVec 163) (s : State) : (s.driveCfgIn c).voices = s.voices := rfl
@[simp] theorem State.driveCfgIn_slots (c : BitVec 163) (s : State) : (s.driveCfgIn c).slots = s.slots := rfl
@[simp] theorem State.driveCfgIn_cfg (c : BitVec 163) (s : State) : (s.driveCfgIn c).cfg = s.cfg := rfl
@[simp] theorem State.driveCfgIn_status (c : BitVec 163) (s : State) : (s.driveCfgIn c).status = s.status := rfl
@[simp] theorem State.driveCfgIn_sampleOut (c : BitVec 163) (s : State) : (s.driveCfgIn c).sampleOut = s.sampleOut := rfl
@[simp] theorem State.driveCfgIn_cfgIn (c : BitVec 163) (s : State) : (s.driveCfgIn c).cfgIn = c := rfl
@[simp] theorem State.driveCfgIn_input (c : BitVec 163) (s : State) : (s.driveCfgIn c).input = s.input := rfl
@[simp] theorem State.driveCfgIn_emitted (c : BitVec 163) (s : State) : (s.driveCfgIn c).emitted = s.emitted := rfl

/-! ## present -/

@[simp] theorem State.present_input (s : State) (t : Transaction) : (s.present t).input = t :: s.input := rfl
@[simp] theorem State.present_voices (s : State) (t : Transaction) : (s.present t).voices = s.voices := rfl
@[simp] theorem State.present_slots (s : State) (t : Transaction) : (s.present t).slots = s.slots := rfl
@[simp] theorem State.present_cfg (s : State) (t : Transaction) : (s.present t).cfg = s.cfg := rfl
@[simp] theorem State.present_status (s : State) (t : Transaction) : (s.present t).status = s.status := rfl
@[simp] theorem State.present_sampleOut (s : State) (t : Transaction) : (s.present t).sampleOut = s.sampleOut := rfl
@[simp] theorem State.present_cfgIn (s : State) (t : Transaction) : (s.present t).cfgIn = s.cfgIn := rfl
@[simp] theorem State.present_emitted (s : State) (t : Transaction) : (s.present t).emitted = s.emitted := rfl

/-- RESET at State.reset, whose CFG_IN carries its configuration, gives State.reset again. -/
theorem afterReset_reset : State.reset.afterReset (Cfg.ofPort State.reset.cfgIn) = State.reset := by decide

end Sys2Proof.Machine
end

