-- ==== Sys2Proof/Laws/Transcend.lean ====
section
/-! SUPPORT. What SIN, EXP2 and NOTE_TO_HZ can answer, whatever the free functions are (93_implementation_defined.md I-SIN,
I-EXP2; 43_allocator_mixer.md R182). -/

namespace Sys2Proof

-- One theorem at a time: theorems that wait for a kernel evaluation would each hold a thread.
set_option Elab.async false

/-- SIN of a finite value is between −1.0 and 1.0. -/
theorem F32.sin_units {x : F32} (h : x.isFinite = true) :
    x.sin.isNaN = false ∧ -2 ^ 149 ≤ x.sin.units ∧ x.sin.units ≤ 2 ^ 149 := by
  unfold F32.sin sinWithin
  rw [h]
  simp only [Bool.not_true, Bool.false_eq_true, if_false]
  split
  · simp
  · split
    · rename_i ha
      simp only [sinAdmits, Bool.and_eq_true, F32.le_iff, F32.units_one, F32.units_negOne] at ha
      exact ⟨ha.1.2.1, ha.1.2.2, ha.2.2.2⟩
    · simp

/-- SIN(+0.0) = +0.0. -/
theorem F32.sin_zero_eq : F32.zero.sin = F32.zero := by
  unfold F32.sin sinWithin; simp

/-- The row of note `n`. -/
def exp2RowOf (n : Nat) : Exp2Row := exp2Rows.getD n ⟨0, 0, 0, 0⟩

/-- The row of note `n` has NOTE_TO_HZ's argument. -/
theorem exp2RowOf_arg : ∀ n < 128, (exp2RowOf n).arg = (Machine.noteExponent n).bits := by decide +kernel

/-- Every row is some note's. -/
theorem exp2RowOf_of_mem {row : Exp2Row} (h : row ∈ exp2Rows) : ∃ n < 128, row = exp2RowOf n := by
  obtain ⟨n, hn, rfl⟩ := List.mem_iff_getElem.1 h
  exact ⟨n, lt_of_lt_of_eq hn (by decide +kernel), by simp [exp2RowOf, hn]⟩

/-- The search finds the row of note `n` at NOTE_TO_HZ's argument. -/
theorem exp2Rows_find : ∀ n < 128,
    exp2Rows.find? (fun row => row.arg == (Machine.noteExponent n).bits) = some (exp2RowOf n) := by
  have h : ∀ n < 128, exp2Rows.find? (fun row => row.arg == (exp2RowOf n).arg) = some (exp2RowOf n) := by decide +kernel
  intro n hn
  rw [← exp2RowOf_arg n hn]
  exact h n hn

/-- Every row's nearest value is within its bounds, and the bounds are those of positive finite values. -/
theorem exp2Rows_ordered : ∀ n < 128,
    0 < (exp2RowOf n).least.toNat ∧ (exp2RowOf n).least ≤ (exp2RowOf n).nearest ∧
      (exp2RowOf n).nearest ≤ (exp2RowOf n).greatest ∧ (exp2RowOf n).greatest.toNat < F32.infMag := by
  decide +kernel

/-- At a note's argument the filter answers its row's value. -/
theorem exp2Within_note (raw : F32 → F32) {n : Nat} (h : n < 128) :
    exp2Within raw (Machine.noteExponent n) = (exp2RowOf n).value (raw (Machine.noteExponent n)) := by
  unfold exp2Within
  rw [exp2Rows_find n h]

/-- Elsewhere than at a note's argument the filter is the free function. -/
theorem exp2Within_other (raw : F32 → F32) {x : F32} (h : ∀ n < 128, x ≠ Machine.noteExponent n) :
    exp2Within raw x = raw x := by
  unfold exp2Within
  cases hf : exp2Rows.find? (fun row => row.arg == x.bits) with
  | none => rfl
  | some row =>
    obtain ⟨n, hn, rfl⟩ := exp2RowOf_of_mem (List.mem_of_find?_eq_some hf)
    have hx : (exp2RowOf n).arg = x.bits := by simpa using List.find?_some hf
    exact absurd (congrArg F32.mk (hx.symm.trans (exp2RowOf_arg n hn))) (h n hn)

/-- At a note's argument the filter answers within the row's bounds. -/
theorem exp2Within_between (raw : F32 → F32) {n : Nat} (h : n < 128) :
    (exp2RowOf n).least ≤ (exp2Within raw (Machine.noteExponent n)).bits ∧
      (exp2Within raw (Machine.noteExponent n)).bits ≤ (exp2RowOf n).greatest := by
  obtain ⟨-, h1, h2, -⟩ := exp2Rows_ordered n h
  rw [exp2Within_note raw h]
  unfold Exp2Row.value
  split
  · exact ⟨h1, h2⟩
  · split
    · assumption
    · exact ⟨h1, h2⟩

/-- EXP2 at a note's argument is within the row's bounds. -/
theorem exp2_between {n : Nat} (h : n < 128) :
    (exp2RowOf n).least ≤ (Machine.noteExponent n).exp2.bits ∧
      (Machine.noteExponent n).exp2.bits ≤ (exp2RowOf n).greatest := exp2Within_between _ h

/-- Bit patterns below infinity's: the sign is clear and the magnitude is the pattern. -/
theorem F32.mag_of_small {b : BitVec 32} (h : b.toNat < F32.infMag) :
    (F32.mk b).sign = false ∧ (F32.mk b).mag = b.toNat := by
  have hi : F32.infMag = 2139095040 := rfl
  constructor
  · unfold F32.sign; rw [BitVec.msb_eq_decide]; simp; omega
  · unfold F32.mag; dsimp only; omega

/-- Bit patterns of non-negative finite values are ordered as their values. -/
theorem F32.units_le_of_bits {a b : BitVec 32} (hb : b.toNat < F32.infMag) (h : a ≤ b) :
    (F32.mk a).units ≤ (F32.mk b).units := by
  have hab : a.toNat ≤ b.toNat := h
  obtain ⟨hs, hm⟩ := F32.mag_of_small hb
  obtain ⟨hs', hm'⟩ := F32.mag_of_small (b := a) (by omega)
  unfold F32.units
  rw [hs, hs', hm, hm']
  simp only [Bool.false_eq_true, if_false]
  exact_mod_cast F32.magUnits_mono hab

namespace Machine

/-- EXP2 at a note's argument: finite, and between the units of the row's bounds. -/
theorem exp2_units {n : Nat} (h : n < 128) :
    (noteExponent n).exp2.isFinite = true ∧
      (F32.mk (exp2RowOf n).least).units ≤ (noteExponent n).exp2.units ∧
      (noteExponent n).exp2.units ≤ (F32.mk (exp2RowOf n).greatest).units := by
  obtain ⟨h1, h2⟩ := exp2_between h
  have hg := (exp2Rows_ordered n h).2.2.2
  have hlt : (noteExponent n).exp2.bits.toNat < F32.infMag := lt_of_le_of_lt h2 hg
  refine ⟨?_, F32.units_le_of_bits hlt h1, F32.units_le_of_bits hg h2⟩
  rw [F32.isFinite_iff]
  have hm : (noteExponent n).exp2.mag = (noteExponent n).exp2.bits.toNat := (F32.mag_of_small hlt).2
  omega

/-- The rounded multiple of 440.0 is monotone. -/
theorem a4Hz_mul_mono {a b : F32} (ha : a.isFinite = true) (hb : b.isFinite = true) (h : a.units ≤ b.units) :
    (a4Hz.mul a).units ≤ (a4Hz.mul b).units := by
  have h4 : a4Hz.isFinite = true := by decide
  have hp : 0 ≤ a4Hz.units := F32.units_nonneg (by decide)
  rw [(F32.mul_finite h4 ha).2, (F32.mul_finite h4 hb).2]
  refine F32.roundUnits_mono (by positivity) (by positivity) ?_
  exact mul_le_mul_of_nonneg_right (mul_le_mul_of_nonneg_left h hp) (by positivity)

theorem exp2Row_finite {n : Nat} (h : n < 128) :
    (F32.mk (exp2RowOf n).least).isFinite = true ∧ (F32.mk (exp2RowOf n).greatest).isFinite = true := by
  obtain ⟨-, h1, h2, h3⟩ := exp2Rows_ordered n h
  have h1' : (exp2RowOf n).least.toNat ≤ (exp2RowOf n).nearest.toNat := h1
  have h2' : (exp2RowOf n).nearest.toNat ≤ (exp2RowOf n).greatest.toNat := h2
  rw [F32.isFinite_iff, F32.isFinite_iff, (F32.mag_of_small h3).2, (F32.mag_of_small (by omega)).2]
  omega

/-- NOTE_TO_HZ is not NaN and between its row's bounds, multiplied. -/
theorem noteToHz_between {n : Nat} (h : n < 128) :
    (noteToHz n).isNaN = false ∧ (a4Hz.mul ⟨(exp2RowOf n).least⟩).units ≤ (noteToHz n).units ∧
      (noteToHz n).units ≤ (a4Hz.mul ⟨(exp2RowOf n).greatest⟩).units := by
  obtain ⟨hf, h1, h2⟩ := exp2_units h
  obtain ⟨hl, hg⟩ := exp2Row_finite h
  exact ⟨(F32.mul_finite (by decide) hf).1, a4Hz_mul_mono hl hf h1, a4Hz_mul_mono hf hg h2⟩

/-- A note's greatest frequency is below the next note's least. -/
theorem noteRows_separated : ∀ n < 127,
    (a4Hz.mul ⟨(exp2RowOf n).greatest⟩).units < (a4Hz.mul ⟨(exp2RowOf (n + 1)).least⟩).units := by
  decide +kernel

theorem noteToHz_succ {n : Nat} (h : n < 127) : (noteToHz n).units < (noteToHz (n + 1)).units :=
  lt_of_le_of_lt (noteToHz_between (by omega)).2.2
    (lt_of_lt_of_le (noteRows_separated n h) (noteToHz_between (by omega)).2.1)

/-- NOTE_TO_HZ in units is strictly increasing on the notes. -/
theorem noteToHz_units_lt {m n : Nat} (hmn : m < n) (hn : n < 128) : (noteToHz m).units < (noteToHz n).units := by
  induction n with
  | zero => omega
  | succ k ih =>
    rcases Nat.lt_or_ge m k with h | h
    · exact (ih h (by omega)).trans (noteToHz_succ (by omega))
    · obtain rfl : m = k := by omega
      exact noteToHz_succ (by omega)

/-- NOTE_TO_HZ of a note is above 8.0 and below 16384.0. -/
theorem noteToHz_units_range {n : Nat} (h : n < 128) :
    2 ^ 152 < (noteToHz n).units ∧ (noteToHz n).units < 2 ^ 163 := by
  have h0 : (2 : Int) ^ 152 < (a4Hz.mul ⟨(exp2RowOf 0).least⟩).units := by decide +kernel
  have h127 : (a4Hz.mul ⟨(exp2RowOf 127).greatest⟩).units < (2 : Int) ^ 163 := by decide +kernel
  constructor
  · refine lt_of_lt_of_le (lt_of_lt_of_le h0 (noteToHz_between (by omega)).2.1) ?_
    rcases Nat.eq_zero_or_pos n with rfl | hp
    · exact le_rfl
    · exact (noteToHz_units_lt hp h).le
  · refine lt_of_le_of_lt ?_ (lt_of_le_of_lt (noteToHz_between (n := 127) (by omega)).2.2 h127)
    rcases Nat.lt_or_ge n 127 with hl | hg
    · exact (noteToHz_units_lt hl (by omega)).le
    · obtain rfl : n = 127 := by omega
      exact le_rfl

theorem isFinite_noteToHz {n : Nat} (h : n < 128) : (noteToHz n).isFinite = true := by
  rw [F32.isFinite_iff_units (noteToHz_between h).1]
  have := noteToHz_units_range h
  unfold F32.infUnits
  constructor
  · have : (0 : Int) < 2 ^ 152 := by positivity
    have : (0 : Int) < 2 ^ 277 := by positivity
    omega
  · have : (2 : Int) ^ 163 ≤ 2 ^ 277 := by gcongr <;> norm_num
    omega

/-- Gains of velocities: finite, and between 0.0 and 1.0. -/
theorem velToGain_range : ∀ v < 128,
    (velToGain v).isFinite = true ∧ 0 ≤ (velToGain v).units ∧ (velToGain v).units ≤ 2 ^ 149 := by
  decide +kernel

end Machine
end Sys2Proof
end

