-- ==== Sys2Proof/Laws/Oscillator.lean ====
section
/-! SUPPORT. What a legal configuration fixes, which harmonics the loop of 40_oscillator.md R108 visits, and that every raw
sample is bounded. -/

namespace Sys2Proof.Machine

/-! ## The configuration -/

/-- The legal configurations of 60_exceptions.md R214, in units. -/
theorem legal_units {c : Cfg} (h : c.legal = true) :
    (c.sampleRate.isNaN = false ∧ 2 ^ 149 ≤ c.sampleRate.units ∧ c.sampleRate.units ≤ 2 ^ 173) ∧
    (c.attackTime.isFinite = true ∧ 0 < c.attackTime.units) ∧
    (c.decayTime.isFinite = true ∧ 0 < c.decayTime.units) ∧
    (c.releaseTime.isFinite = true ∧ 0 < c.releaseTime.units) ∧
    (c.sustainLevel.isNaN = false ∧ 0 ≤ c.sustainLevel.units ∧ c.sustainLevel.units ≤ 2 ^ 149) := by
  have hm : maxSampleRate.units = 2 ^ 173 := by decide +kernel
  simp only [Cfg.legal, legalTime, Bool.and_eq_true, F32.le_iff, F32.lt_iff, F32.units_one, F32.units_zero, hm] at h
  tauto

theorem bounded_sampleRate {c : Cfg} (h : c.legal = true) : c.sampleRate.Bounded 173 := by
  obtain ⟨⟨h1, h2, h3⟩, -⟩ := legal_units h
  refine ⟨h1, ?_⟩
  rw [abs_of_nonneg ((show (0 : Int) ≤ 2 ^ 149 by positivity).trans h2)]; exact h3

theorem isFinite_sampleRate {c : Cfg} (h : c.legal = true) : c.sampleRate.isFinite = true :=
  (bounded_sampleRate h).isFinite (by norm_num)

theorem bounded_nyquist {c : Cfg} (h : c.legal = true) : (c.sampleRate.div F32.two).Bounded 172 := by
  refine (bounded_sampleRate h).div (j := 150) (by decide) ?_ (by norm_num) (by norm_num) (by norm_num)
  rw [F32.units_two, abs_of_nonneg (by positivity)]

/-! ## The harmonics -/

/-- The frequency of a harmonic of a positive frequency is not NaN and not negative. -/
theorem harmonicFreq_pos {f : F32} (hf : F32.zero.lt f = true) {k : Nat} (hk : 1 ≤ k) :
    (harmonicFreq k f).isNaN = false ∧ 0 ≤ (harmonicFreq k f).units := by
  rw [F32.lt_iff, F32.units_zero] at hf
  exact F32.mul_pos (F32.isNaN_ofNat k) hf.2.1 (lt_of_lt_of_le (by positivity) (F32.one_le_ofNat hk)) hf.2.2

/-- f32(k) × f grows with k. -/
theorem harmonicFreq_mono {f : F32} (hf : F32.zero.lt f = true) {k l : Nat} (hk : 1 ≤ k) (h : k ≤ l) :
    (harmonicFreq k f).units ≤ (harmonicFreq l f).units := by
  rw [F32.lt_iff, F32.units_zero] at hf
  exact F32.mul_mono_left (F32.isNaN_ofNat k) (F32.isNaN_ofNat l) hf.2.1
    (lt_of_lt_of_le (by positivity) (F32.one_le_ofNat hk)) hf.2.2 (F32.ofNat_mono h)

theorem aboveNyquist_iff {c : Cfg} {f : F32} (hc : c.legal = true) (hf : F32.zero.lt f = true) {k : Nat} (hk : 1 ≤ k) :
    aboveNyquist c f k = true ↔ (c.sampleRate.div F32.two).units < (harmonicFreq k f).units := by
  unfold aboveNyquist
  rw [F32.lt_iff]
  simp [(bounded_nyquist hc).notNaN, (harmonicFreq_pos hf hk).1]

/-- Once above the Nyquist frequency, above it for good. -/
theorem aboveNyquist_mono {c : Cfg} {f : F32} (hc : c.legal = true) (hf : F32.zero.lt f = true) {k l : Nat} (hk : 1 ≤ k)
    (h : k ≤ l) (ha : aboveNyquist c f k = true) : aboveNyquist c f l = true := by
  rw [aboveNyquist_iff hc hf hk] at ha
  rw [aboveNyquist_iff hc hf (hk.trans h)]
  exact ha.trans_le (harmonicFreq_mono hf hk h)

/-- f32(k) is infinite from 2^128 on, and so above every Nyquist frequency. -/
theorem aboveNyquist_far {c : Cfg} {f : F32} (hc : c.legal = true) (hf : F32.zero.lt f = true) {k : Nat} (h : 2 ^ 128 ≤ k) :
    aboveNyquist c f k = true := by
  have hk : 1 ≤ k := (Nat.one_le_two_pow).trans h
  rw [aboveNyquist_iff hc hf hk]
  have hp := hf
  rw [F32.lt_iff, F32.units_zero] at hp
  have hi : (harmonicFreq k f).units = F32.infUnits :=
    (F32.mul_posInf (F32.isNaN_ofNat k) hp.2.1 (lt_of_lt_of_le (by positivity) (F32.one_le_ofNat hk)) hp.2.2
      (.inl (F32.isInf_ofNat h))).2
  rw [hi]
  refine lt_of_le_of_lt (le_of_abs_le (bounded_nyquist hc).bound) ?_
  decide +kernel

theorem le_of_mem_harmonicsFrom {c : Cfg} {f : F32} {step fuel k j : Nat} (h : j ∈ harmonicsFrom c f step fuel k) : k ≤ j := by
  induction fuel generalizing k with
  | zero => simp [harmonicsFrom] at h
  | succ fuel ih =>
    rw [harmonicsFrom, List.mem_cons] at h
    rcases h with rfl | h
    · exact le_rfl
    · split at h
      · simp at h
      · exact (Nat.le_add_right _ _).trans (ih h)

/-- The indices come in increasing order. -/
theorem pairwise_harmonicsFrom {c : Cfg} {f : F32} {step : Nat} (hs : 0 < step) (fuel k : Nat) :
    (harmonicsFrom c f step fuel k).Pairwise (· < ·) := by
  induction fuel generalizing k with
  | zero => exact List.Pairwise.nil
  | succ fuel ih =>
    rw [harmonicsFrom, List.pairwise_cons]
    constructor
    · intro j hj
      split at hj
      · simp at hj
      · have := le_of_mem_harmonicsFrom hj; omega
    · split
      · exact List.Pairwise.nil
      · exact ih _

/-- With turns enough to reach 2^128, the loop visits its first index, and the later ones of its step that are not above
the Nyquist frequency. -/
theorem mem_harmonicsFrom {c : Cfg} {f : F32} {step : Nat} (hc : c.legal = true) (hf : F32.zero.lt f = true) (hs : 0 < step)
    {fuel k : Nat} (hk : 1 ≤ k) (h : 2 ^ 128 ≤ k + fuel) (j : Nat) :
    j ∈ harmonicsFrom c f step (fuel + 1) k ↔ j = k ∨ (k < j ∧ j % step = k % step ∧ aboveNyquist c f j = false) := by
  induction fuel generalizing k with
  | zero =>
    rw [harmonicsFrom, List.mem_cons]
    constructor
    · rintro (rfl | hj)
      · exact .inl rfl
      · split at hj <;> simp [harmonicsFrom] at hj
    · rintro (rfl | ⟨h1, -, h3⟩)
      · exact .inl rfl
      · rw [aboveNyquist_far hc hf (by omega)] at h3; cases h3
  | succ fuel ih =>
    rw [harmonicsFrom, List.mem_cons]
    have hmod : ∀ j, k < j → j % step = k % step → k + step ≤ j := by
      intro j hj he
      obtain ⟨m, hm⟩ := (Nat.modEq_iff_dvd' hj.le).1 he.symm
      have : 0 < m := by
        rcases Nat.eq_zero_or_pos m with rfl | h0
        · simp at hm; omega
        · exact h0
      have : step * 1 ≤ step * m := Nat.mul_le_mul_left _ this
      omega
    refine or_congr Iff.rfl ?_
    split
    · rename_i ha
      simp only [List.not_mem_nil, false_iff]
      rintro ⟨h1, h2, h3⟩
      rw [aboveNyquist_mono hc hf (by omega) (hmod j h1 h2) ha] at h3; cases h3
    · rename_i ha
      rw [ih (by omega) (by omega), Nat.add_mod_right]
      constructor
      · rintro (rfl | ⟨h1, h2, h3⟩)
        · exact ⟨by omega, by simp, by simpa using ha⟩
        · exact ⟨by omega, h2, h3⟩
      · rintro ⟨h1, h2, h3⟩
        rcases (hmod j h1 h2).lt_or_eq with h4 | rfl
        · exact .inr ⟨h4, h2, h3⟩
        · exact .inl rfl

/-- More turns than enough to reach 2^128 change nothing. -/
theorem harmonicsFrom_fuel {c : Cfg} {f : F32} {step : Nat} (hc : c.legal = true) (hf : F32.zero.lt f = true) (hs : 0 < step)
    {fuel k : Nat} (h : 2 ^ 128 ≤ k + fuel) (extra : Nat) :
    harmonicsFrom c f step (fuel + 1 + extra) k = harmonicsFrom c f step (fuel + 1) k := by
  induction fuel generalizing k with
  | zero =>
    rw [Nat.add_right_comm, harmonicsFrom, harmonicsFrom, aboveNyquist_far hc hf (by omega)]
    simp
  | succ fuel ih =>
    rw [show fuel + 1 + 1 + extra = (fuel + 1 + extra) + 1 by omega, harmonicsFrom, harmonicsFrom, ih (by omega)]

/-- `harmonicFuel` is one turn more than takes the loop to 2^128. -/
theorem harmonicFuel_succ : ∃ m, harmonicFuel = m + 1 ∧ 2 ^ 128 ≤ 1 + m :=
  ⟨2 ^ 128 - 1, by unfold harmonicFuel; omega, by omega⟩

/-- An included harmonic is the first, or a later one that is not above the Nyquist frequency. -/
theorem of_mem_harmonics {c : Cfg} {f : F32} {step : Nat} (hc : c.legal = true) (hf : F32.zero.lt f = true) (hs : 0 < step)
    {j : Nat} (h : j ∈ harmonics c f step) : j = 1 ∨ (1 < j ∧ aboveNyquist c f j = false) := by
  obtain ⟨m, h1, h2⟩ := harmonicFuel_succ
  unfold harmonics at h
  rw [h1, mem_harmonicsFrom hc hf hs le_rfl h2] at h
  exact h.imp_right fun h => ⟨h.1, h.2.2⟩

/-! ## Bounds of the samples -/

/-- SIN of a finite value is at most 1.0 in magnitude. -/
theorem bounded_sin {x : F32} (h : x.isFinite = true) : x.sin.Bounded 149 := by
  obtain ⟨h1, h2, h3⟩ := F32.sin_units h
  exact ⟨h1, abs_le.2 ⟨h2, h3⟩⟩

/-- A tone of a frequency and a phase in range is at most 1.0 in magnitude. -/
theorem bounded_tone {c : Cfg} (hc : c.legal = true) {h p : F32} (hh : h.Bounded 172) (hp : p.Bounded 173) :
    (tone c h p).Bounded 149 := by
  have ht : F32.twoPi.Bounded 152 := ⟨by decide, by decide +kernel⟩
  have h1 := ht.mul hh (k := 175) (by norm_num) (by norm_num) (by norm_num) (by norm_num)
  have h2 := h1.mul hp (k := 199) (by norm_num) (by norm_num) (by norm_num) (by norm_num)
  have hs := (legal_units hc).1
  have h3 := h2.div (j := 149) (k := 199) (isFinite_sampleRate hc) (hs.2.1.trans (le_abs_self _)) (by norm_num) (by norm_num)
    (by norm_num)
  exact bounded_sin (h3.isFinite (by norm_num))

/-- The frequency of an included harmonic is in range. -/
theorem bounded_harmonicFreq {c : Cfg} {f : F32} {step k : Nat} (hc : c.legal = true) (hf : F32.zero.lt f = true)
    (hb : f.Bounded 172) (hs : 0 < step) (hk : k ∈ harmonics c f step) : 1 ≤ k ∧ (harmonicFreq k f).Bounded 172 := by
  rcases of_mem_harmonics hc hf hs hk with rfl | ⟨h1, h3⟩
  · refine ⟨le_rfl, ?_⟩
    unfold harmonicFreq
    rw [F32.ofNat_one]
    obtain ⟨h1, h2⟩ := F32.units_one_mul (hb.isFinite (by norm_num))
    exact ⟨h1, h2 ▸ hb.bound⟩
  · refine ⟨h1.le, ?_⟩
    obtain ⟨hn, h0⟩ := harmonicFreq_pos hf h1.le
    refine ⟨hn, ?_⟩
    rw [abs_of_nonneg h0]
    have : ¬ aboveNyquist c f k = true := by simp [h3]
    rw [aboveNyquist_iff hc hf h1.le] at this
    exact (not_lt.1 this).trans (le_of_abs_le (bounded_nyquist hc).bound)

/-- A weight divisor is at least 1.0. -/
theorem one_le_harmonicWeight (g : Nat) {k : Nat} (hk : 1 ≤ k) :
    (harmonicWeight g k).isNaN = false ∧ 2 ^ 149 ≤ (harmonicWeight g k).units := by
  have h1 := F32.one_le_ofNat hk
  unfold harmonicWeight
  split
  · exact ⟨F32.isNaN_ofNat k, h1⟩
  · have hp : (0 : Int) < (F32.ofNat k).units := lt_of_lt_of_le (by positivity) h1
    by_cases hf : (F32.ofNat k).isFinite = true
    · obtain ⟨hn, hu⟩ := F32.mul_finite hf hf
      refine ⟨hn, ?_⟩
      rw [hu]
      refine F32.pow_le_roundUnits (by positivity) (by norm_num) ?_
      calc (2 : Int) ^ 149 * ((2 ^ 149 : Nat) : Int) = 2 ^ 149 * 2 ^ 149 := by norm_num
        _ ≤ _ := mul_le_mul h1 h1 (by positivity) hp.le
    · obtain ⟨hn, hu⟩ := F32.mul_posInf (F32.isNaN_ofNat k) (F32.isNaN_ofNat k) hp hp
        (.inl (F32.isInf_of_not_finite (F32.isNaN_ofNat k) hf))
      exact ⟨hn, hu ▸ by decide +kernel⟩

/-- A term of the harmonic sum is at most 1.0 in magnitude. -/
theorem bounded_term {c : Cfg} {f p : F32} {step k : Nat} (g : Nat) (hc : c.legal = true) (hf : F32.zero.lt f = true)
    (hb : f.Bounded 172) (hp : p.Bounded 173) (hs : 0 < step) (hk : k ∈ harmonics c f step) :
    ((tone c (harmonicFreq k f) p).div (harmonicWeight g k)).Bounded 149 := by
  obtain ⟨h1, h2⟩ := bounded_harmonicFreq hc hf hb hs hk
  have ht := bounded_tone hc h2 hp
  obtain ⟨hn, hw⟩ := one_le_harmonicWeight g h1
  by_cases hfin : (harmonicWeight g k).isFinite = true
  · exact ht.div hfin (hw.trans (le_abs_self _)) (by norm_num) (by norm_num) (by norm_num)
  · obtain ⟨h3, h4⟩ := F32.div_inf (ht.isFinite (by norm_num)) (F32.isInf_of_not_finite hn hfin)
    exact ⟨h3, by rw [h4]; positivity⟩

/-- Adding a term to a sum of at most 2^24 keeps it so: the first sum beyond rounds back. -/
theorem bounded_add_term {acc t : F32} (ha : acc.Bounded 173) (ht : t.Bounded 149) : (acc.add t).Bounded 173 := by
  obtain ⟨hn, hu⟩ := F32.add_finite (ha.isFinite (by norm_num)) (ht.isFinite (by norm_num))
  refine ⟨hn, ?_⟩
  have hr : F32.roundUnits (2 ^ 173 + 2 ^ 149) 1 = 2 ^ 173 := by decide +kernel
  rw [hu, F32.abs_roundUnits, ← hr]
  refine F32.roundUnits_mono (by norm_num) (by norm_num) (mul_le_mul_of_nonneg_right ?_ (by norm_num))
  exact (abs_add_le _ _).trans (add_le_add ha.bound ht.bound)

/-- A harmonic sum is at most 2^24 in magnitude. -/
theorem bounded_hsum {c : Cfg} {f p : F32} {step : Nat} (g : Nat) (hc : c.legal = true) (hf : F32.zero.lt f = true)
    (hb : f.Bounded 172) (hp : p.Bounded 173) (hs : 0 < step) : (hsum c f p step g).Bounded 173 := by
  unfold hsum
  have key : ∀ l : List Nat, (∀ k ∈ l, k ∈ harmonics c f step) → ∀ acc : F32, acc.Bounded 173 →
      (l.foldl (fun acc k => acc.add ((tone c (harmonicFreq k f) p).div (harmonicWeight g k))) acc).Bounded 173 := by
    intro l
    induction l with
    | nil => intro _ acc ha; exact ha
    | cons k l ih =>
      intro hl acc ha
      rw [List.foldl_cons]
      exact ih (fun k' hk' => hl k' (List.mem_cons_of_mem _ hk')) _
        (bounded_add_term ha (bounded_term g hc hf hb hp hs (hl k List.mem_cons_self)))
  exact key _ (fun _ h => h) _ ⟨F32.isNaN_zero, by rw [F32.units_zero]; positivity⟩

/-- A raw sample is at most 2^24 in magnitude. -/
theorem bounded_oscSample {c : Cfg} {f p : F32} (w : Waveform) (hc : c.legal = true) (hf : F32.zero.lt f = true)
    (hb : f.Bounded 172) (hp : p.Bounded 173) : (oscSample c w f p).Bounded 173 := by
  cases w
  · exact (bounded_tone hc hb hp).mono (by norm_num)
  · exact bounded_hsum 1 hc hf hb hp (by norm_num)
  · exact bounded_hsum 1 hc hf hb hp (by norm_num)
  · exact bounded_hsum 2 hc hf hb hp (by norm_num)

end Sys2Proof.Machine
end

