-- ==== Sys2Proof/Laws/Envelope.lean ====
section
/-! SUPPORT. The level steps of 41_envelope.md R131 are never NaN and never negative under a legal configuration, and a step
moves an amplitude in its own direction only. -/

namespace Sys2Proof.Machine

/-- A legal time times SAMPLE_RATE is not NaN and is positive; it can be infinite. -/
theorem time_mul_rate {c : Cfg} (hc : c.legal = true) {t : F32} (ht : t.isFinite = true) (hp : 0 < t.units) :
    (t.mul c.sampleRate).isNaN = false ∧ 0 < (t.mul c.sampleRate).units := by
  obtain ⟨hn, hu⟩ := F32.mul_finite ht (isFinite_sampleRate hc)
  refine ⟨hn, ?_⟩
  rw [hu]
  refine lt_of_lt_of_le hp (F32.roundUnits_ge (F32.isNaN_of_isFinite ht) (by positivity) ?_)
  exact mul_le_mul_of_nonneg_left (by exact_mod_cast (legal_units hc).1.2.1) hp.le

/-- A finite value that is not negative, over one that is positive, is not NaN and not negative; 0 stays 0. -/
theorem div_nonneg_step {a d : F32} (ha : a.isFinite = true) (h0 : 0 ≤ a.units) (hn : d.isNaN = false) (hd : 0 < d.units) :
    (a.div d).isNaN = false ∧ 0 ≤ (a.div d).units ∧ (a.units = 0 → (a.div d).units = 0) := by
  by_cases hf : d.isFinite = true
  · obtain ⟨h1, h2⟩ := F32.div_finite ha hf hd.ne'
    rw [Int.sign_eq_one_of_pos hd, mul_one] at h2
    refine ⟨h1, h2 ▸ F32.roundUnits_nonneg (by positivity), fun hz => ?_⟩
    rw [h2, hz, zero_mul, F32.roundUnits_zero]
  · obtain ⟨h1, h2⟩ := F32.div_inf ha (F32.isInf_of_not_finite hn hf)
    exact ⟨h1, h2.ge, fun _ => h2⟩

/-- The sign of such a quotient is the dividend's. -/
theorem sign_div_step {a d : F32} (ha : a.isFinite = true) (hn : d.isNaN = false) (hd : 0 < d.units) :
    (a.div d).sign = a.sign := by
  have hz : d.isZero = false := by
    have := (F32.units_eq_zero_iff d).not.1 hd.ne'; simp [F32.isZero, this]
  unfold F32.div
  simp only [F32.isNaN_of_isFinite ha, F32.isInf_of_isFinite ha, hn, hz, Bool.or_false, Bool.and_false, Bool.false_and,
    Bool.false_eq_true, if_false, F32.sign_of_units_pos hd, Bool.bne_false]
  split
  · exact F32.sign_ofSignMag _ (by norm_num)
  · exact F32.sign_round _ _ _

/-- ATTACK_INC (41_envelope.md R131). -/
theorem attackInc_nonneg {c : Cfg} (hc : c.legal = true) : (attackInc c).isNaN = false ∧ 0 ≤ (attackInc c).units := by
  obtain ⟨h1, h2⟩ := (legal_units hc).2.1
  obtain ⟨h3, h4⟩ := time_mul_rate hc h1 h2
  obtain ⟨h5, h6, -⟩ := div_nonneg_step F32.isFinite_one (by rw [F32.units_one]; positivity) h3 h4
  exact ⟨h5, h6⟩

theorem isFinite_sustainLevel {c : Cfg} (hc : c.legal = true) : c.sustainLevel.isFinite = true := by
  obtain ⟨h1, h2, h3⟩ := (legal_units hc).2.2.2.2
  have hb : c.sustainLevel.Bounded 149 := ⟨h1, by rwa [abs_of_nonneg h2]⟩
  exact hb.isFinite (by norm_num)

/-- 1.0 − SUSTAIN_LEVEL is finite and not negative. -/
theorem one_sub_sustain {c : Cfg} (hc : c.legal = true) :
    (F32.one.sub c.sustainLevel).isFinite = true ∧ 0 ≤ (F32.one.sub c.sustainLevel).units := by
  obtain ⟨-, h2, h3⟩ := (legal_units hc).2.2.2.2
  obtain ⟨h4, h5⟩ := F32.sub_finite F32.isFinite_one (isFinite_sustainLevel hc)
  rw [F32.units_one] at h5
  have h0 : 0 ≤ (F32.one.sub c.sustainLevel).units := h5 ▸ F32.roundUnits_nonneg (by linarith)
  have hb : (F32.one.sub c.sustainLevel).Bounded 149 := by
    refine ⟨h4, ?_⟩
    rw [abs_of_nonneg h0, h5]
    exact F32.roundUnits_le_pow (by norm_num) (by norm_num) (by push_cast; linarith)
  exact ⟨hb.isFinite (by norm_num), h0⟩

/-- DECAY_DEC (41_envelope.md R131). -/
theorem decayDec_nonneg {c : Cfg} (hc : c.legal = true) : (decayDec c).isNaN = false ∧ 0 ≤ (decayDec c).units := by
  obtain ⟨h1, h2⟩ := (legal_units hc).2.2.1
  obtain ⟨h3, h4⟩ := time_mul_rate hc h1 h2
  obtain ⟨h5, h6, -⟩ := div_nonneg_step (one_sub_sustain hc).1 (one_sub_sustain hc).2 h3 h4
  exact ⟨h5, h6⟩

/-- RELEASE_DEC (41_envelope.md R131). -/
theorem releaseDec_nonneg {c : Cfg} (hc : c.legal = true) : (releaseDec c).isNaN = false ∧ 0 ≤ (releaseDec c).units := by
  obtain ⟨h1, h2⟩ := (legal_units hc).2.2.2.1
  obtain ⟨h3, h4⟩ := time_mul_rate hc h1 h2
  obtain ⟨h5, h6, -⟩ := div_nonneg_step (isFinite_sustainLevel hc) (legal_units hc).2.2.2.2.2.1 h3 h4
  exact ⟨h5, h6⟩

/-- Adding a step that is not negative does not lower an amplitude. -/
theorem le_add_step {a d : F32} (ha : a.isFinite = true) (hn : d.isNaN = false) (hd : 0 ≤ d.units) :
    (a.add d).isNaN = false ∧ a.units ≤ (a.add d).units := by
  by_cases hf : d.isFinite = true
  · obtain ⟨h1, h2⟩ := F32.add_finite ha hf
    refine ⟨h1, ?_⟩
    rw [h2]
    exact F32.roundUnits_ge (F32.isNaN_of_isFinite ha) (by norm_num) (by push_cast; linarith)
  · have hi := F32.isInf_of_not_finite hn hf
    have hs : d.sign = false := by
      refine F32.sign_of_units_pos (lt_of_le_of_ne hd fun h0 => ?_)
      rw [F32.isInf_iff] at hi
      rw [eq_comm, F32.units_eq_zero_iff, hi] at h0
      exact absurd h0 (by decide)
    obtain ⟨h1, h2⟩ := F32.add_posInf ha hi hs
    exact ⟨h1, h2 ▸ F32.units_le_infUnits (F32.isNaN_of_isFinite ha)⟩

/-- Taking off a step that is not negative does not raise an amplitude. -/
theorem sub_step_le {a d : F32} (ha : a.isFinite = true) (hn : d.isNaN = false) (hd : 0 ≤ d.units) :
    (a.sub d).isNaN = false ∧ (a.sub d).units ≤ a.units := by
  by_cases hf : d.isFinite = true
  · obtain ⟨h1, h2⟩ := F32.sub_finite ha hf
    refine ⟨h1, ?_⟩
    rw [h2]
    exact F32.roundUnits_le (F32.isNaN_of_isFinite ha) (by norm_num) (by push_cast; linarith)
  · have hi := F32.isInf_of_not_finite hn hf
    have hs : d.sign = false := by
      refine F32.sign_of_units_pos (lt_of_le_of_ne hd fun h0 => ?_)
      rw [F32.isInf_iff] at hi
      rw [eq_comm, F32.units_eq_zero_iff, hi] at h0
      exact absurd h0 (by decide)
    obtain ⟨h1, h2⟩ := F32.sub_posInf ha hi hs
    refine ⟨h1, h2 ▸ ?_⟩
    have := F32.units_le_infUnits (x := a.neg) (by simpa using F32.isNaN_of_isFinite ha)
    rw [F32.units_neg] at this
    linarith

/-- Taking off a step of 0 units leaves the value. -/
theorem sub_zero_step {a d : F32} (ha : a.isFinite = true) (hf : d.isFinite = true) (hd : d.units = 0) :
    (a.sub d).isNaN = false ∧ (a.sub d).units = a.units := by
  obtain ⟨h1, h2⟩ := F32.sub_finite ha hf
  refine ⟨h1, ?_⟩
  rw [h2, hd, sub_zero]
  simpa using F32.roundUnits_units (F32.isNaN_of_isFinite ha) (d := 1) (by norm_num)

end Sys2Proof.Machine
end

