-- ==== Sys2Proof/Laws/Mixer.lean ====
section
/-! SUPPORT. A voice's output and the mix are finite whenever the sample, the amplitude and the gain are bounded. -/

namespace Sys2Proof.Machine

/-- A voice's output is at most 2^24 in magnitude when its sample is, and its amplitude and gain are at most 1.0. -/
theorem bounded_voiceOutput (c : Cfg) {g s a : F32} (hs : s.Bounded 173) (ha : a.Bounded 149) (hg : g.Bounded 149) :
    (voiceOutput c g s a).Bounded 173 := by
  have h1 : (s.mul a).Bounded 173 := hs.mul ha (by norm_num) (by norm_num) (by norm_num) (by norm_num)
  unfold voiceOutput
  split
  · exact h1.mul hg (by norm_num) (by norm_num) (by norm_num) (by norm_num)
  · exact h1

/-- The mix of four such outputs is finite. -/
theorem bounded_mix {l : Lanes F32} (h : ∀ i, (l.get i).Bounded 173) : (mix l.toList).Bounded 175 := by
  have h0 : F32.zero.Bounded 173 := ⟨F32.isNaN_zero, by rw [F32.units_zero]; positivity⟩
  have h1 := h0.add (h 0) (by norm_num)
  have h2 := h1.add ((h 1).mono (by norm_num)) (by norm_num)
  have h3 := h2.add ((h 2).mono (by norm_num)) (by norm_num)
  have h4 := h3.add ((h 3).mono (by norm_num)) (by norm_num)
  exact h4.div (j := 151) (by decide +kernel) (by decide +kernel) (by norm_num) (by norm_num) (by norm_num)

end Sys2Proof.Machine
end

