-- ==== Sys2Proof/Laws/Nearest.lean ====
section
/-! SUPPORT. Rounding answers the nearest value, on a tie the one with an even significand (00_scope.md R13). -/

namespace Sys2Proof

/-- A rounded quotient is the nearest integer, on a tie the even one. -/
theorem F32.roundQuot_nearest {n d : Nat} (hd : 0 < d) (q : Int) :
    |(F32.roundQuot n d : Int) * d - n| ≤ |q * d - n| ∧
      (|(F32.roundQuot n d : Int) * d - n| = |q * d - n| → q ≠ F32.roundQuot n d → F32.roundQuot n d % 2 = 0) := by
  have hdm : (d : Int) * (n / d : Nat) + (n % d : Nat) = n := by exact_mod_cast Nat.div_add_mod n d
  have hr : (n % d : Nat) < d := Nat.mod_lt _ hd
  have hq : q * d - n = (q - (n / d : Nat)) * d - (n % d : Nat) := by rw [← hdm]; ring
  have hu : F32.roundQuot n d = n / d ∧ 2 * (n % d) ≤ d ∧ (2 * (n % d) = d → (n / d) % 2 = 0) ∨
      F32.roundQuot n d = n / d + 1 ∧ d ≤ 2 * (n % d) ∧ (2 * (n % d) = d → (n / d) % 2 = 1) := by
    unfold F32.roundQuot
    dsimp only
    split
    · right; omega
    · left; omega
  generalize n / d = a at *
  generalize n % d = r at *
  rw [hq]
  set x : Int := q - (a : Int) with hx
  have hlo : x ≤ -1 → x * d ≤ -d := fun h => by nlinarith
  have hhi : 1 ≤ x → (d : Int) ≤ x * d := fun h => by nlinarith
  have hhi2 : 2 ≤ x → 2 * (d : Int) ≤ x * d := fun h => by nlinarith
  rcases hu with ⟨h1, h2, h3⟩ | ⟨h1, h2, h3⟩
  · have e : (F32.roundQuot n d : Int) * d - n = -(r : Int) := by rw [h1, ← hdm]; ring
    rw [e, h1, abs_neg, abs_of_nonneg (by omega : (0 : Int) ≤ r)]
    rcases lt_trichotomy x 0 with hneg | hz | hpos
    · have := hlo (by omega)
      rw [abs_of_neg (by omega)]
      constructor
      · omega
      · intro h; omega
    · have : x * d = 0 := by rw [hz, zero_mul]
      rw [this]
      constructor
      · rw [zero_sub, abs_neg, abs_of_nonneg (by omega)]
      · intro _ hne; omega
    · have := hhi (by omega)
      rw [abs_of_nonneg (by omega)]
      constructor
      · omega
      · intro h _; exact h3 (by omega)
  · have e : (F32.roundQuot n d : Int) * d - n = d - r := by rw [h1, ← hdm]; push_cast; ring
    rw [e, h1, abs_of_nonneg (by omega : (0 : Int) ≤ (d : Int) - r)]
    rcases lt_trichotomy x 1 with hneg | hone | hpos
    · have : x * d ≤ 0 := mul_nonpos_of_nonpos_of_nonneg (by omega) (by omega)
      rw [abs_of_nonpos (by omega)]
      constructor
      · omega
      · intro h _
        have := h3 (by omega)
        omega
    · have : x * d = d := by rw [hone, one_mul]
      rw [this, abs_of_nonneg (by omega)]
      constructor
      · exact le_rfl
      · intro _ hne; push_cast at hne; omega
    · have := hhi2 (by omega)
      rw [abs_of_nonneg (by omega)]
      constructor
      · omega
      · intro h; omega

/-- The rounding of a magnitude to a finite value is the nearest magnitude, on a tie the even one. -/
theorem F32.roundMag_nearest {n d : Nat} (hd : 0 < d) (hf : F32.roundMag n d < F32.infMag) (m : Nat) :
    |(F32.magUnits (F32.roundMag n d) : Int) * d - n| ≤ |(F32.magUnits m : Int) * d - n| ∧
      (|(F32.magUnits (F32.roundMag n d) : Int) * d - n| = |(F32.magUnits m : Int) * d - n| →
        F32.magUnits m ≠ F32.magUnits (F32.roundMag n d) → F32.roundMag n d % 2 = 0) := by
  obtain ⟨hb1, hb2⟩ := F32.roundQuot_bounds (n := n) hd
  have hmag : F32.roundMag n d = F32.roundScale n d * 2 ^ 23 + F32.roundQuot n (d * 2 ^ F32.roundScale n d) := by
    unfold F32.roundMag at hf ⊢
    dsimp only at hf ⊢
    omega
  have hscale : F32.roundScale n d = 0 ∨ 2 ^ (23 + F32.roundScale n d) * d ≤ n := by
    rcases Nat.eq_zero_or_pos (F32.roundScale n d) with h0 | h0
    · exact .inl h0
    · right
      have hne : n / d ≠ 0 := by intro h; unfold F32.roundScale at h0; rw [h] at h0; simp at h0
      have hs : Nat.log2 (n / d) = 23 + F32.roundScale n d := by unfold F32.roundScale at h0 ⊢; omega
      rw [← hs, ← Nat.le_div_iff_mul_le hd]; exact Nat.log2_self_le hne
  rw [hmag, F32.magUnits_scaled hb1 hb2]
  generalize F32.roundScale n d = e at *
  have hD : 0 < d * 2 ^ e := by positivity
  have hN := F32.roundQuot_nearest (n := n) hD
  generalize F32.roundQuot n (d * 2 ^ e) = q at *
  have hq : ((q * 2 ^ e : Nat) : Int) * d - n = (q : Int) * ((d * 2 ^ e : Nat) : Int) - n := by push_cast; ring
  rw [hq]
  have multiple : ∀ k : Nat, F32.magUnits m = k * 2 ^ e →
      |(q : Int) * ((d * 2 ^ e : Nat) : Int) - n| ≤ |(F32.magUnits m : Int) * d - n| ∧
      (|(q : Int) * ((d * 2 ^ e : Nat) : Int) - n| = |(F32.magUnits m : Int) * d - n| →
        F32.magUnits m ≠ q * 2 ^ e → (e * 2 ^ 23 + q) % 2 = 0) := by
    intro k hk
    have hk2 : (F32.magUnits m : Int) * d - n = (k : Int) * ((d * 2 ^ e : Nat) : Int) - n := by rw [hk]; push_cast; ring
    rw [hk2]
    refine ⟨(hN k).1, fun h hne => ?_⟩
    have : (k : Int) ≠ q := by
      intro h'
      have h'' : k = q := by exact_mod_cast h'
      exact hne (by rw [hk, h''])
    have := (hN k).2 h this
    omega
  obtain ⟨s, p, rfl, hp, hs⟩ := F32.mag_split m
  rw [F32.magUnits_scaled hp.le hs] at multiple ⊢
  rcases Nat.lt_or_ge s e with hlt | hge
  · have hne : e ≠ 0 := by omega
    have hle : 2 ^ (23 + e) * d ≤ n := hscale.resolve_left hne
    have hval : p * 2 ^ s < 2 ^ (23 + e) := by
      calc p * 2 ^ s < 2 ^ 24 * 2 ^ s := Nat.mul_lt_mul_of_pos_right hp (by positivity)
        _ = 2 ^ (23 + (s + 1)) := by rw [← Nat.pow_add]; congr 1; omega
        _ ≤ 2 ^ (23 + e) := Nat.pow_le_pow_right (by norm_num) (by omega)
    have hvd : p * 2 ^ s * d < 2 ^ (23 + e) * d := Nat.mul_lt_mul_of_pos_right hval hd
    have h1 := (hN ((2 ^ 23 : Nat) : Int)).1
    have h2 : (((2 ^ 23 : Nat) : Int)) * ((d * 2 ^ e : Nat) : Int) - n = ((2 ^ (23 + e) * d : Nat) : Int) - n := by
      rw [Nat.pow_add]; push_cast; ring
    rw [h2, abs_of_nonpos (a := ((2 ^ (23 + e) * d : Nat) : Int) - n) (by omega)] at h1
    have h3 : ((p * 2 ^ s : Nat) : Int) * d - n = ((p * 2 ^ s * d : Nat) : Int) - n := by push_cast; ring
    rw [h3, abs_of_nonpos (a := ((p * 2 ^ s * d : Nat) : Int) - n) (by omega)]
    constructor
    · omega
    · intro h; omega
  · refine multiple (p * 2 ^ (s - e)) ?_
    rw [Nat.mul_assoc, ← Nat.pow_add]; congr 2; omega

/-- The rounding of a signed quotient to a finite value is the nearest one, on a tie the even one. -/
theorem F32.roundUnits_nearest {v : Int} {d : Nat} (hd : 0 < d) (hf : F32.roundMag v.natAbs d < F32.infMag) (c : F32) :
    |F32.roundUnits v d * d - v| ≤ |c.units * d - v| ∧
      (|F32.roundUnits v d * d - v| = |c.units * d - v| → c.units ≠ F32.roundUnits v d →
        F32.roundMag v.natAbs d % 2 = 0) := by
  have key := fun m => F32.roundMag_nearest hd hf m
  have hzero := (key 0).1
  set R : Int := (F32.magUnits (F32.roundMag v.natAbs d) : Int) with hR
  have habs : (v.natAbs : Int) = |v| := Int.natCast_natAbs v
  have hmc := F32.natAbs_units c
  have hd' : (0 : Int) < d := by exact_mod_cast hd
  have hRnn : 0 ≤ R := by positivity
  have hnear := key c.mag
  rw [← hmc, habs, Int.natCast_natAbs] at hnear
  rw [habs] at hzero
  simp only [F32.magUnits_zero, Nat.cast_zero, zero_mul, zero_sub, abs_neg, abs_abs] at hzero
  -- the same in the sign of v
  have step : ∀ w u : Int, 0 ≤ w → |v| = w → (|R * d - w| ≤ |u * d - w|) ∧
      (|R * d - w| = |u * d - w| → u ≠ R → F32.roundMag v.natAbs d % 2 = 0) ∨ |u| ≠ |c.units| := by
    intro w u hw hvw
    by_cases hu : |u| = |c.units|
    · left
      rw [hvw, ← hu] at hnear
      rcases le_or_gt 0 u with h0 | h0
      · rw [abs_of_nonneg h0] at hnear
        refine ⟨hnear.1, fun h hne => hnear.2 h ?_⟩
        intro h'
        apply hne
        have : ((c.units.natAbs : Nat) : Int) = R := by rw [hR]; exact_mod_cast h'
        rw [Int.natCast_natAbs, ← hu, abs_of_nonneg h0] at this
        exact this
      · rw [hvw] at hzero
        have h1 : u * d < 0 := mul_neg_of_neg_of_pos h0 hd'
        have h2 : |u * d - w| = w - u * d := by rw [abs_of_nonpos (by omega)]; ring
        rw [h2]
        constructor
        · omega
        · intro h; omega
    · exact .inr hu
  unfold F32.roundUnits
  rw [← hR]
  rcases lt_or_ge v 0 with hv | hv
  · rw [if_pos hv]
    have := step (-v) (-c.units) (by omega) (abs_of_neg hv)
    rcases this with h | h
    · have e1 : |-R * d - v| = |R * d - -v| := by rw [← abs_neg]; congr 1; ring
      have e2 : |c.units * d - v| = |(-c.units) * d - -v| := by rw [← abs_neg]; congr 1; ring
      rw [e1, e2]
      exact ⟨h.1, fun h1 h2 => h.2 h1 (by intro h3; apply h2; omega)⟩
    · exact absurd (abs_neg _) h
  · rw [if_neg (by omega)]
    rcases step v c.units hv (abs_of_nonneg hv) with h | h
    · exact h
    · exact absurd rfl h

/-- Rounding gives infinity exactly from (2^25 − 1) · 2^252 units on, the midpoint between the greatest finite value and the
one that would follow it. -/
theorem F32.roundMag_eq_infMag {n d : Nat} (hd : 0 < d) :
    F32.roundMag n d = F32.infMag ↔ (2 ^ 25 - 1) * 2 ^ 252 * d ≤ n := by
  constructor
  · intro h
    by_contra hlt
    have hlt : n < (2 ^ 25 - 1) * 2 ^ 252 * d := not_le.1 hlt
    rcases Nat.lt_or_ge n (2 ^ 276 * d) with h1 | h1
    · have hm : F32.magUnits 2130706432 = 2 ^ 276 := by decide +kernel
      have := F32.roundMag_le (m := 2130706432) hd (by decide) (hm ▸ h1.le)
      rw [h] at this
      exact absurd this (by decide)
    · have hq : 2 ^ 276 ≤ n / d := (Nat.le_div_iff_mul_le hd).2 h1
      have hq2 : n / d < 2 ^ 277 := (Nat.div_lt_iff_lt_mul hd).2 (hlt.trans_le (Nat.mul_le_mul_right _ (by decide)))
      have hlog : Nat.log2 (n / d) = 276 := by
        have h0 : n / d ≠ 0 := (lt_of_lt_of_le (by positivity) hq).ne'
        have h2 := (Nat.log2_lt h0 (k := 277)).2 hq2
        have h3 := (Nat.le_log2 h0 (k := 276)).2 hq
        omega
      have hs : F32.roundScale n d = 253 := by unfold F32.roundScale; rw [hlog]
      have hr : F32.roundQuot n (d * 2 ^ 253) ≤ 2 ^ 24 - 1 := by
        have hb : 2 * n < (2 ^ 25 - 1) * (d * 2 ^ 253) := by
          have e1 : (2 ^ 25 - 1) * (d * 2 ^ 253) = 2 * ((2 ^ 25 - 1) * 2 ^ 252 * d) := by
            rw [Nat.mul_comm d, ← Nat.mul_assoc, ← Nat.mul_assoc]
            congr 1
          omega
        generalize hD : d * 2 ^ 253 = D at hb ⊢
        have hD0 : 0 < D := hD ▸ by positivity
        have hdm := Nat.div_add_mod n D
        have hml := Nat.mod_lt n hD0
        unfold F32.roundQuot
        dsimp only
        have hle : n / D ≤ 2 ^ 24 - 1 := by
          have : n / D < 2 ^ 24 := (Nat.div_lt_iff_lt_mul hD0).2 (by omega)
          omega
        rcases hle.lt_or_eq with hl | he
        · split <;> omega
        · rw [he] at hdm ⊢
          rw [if_neg (by omega)]
      have : F32.roundMag n d ≤ 253 * 2 ^ 23 + (2 ^ 24 - 1) := by
        unfold F32.roundMag
        dsimp only
        rw [hs]
        exact (min_le_left _ _).trans (Nat.add_le_add_left hr _)
      rw [h] at this
      exact absurd this (by decide)
  · intro h
    refine le_antisymm (F32.roundMag_le_infMag n d) ?_
    have hm : F32.roundMag ((2 ^ 25 - 1) * 2 ^ 252) 1 = F32.infMag := by decide +kernel
    rw [← hm]
    exact F32.roundMag_mono (by norm_num) hd (by omega)

/-- What a rounded quotient can be: never NaN, of the sign given, infinite exactly where rounding overflows. -/
theorem F32.round_overflow (neg : Bool) {n d : Nat} (hd : 0 < d) :
    (F32.round neg n d).isNaN = false ∧ (F32.round neg n d).sign = neg ∧
      ((F32.round neg n d).isInf = true ↔ (2 ^ 25 - 1) * 2 ^ 252 * d ≤ n) :=
  ⟨F32.isNaN_round _ _ _, F32.sign_round _ _ _, by rw [F32.isInf_iff, F32.mag_round, F32.roundMag_eq_infMag hd]⟩

end Sys2Proof
end

