-- ==== Sys2Proof/Laws/PerInstr.lean ====
section
/-! SUPPORT. What holds of every command as syntax: its word lies in its row of spec/opcode_table.json. -/

namespace Sys2Proof.Laws

/-- The mask and the match of a command's row (30_encoding.md R80). -/
def EncodesRow.row : Instr → CmdWord × CmdWord
  | .noteOff _ _ => (0xC000, 0x0000)
  | .noteOn _ _ => (0xC000, 0x4000)
  | .tick => (0xFFFF, 0x8000)
  | .setWaveform _ => (0xFFFC, 0x8100)

/-- The command's word has its row's match under its row's mask. -/
def EncodesRow.Statement (i : Instr) : Prop := encode i &&& (EncodesRow.row i).1 = (EncodesRow.row i).2

/-- The operation code of a format N word is its top two bits. -/
theorem EncodesRow.note_op (op : BitVec 2) (n v : BitVec 7) : (op ++ n ++ v) &&& 0xC000#16 = op ++ (0#14) := by
  ext i hi
  simp only [BitVec.getElem_and, BitVec.getElem_append]
  interval_cases i <;> simp

theorem EncodesRow.noteOff (note vel : Nat) : EncodesRow.Statement (.noteOff note vel) :=
  EncodesRow.note_op 0b00 _ _

theorem EncodesRow.noteOn (note vel : Nat) : EncodesRow.Statement (.noteOn note vel) :=
  EncodesRow.note_op 0b01 _ _

theorem EncodesRow.tick : EncodesRow.Statement .tick := rfl

theorem EncodesRow.setWaveform (wave : Waveform) : EncodesRow.Statement (.setWaveform wave) := by
  cases wave <;> rfl

end Sys2Proof.Laws
end

