-- ==== Sys2Proof/Laws/PowerOfTwo.lean ====
section
/-! SUPPORT. EXP2's table is property 4 of 93_implementation_defined.md I-EXP2, no narrower and no wider: at each of the 128
arguments x that is no integer, the bit patterns from a row's least to its greatest are those of the binary32 values r with
|r − 2^x| ≤ 2^-10 · 2^x. The 12th powers of r and of 2^x are compared, and what x lacks of (n − 69)/12 by rounding is bounded
by nine digits of log 2. -/

namespace Sys2Proof.Machine

-- One theorem at a time: theorems that wait for a kernel evaluation would each hold a thread.
set_option Elab.async false

open Real

/-- 12·x − (n − 69) for the argument x of note n, in units of 2^-149. -/
def exponentExcess (n : Nat) : Int := 12 * (noteExponent n).units - ((n : Int) - 69) * 2 ^ 149

/-- log 2 · 10^10 is between 6931471803 and 6931471808; the excess times one or the other, in units of 2^-149 · 10^-10. -/
def excessLow (n : Nat) : Int := exponentExcess n * if 0 ≤ exponentExcess n then 6931471803 else 6931471808

def excessHigh (n : Nat) : Int := exponentExcess n * if 0 ≤ exponentExcess n then 6931471808 else 6931471803

/-- 1.0, in units of 2^-149 · 10^-10. -/
def excessOne : Int := 2 ^ 149 * 10 ^ 10

/-- `u` units to the 12th power, and (`f` / 2^10 · 2^((n − 69)/12)) to the 12th power, in one common scale. -/
def powerOf (u : Int) : Int := u ^ 12 * 2 ^ 189

def factorPower (n f : Nat) : Int := (f : Int) ^ 12 * 2 ^ n * 2 ^ 1788

/-- The 12th power of 2^x is that of 2^((n − 69)/12) times the exponential of the excess. -/
theorem rpow_twelve (n : Nat) :
    ((2 : ℝ) ^ (((noteExponent n).units : ℝ) / 2 ^ 149)) ^ 12 * 2 ^ 69 =
      2 ^ n * exp ((exponentExcess n : ℝ) / 2 ^ 149 * log 2) := by
  have h2 : (0 : ℝ) < 2 := by norm_num
  rw [← rpow_natCast (_ ^ _) 12, ← rpow_mul h2.le, ← rpow_natCast 2 69, ← rpow_natCast 2 n, ← rpow_add h2,
    mul_comm (_ / _) (log 2), ← rpow_def_of_pos h2, ← rpow_add h2]
  congr 1
  unfold exponentExcess
  push_cast
  field_simp
  ring

/-- The exponential of the excess, bounded from both sides. -/
theorem exp_excess (n : Nat) (h : excessHigh n < excessOne) :
    (excessOne + excessLow n : ℝ) ≤ exp ((exponentExcess n : ℝ) / 2 ^ 149 * log 2) * excessOne ∧
      exp ((exponentExcess n : ℝ) / 2 ^ 149 * log 2) * (excessOne - excessHigh n) ≤ excessOne := by
  have hl := log_two_gt_d9
  have hh := log_two_lt_d9
  have ho : (excessOne : ℝ) = 2 ^ 149 * 10 ^ 10 := by unfold excessOne; push_cast; ring
  have hp : (0 : ℝ) < excessOne := by rw [ho]; positivity
  have key : ∀ e : ℝ, ∀ c : ℝ, e / 2 ^ 149 * (c / 10 ^ 10) * excessOne = e * c := by
    intro e c; rw [ho]; field_simp
  have hbounds : (excessLow n : ℝ) ≤ (exponentExcess n : ℝ) / 2 ^ 149 * log 2 * excessOne ∧
      (exponentExcess n : ℝ) / 2 ^ 149 * log 2 * excessOne ≤ (excessHigh n : ℝ) := by
    unfold excessLow excessHigh
    split
    · rename_i hs
      have : (0 : ℝ) ≤ (exponentExcess n : ℝ) / 2 ^ 149 := div_nonneg (by exact_mod_cast hs) (by positivity)
      push_cast
      rw [← key _ 6931471803, ← key _ 6931471808]
      constructor <;> gcongr <;> linarith
    · rename_i hs
      have : (exponentExcess n : ℝ) / 2 ^ 149 ≤ 0 :=
        div_nonpos_of_nonpos_of_nonneg (by exact_mod_cast (not_le.1 hs).le) (by positivity)
      push_cast
      rw [← key _ 6931471803, ← key _ 6931471808]
      constructor <;> refine mul_le_mul_of_nonneg_right (mul_le_mul_of_nonpos_left ?_ this) hp.le <;> linarith
  obtain ⟨hlow, hhigh⟩ := hbounds
  have hlt : (excessHigh n : ℝ) < excessOne := by exact_mod_cast h
  generalize (exponentExcess n : ℝ) / 2 ^ 149 * log 2 = y at *
  constructor
  · nlinarith [add_one_le_exp y]
  · have h1 := add_one_le_exp (-y)
    have h2 : exp y * exp (-y) = 1 := by rw [← exp_add]; simp
    have h3 := exp_pos y
    have h4 : (excessOne : ℝ) - excessHigh n ≤ exp (-y) * excessOne := by nlinarith
    calc exp y * (excessOne - excessHigh n) ≤ exp y * (exp (-y) * excessOne) := by gcongr
      _ = excessOne := by rw [← mul_assoc, h2, one_mul]

/-- The bounds of 2^x to the 12th power in the common scale. -/
theorem factor_rpow (n f : Nat) :
    ((f : ℝ) / 2 ^ 10 * 2 ^ (((noteExponent n).units : ℝ) / 2 ^ 149)) ^ 12 * (2 ^ 189 * 2 ^ 1788) =
      factorPower n f * exp ((exponentExcess n : ℝ) / 2 ^ 149 * log 2) := by
  have := rpow_twelve n
  rw [mul_pow, div_pow]
  unfold factorPower
  push_cast
  calc (f : ℝ) ^ 12 / (2 ^ 10) ^ 12 * (2 ^ (((noteExponent n).units : ℝ) / 2 ^ 149)) ^ 12 * (2 ^ 189 * 2 ^ 1788)
      = (f : ℝ) ^ 12 * 2 ^ 1788 * ((2 ^ (((noteExponent n).units : ℝ) / 2 ^ 149)) ^ 12 * 2 ^ 69) := by ring
    _ = _ := by rw [this]; ring

theorem power_units (u : Int) : ((u : ℝ) / 2 ^ 149) ^ 12 * (2 ^ 189 * 2 ^ 1788) = powerOf u := by
  unfold powerOf
  rw [div_pow]
  push_cast
  field_simp
  ring

theorem factorPower_nonneg (n f : Nat) : 0 ≤ factorPower n f :=
  mul_nonneg (mul_nonneg (pow_nonneg (Int.natCast_nonneg f) _) (pow_nonneg (by norm_num) _)) (pow_nonneg (by norm_num) _)

theorem excessOne_pos : 0 < excessOne := by decide +kernel

/-- The common scale of `powerOf` and `factorPower`. -/
theorem scale_pos : (0 : ℝ) < 2 ^ 189 * 2 ^ 1788 := by positivity

/-- Where 2^x times `f` / 2^10 is at most `u` units, by the bound of 2^x from above, and where it is more, by that from
below. -/
theorem factor_le_of (n f : Nat) {u : Int} (hu : 0 ≤ u) (h : excessHigh n < excessOne)
    (hc : factorPower n f * excessOne ≤ powerOf u * (excessOne - excessHigh n)) :
    (f : ℝ) / 2 ^ 10 * 2 ^ (((noteExponent n).units : ℝ) / 2 ^ 149) ≤ (u : ℝ) / 2 ^ 149 := by
  obtain ⟨-, hx⟩ := exp_excess n h
  have hd : (0 : ℝ) < excessOne - excessHigh n := sub_pos.2 (by exact_mod_cast h)
  have hu' : (0 : ℝ) ≤ u := by exact_mod_cast hu
  have hf : (0 : ℝ) ≤ factorPower n f := by exact_mod_cast factorPower_nonneg n f
  have hc' : (factorPower n f : ℝ) * excessOne ≤ powerOf u * (excessOne - excessHigh n) := by exact_mod_cast hc
  refine le_of_pow_le_pow_left₀ (n := 12) (by norm_num) (by positivity) (le_of_mul_le_mul_right ?_ scale_pos)
  rw [factor_rpow, power_units]
  refine le_of_mul_le_mul_right (le_trans ?_ hc') hd
  rw [mul_assoc]
  exact mul_le_mul_of_nonneg_left hx hf

theorem le_factor_of (n f : Nat) {u : Int} (h : excessHigh n < excessOne)
    (hc : powerOf u * excessOne ≤ factorPower n f * (excessOne + excessLow n)) :
    (u : ℝ) / 2 ^ 149 ≤ (f : ℝ) / 2 ^ 10 * 2 ^ (((noteExponent n).units : ℝ) / 2 ^ 149) := by
  obtain ⟨hx, -⟩ := exp_excess n h
  have hp : (0 : ℝ) < excessOne := by exact_mod_cast excessOne_pos
  have hf : (0 : ℝ) ≤ factorPower n f := by exact_mod_cast factorPower_nonneg n f
  have hc' : (powerOf u : ℝ) * excessOne ≤ factorPower n f * (excessOne + excessLow n) := by exact_mod_cast hc
  refine le_of_pow_le_pow_left₀ (n := 12) (by norm_num)
    (mul_nonneg (div_nonneg (Nat.cast_nonneg f) (by norm_num)) (rpow_nonneg (by norm_num) _)) (le_of_mul_le_mul_right ?_ scale_pos)
  rw [factor_rpow, power_units]
  refine le_of_mul_le_mul_right (hc'.trans ?_) hp
  rw [mul_assoc]
  exact mul_le_mul_of_nonneg_left hx hf

/-- Row n's bounds keep property 4 and the bit patterns next to them break it, by the comparisons above. -/
def exp2RowTight (n : Nat) : Bool :=
  let r := exp2RowOf n
  decide (excessHigh n < excessOne) &&
    decide (factorPower n 1023 * excessOne ≤ powerOf (F32.mk r.least).units * (excessOne - excessHigh n)) &&
    decide (powerOf ((F32.mk (r.least - 1)).units + 1) * excessOne ≤ factorPower n 1023 * (excessOne + excessLow n)) &&
    decide (powerOf (F32.mk r.greatest).units * excessOne ≤ factorPower n 1025 * (excessOne + excessLow n)) &&
    decide (factorPower n 1025 * excessOne ≤ powerOf ((F32.mk (r.greatest + 1)).units - 1) * (excessOne - excessHigh n)) &&
    decide (1 ≤ (F32.mk (r.greatest + 1)).units) && decide (1 < r.least.toNat) &&
    decide (r.greatest.toNat + 1 < F32.infMag)

theorem exp2Rows_tight : ∀ n < 128, (exp2RowOf n).least ≠ (exp2RowOf n).greatest → exp2RowTight n = true := by
  decide +kernel

/-- A row with one value is that of an integer argument j = k − 5, and its value is 2^j (property 2). -/
theorem exp2Rows_integer : ∀ n < 128, (exp2RowOf n).least = (exp2RowOf n).greatest →
    ∃ k < 10, n = 9 + 12 * k ∧ noteExponent n = F32.ofInt ((k : Int) - 5) ∧
      (noteExponent n).units = ((k : Int) - 5) * 2 ^ 149 ∧ (F32.mk (exp2RowOf n).nearest).units = 2 ^ (144 + k) := by
  decide +kernel

theorem exp2Row_le (n : Nat) (hn : n < 128) : (exp2RowOf n).least ≤ (exp2RowOf n).greatest :=
  Nat.le_trans (exp2Rows_ordered n hn).2.1 (exp2Rows_ordered n hn).2.2.1

/-- Outside the integer arguments, a positive finite value meets property 4 exactly where its bits are within the row's
bounds. -/
theorem exp2Row_near_iff {n : Nat} (hn : n < 128) (hr : (exp2RowOf n).least ≠ (exp2RowOf n).greatest) {r : F32}
    (hf : r.isFinite = true) (hs : r.sign = false) :
    (exp2RowOf n).least ≤ r.bits ∧ r.bits ≤ (exp2RowOf n).greatest ↔
      |(r.units : ℝ) / 2 ^ 149 - (2 : ℝ) ^ (((noteExponent n).units : ℝ) / 2 ^ 149)| ≤
        (2 : ℝ) ^ (((noteExponent n).units : ℝ) / 2 ^ 149) / 2 ^ 10 := by
  have ht := exp2Rows_tight n hn hr
  have hg := (exp2Rows_ordered n hn).2.2.2
  unfold exp2RowTight at ht
  simp only [Bool.and_eq_true, decide_eq_true_eq] at ht
  obtain ⟨⟨⟨⟨⟨⟨⟨h0, h1⟩, h2⟩, h3⟩, h4⟩, h5⟩, h6⟩, h7⟩ := ht
  have hrb : r.bits.toNat < F32.infMag := by
    rw [F32.isFinite_iff] at hf
    have hm := hs
    unfold F32.sign at hm
    rw [BitVec.msb_eq_false_iff_two_mul_lt] at hm
    have : r.mag = r.bits.toNat := by unfold F32.mag; omega
    omega
  have hi : F32.infMag = 2139095040 := rfl
  have hle : (exp2RowOf n).least.toNat ≤ (exp2RowOf n).greatest.toNat := exp2Row_le n hn
  have hprev : ((exp2RowOf n).least - 1).toNat = (exp2RowOf n).least.toNat - 1 := by
    rw [BitVec.toNat_sub_of_le (by rw [BitVec.le_def]; simp; omega)]; rfl
  have hnext : ((exp2RowOf n).greatest + 1).toNat = (exp2RowOf n).greatest.toNat + 1 := by
    rw [BitVec.toNat_add]; simp; omega
  have hpos := F32.units_nonneg (F32.mag_of_small (lt_of_le_of_lt hle hg)).1
  have c1 := factor_le_of n 1023 hpos h0 h1
  have c2 := le_factor_of n 1023 h0 h2
  have c3 := le_factor_of n 1025 h0 h3
  have c4 := factor_le_of n 1025 (by omega) h0 h4
  have order : ∀ {a b : BitVec 32}, b.toNat < F32.infMag → a ≤ b → ((F32.mk a).units : ℝ) ≤ (F32.mk b).units :=
    fun hb h => by exact_mod_cast F32.units_le_of_bits hb h
  clear h1 h2 h3 h4 h5
  generalize (exp2RowOf n).least - 1 = prev at *
  generalize (exp2RowOf n).greatest + 1 = next at *
  generalize (2 : ℝ) ^ (((noteExponent n).units : ℝ) / 2 ^ 149) = T at *
  push_cast at c1 c2 c3 c4
  rw [abs_le]
  constructor
  · rintro ⟨hl, hu⟩
    have u1 := order hrb hl
    have u2 := order hg hu
    constructor <;> linarith
  · rintro ⟨hl, hu⟩
    constructor
    · by_contra hc
      have hlt : r.bits.toNat < (exp2RowOf n).least.toNat := BitVec.lt_def.1 (BitVec.not_le.1 hc)
      have u1 := order (a := r.bits) (b := prev) (by omega) (by rw [BitVec.le_def]; omega)
      linarith
    · by_contra hc
      have hlt : (exp2RowOf n).greatest.toNat < r.bits.toNat := BitVec.lt_def.1 (BitVec.not_le.1 hc)
      have u1 := order (a := next) (b := r.bits) hrb (by rw [BitVec.le_def]; omega)
      linarith

/-- At an integer argument j = k − 5 the filter answers 2^j, whatever the free function is. -/
theorem exp2Within_integer (raw : F32 → F32) {n : Nat} (hn : n < 128)
    (hr : (exp2RowOf n).least = (exp2RowOf n).greatest) :
    exp2Within raw (noteExponent n) = ⟨(exp2RowOf n).nearest⟩ := by
  rw [exp2Within_note raw hn, Exp2Row.value, if_pos hr]

/-- Property 4 holds of the filter's answer at every note's argument, whatever the free function is. -/
theorem near_exp2Within (raw : F32 → F32) {n : Nat} (hn : n < 128) :
    |((exp2Within raw (noteExponent n)).units : ℝ) / 2 ^ 149 - (2 : ℝ) ^ (((noteExponent n).units : ℝ) / 2 ^ 149)| ≤
      (2 : ℝ) ^ (((noteExponent n).units : ℝ) / 2 ^ 149) / 2 ^ 10 := by
  by_cases hr : (exp2RowOf n).least = (exp2RowOf n).greatest
  · obtain ⟨k, -, -, -, hx, hu⟩ := exp2Rows_integer n hn hr
    have hpow : (2 : ℝ) ^ (((noteExponent n).units : ℝ) / 2 ^ 149) = 2 ^ (144 + k) / 2 ^ 149 := by
      have he : (((noteExponent n).units : ℝ) / 2 ^ 149) = ((144 + k : Nat) : ℝ) - ((149 : Nat) : ℝ) := by
        rw [hx]
        push_cast
        norm_num
        ring
      rw [he, rpow_sub (by norm_num), rpow_natCast, rpow_natCast]
    rw [exp2Within_integer raw hn hr, hu, hpow]
    push_cast
    rw [sub_self, abs_zero]
    positivity
  · obtain ⟨h1, h2⟩ := exp2Within_between raw hn
    have hlt : (exp2Within raw (noteExponent n)).bits.toNat < F32.infMag :=
      lt_of_le_of_lt (BitVec.le_def.1 h2) (exp2Rows_ordered n hn).2.2.2
    obtain ⟨hs, hm⟩ := F32.mag_of_small hlt
    exact (exp2Row_near_iff hn hr ((F32.isFinite_iff _).2 (lt_of_eq_of_lt hm hlt)) hs).1 ⟨h1, h2⟩

end Sys2Proof.Machine
end

