-- ==== Sys2Proof/Laws/Representable.lean ====
section
/-! SUPPORT. Values that rounding keeps: the whole numbers that a phase counts, and the difference that a phase wraps to
(40_oscillator.md R104). -/

namespace Sys2Proof

/-- The whole numbers up to 2^24 are representable. -/
theorem F32.roundUnits_whole {n : Nat} (h : n ≤ 2 ^ 24) :
    F32.roundUnits ((n * 2 ^ 149 : Nat) : Int) 1 = ((n * 2 ^ 149 : Nat) : Int) := by
  rcases Nat.eq_zero_or_pos n with rfl | hp
  · simp
  have : ∃ m, m ≤ F32.infMag ∧ F32.magUnits m = n * 2 ^ 149 := by
    rcases Nat.lt_or_ge n (2^24) with h' | h'
    · have hl : Nat.log2 n ≤ 23 := by
        have := (Nat.log2_lt (k := 24) hp.ne').2 h'; omega
      have hlo := Nat.log2_self_le hp.ne'
      have hhi := Nat.lt_log2_self (n := n)
      have hfull : n * 2 ^ (23 - Nat.log2 n) < 2 ^ 24 := by
        calc n * 2 ^ (23 - Nat.log2 n) < 2 ^ (Nat.log2 n + 1) * 2 ^ (23 - Nat.log2 n) :=
              Nat.mul_lt_mul_of_pos_right hhi (by positivity)
          _ = 2 ^ 24 := by rw [← Nat.pow_add]; congr 1; omega
      refine ⟨(126 + Nat.log2 n) * 2 ^ 23 + n * 2 ^ (23 - Nat.log2 n), ?_, ?_⟩
      · have hi : F32.infMag = 2139095040 := rfl
        omega
      · rw [F32.magUnits_scaled]
        · rw [Nat.mul_assoc, ← Nat.pow_add]; congr 2; omega
        · omega
        · right
          calc 2 ^ 23 = 2 ^ Nat.log2 n * 2 ^ (23 - Nat.log2 n) := by rw [← Nat.pow_add]; congr 1; omega
            _ ≤ _ := Nat.mul_le_mul_right _ hlo
    · obtain rfl : n = 2 ^ 24 := by omega
      exact ⟨0x4B800000, by decide, by decide +kernel⟩
  obtain ⟨m, h1, h2⟩ := this
  have hr := F32.roundMag_magUnits (d := 1) (by norm_num) h1
  rw [Nat.mul_one] at hr
  unfold F32.roundUnits
  rw [if_neg (not_lt.2 (Int.natCast_nonneg _)), Int.natAbs_natCast, ← h2, hr]

/-- Twice a representable value of at most 2^24 is representable. -/
theorem F32.roundUnits_double {x : F32} (h0 : 0 ≤ x.units) (hb : x.units ≤ 2 ^ 173) :
    F32.roundUnits (2 * x.units) 1 = 2 * x.units := by
  have hn := F32.natAbs_units x
  obtain ⟨s, q, hm, hq, hs⟩ := F32.mag_split x.mag
  rw [hm, F32.magUnits_scaled hq.le hs] at hn
  have hx : x.units = ((q * 2 ^ s : Nat) : Int) := by omega
  have hrep : ∃ m, m ≤ F32.infMag ∧ F32.magUnits m = 2 * (q * 2 ^ s) := by
    rcases Nat.lt_or_ge q (2 ^ 23) with h | h
    · have hs0 : s = 0 := by omega
      subst hs0
      refine ⟨2 * q, by have : F32.infMag = 2139095040 := rfl; omega, ?_⟩
      have := F32.magUnits_scaled (s := 0) (q := 2 * q) (by omega) (.inl rfl)
      simpa using this
    · refine ⟨(s + 1) * 2 ^ 23 + q, ?_, ?_⟩
      · have hi : F32.infMag = 2139095040 := rfl
        have : s ≤ 150 := by
          by_contra hc
          have h1 : 2 ^ 23 * 2 ^ 151 ≤ q * 2 ^ s := Nat.mul_le_mul h (Nat.pow_le_pow_right (by norm_num) (by omega))
          have h2 : ((q * 2 ^ s : Nat) : Int) ≤ 2 ^ 173 := by rw [← hx]; exact hb
          have h3 : q * 2 ^ s ≤ 2 ^ 173 := by exact_mod_cast h2
          norm_num at h1 h3; omega
        omega
      · rw [F32.magUnits_scaled hq.le (.inr h), Nat.pow_succ]; ring
  obtain ⟨m, h1, h2⟩ := hrep
  have hr := F32.roundMag_magUnits (d := 1) (by norm_num) h1
  rw [Nat.mul_one, h2] at hr
  have e : 2 * x.units = ((2 * (q * 2 ^ s) : Nat) : Int) := by rw [hx]; push_cast; ring
  rw [e]
  unfold F32.roundUnits
  rw [if_neg (not_lt.2 (Int.natCast_nonneg _)), Int.natAbs_natCast, hr, h2]

/-- The difference of q and r, where r ≤ q < 2r, rounds to less than r: it is representable. -/
theorem F32.roundUnits_sub_lt {q r : F32} (hr : r.isFinite = true) (hr0 : 0 < r.units) (h1 : r.units ≤ q.units)
    (h2 : q.units < 2 * r.units) :
    F32.roundUnits (q.units - r.units) 1 < r.units := by
  have nq := F32.natAbs_units q
  have nr := F32.natAbs_units r
  have hmm : r.mag ≤ q.mag := by
    by_contra hc
    have := F32.magUnits_strictMono (not_le.1 hc)
    omega
  have hm0 : 0 < r.mag := by
    by_contra hc
    have : r.mag = 0 := by omega
    rw [this] at nr; simp at nr; omega
  let p : F32 := F32.ofSignMag false (r.mag - 1)
  have hlt := r.mag_lt
  have pm : p.mag = r.mag - 1 := F32.mag_ofSignMag _ (by omega)
  have ps : p.sign = false := F32.sign_ofSignMag _ (by omega)
  have pn : p.isNaN = false := by rw [F32.isNaN_false, pm]; rw [F32.isFinite_iff] at hr; omega
  have pu : p.units = (F32.magUnits (r.mag - 1) : Int) := by unfold F32.units; rw [ps, pm]; simp
  have plt : p.units < r.units := by
    have := F32.magUnits_strictMono (m := r.mag - 1) (n := r.mag) (by omega)
    rw [pu]; omega
  refine lt_of_le_of_lt ?_ plt
  refine F32.roundUnits_le pn (by norm_num) ?_
  rw [pu]
  push_cast
  rw [mul_one]
  obtain ⟨s, k, hm, hk, hs⟩ := F32.mag_split r.mag
  obtain ⟨s', k', hm', hk', hs'⟩ := F32.mag_split q.mag
  rw [hm, F32.magUnits_scaled hk.le hs] at nr
  rw [hm', F32.magUnits_scaled hk'.le hs'] at nq
  have hss : s ≤ s' := by
    rcases hs with h | h
    · omega
    · by_contra hc; omega
  obtain ⟨a, ha⟩ : ∃ a, k' * 2 ^ s' = a * 2 ^ s :=
    ⟨k' * 2 ^ (s' - s), by rw [Nat.mul_assoc, ← Nat.pow_add]; congr 2; omega⟩
  rw [ha] at nq
  have hle : (a - k) ≤ k - 1 := by
    have h3 : a * 2 ^ s < 2 * k * 2 ^ s := by
      rw [Nat.mul_assoc, ← nq, ← nr]; omega
    have := Nat.lt_of_mul_lt_mul_right h3
    omega
  have hD : q.units - r.units = (((a - k) * 2 ^ s : Nat) : Int) := by
    rw [Nat.sub_mul, ← nq, ← nr]
    omega
  rw [hD]
  refine Int.ofNat_le.2 ((Nat.mul_le_mul_right _ hle).trans ?_)
  rw [hm]
  rcases Nat.eq_zero_or_pos s with h0 | h0
  · subst h0
    have := F32.magUnits_scaled (s := 0) (q := k - 1) (by omega) (.inl rfl)
    have e : 0 * 2 ^ 23 + k - 1 = 0 * 2 ^ 23 + (k - 1) := by omega
    rw [e, this]
  · have hk2 : 2 ^ 23 ≤ k := by omega
    rcases hk2.lt_or_eq with h | h
    · have e : s * 2 ^ 23 + k - 1 = s * 2 ^ 23 + (k - 1) := by omega
      rw [e, F32.magUnits_scaled (by omega) (.inr (by omega))]
    · have e : s * 2 ^ 23 + k - 1 = (s - 1) * 2 ^ 23 + (2 ^ 24 - 1) := by omega
      rw [e, F32.magUnits_scaled (by omega) (.inr (by omega)), ← h]
      calc (2 ^ 23 - 1) * 2 ^ s = (2 ^ 23 - 1) * 2 * 2 ^ (s - 1) := by
            obtain ⟨u, rfl⟩ : ∃ u, s = u + 1 := ⟨s - 1, by omega⟩
            rw [Nat.pow_succ, Nat.add_sub_cancel]; ring
        _ ≤ _ := Nat.mul_le_mul_right _ (by norm_num)

end Sys2Proof
end

