-- ==== Sys2Proof/Laws/Scan.lean ====
section
/-! SUPPORT. What a scan of the slots can answer: both scans of 43_allocator_mixer.md R184, R185 are a search of the voice
indices in increasing order. -/

namespace Sys2Proof.Machine

/-- A scan answers `i` exactly when `i` is the least index with the property. -/
theorem find_voice_eq_some (p : Fin 4 → Bool) (i : Fin 4) :
    voiceIndices.find? p = some i ↔ p i = true ∧ ∀ j, j < i → p j = false := by
  cases h0 : p 0 <;> cases h1 : p 1 <;> cases h2 : p 2 <;> cases h3 : p 3 <;>
    fin_cases i <;> simp [voiceIndices, List.find?, h0, h1, h2, h3, Fin.forall_fin_succ]

/-- A scan answers nothing exactly when no index has the property. -/
theorem find_voice_eq_none (p : Fin 4 → Bool) : voiceIndices.find? p = none ↔ ∀ i, p i = false := by
  simp [voiceIndices, Fin.forall_fin_succ, List.find?_eq_none]

/-- Scans of properties that agree on every index agree. -/
theorem find_voice_congr {p q : Fin 4 → Bool} (h : ∀ i, p i = q i) : voiceIndices.find? p = voiceIndices.find? q := by
  rw [funext h]

/-- NOTE_ON either starts a note on the first free slot or drops it (43_allocator_mixer.md R186, R187). -/
theorem execNoteOn_cases (n v : Nat) (s : State) :
    (∃ i, s.firstFree = some i ∧ execNoteOn n v s = .next (s.startNote i n v)) ∨
      (s.firstFree = none ∧ execNoteOn n v s = .next s) := by
  unfold execNoteOn
  cases h : s.firstFree with
  | none => exact .inr ⟨rfl, rfl⟩
  | some i => exact .inl ⟨i, rfl, rfl⟩

/-- NOTE_OFF either releases the first matching slot or is dropped (43_allocator_mixer.md R189, R190). -/
theorem execNoteOff_cases (n v : Nat) (s : State) :
    (∃ i, s.firstMatch n = some i ∧ execNoteOff n v s = .next (s.releaseNote i)) ∨
      (s.firstMatch n = none ∧ execNoteOff n v s = .next s) := by
  unfold execNoteOff
  cases h : s.firstMatch n with
  | none => exact .inr ⟨rfl, rfl⟩
  | some i => exact .inl ⟨i, rfl, rfl⟩

/-- TICK is refused under an illegal configuration, faults on an oscillator that hangs, and else ticks every voice. -/
theorem execTick_cases (s : State) :
    (s.cfg.legal = false ∧ execTick s = .refused .refusedConfiguration) ∨
      (s.cfg.legal = true ∧ (∃ i, oscHangs (s.voices.get i).osc = true) ∧ execTick s = .fault .oscFrequencyPrecondition) ∨
      (s.cfg.legal = true ∧ (∀ i, oscHangs (s.voices.get i).osc = false) ∧ execTick s = .next s.ticked) := by
  unfold execTick
  cases hl : s.cfg.legal
  · exact .inl ⟨rfl, rfl⟩
  · right
    simp only [Bool.not_true, Bool.false_eq_true, if_false]
    cases ha : (s.voices.toList.any fun v => oscHangs v.osc)
    · right
      refine ⟨trivial, fun i => ?_, by simp⟩
      rw [List.any_eq_false] at ha
      simpa using ha _ ((Lanes.mem_toList _ _).2 ⟨i, rfl⟩)
    · left
      rw [List.any_eq_true] at ha
      obtain ⟨v, hv, hh⟩ := ha
      obtain ⟨i, rfl⟩ := (Lanes.mem_toList _ _).1 hv
      exact ⟨trivial, ⟨i, hh⟩, by simp⟩

/-- What a command can do when it completes. -/
theorem exec_cases {i : Instr} {s t : State} (h : exec i s = .next t) :
    (∃ n v, i = .noteOff n v ∧
      ((∃ j, s.firstMatch n = some j ∧ t = s.releaseNote j) ∨ (s.firstMatch n = none ∧ t = s))) ∨
    (∃ n v, i = .noteOn n v ∧
      ((∃ j, s.firstFree = some j ∧ t = s.startNote j n v) ∨ (s.firstFree = none ∧ t = s))) ∨
    (i = .tick ∧ s.cfg.legal = true ∧ (∀ j, oscHangs (s.voices.get j).osc = false) ∧ t = s.ticked) ∨
    (∃ w, i = .setWaveform w ∧ t = s.withWaveform w) := by
  cases i with
  | noteOff n v =>
    left; refine ⟨n, v, rfl, ?_⟩
    simp only [exec] at h
    rcases execNoteOff_cases n v s with ⟨j, h1, h2⟩ | ⟨h1, h2⟩ <;> rw [h2] at h <;> cases h
    · exact .inl ⟨j, h1, rfl⟩
    · exact .inr ⟨h1, rfl⟩
  | noteOn n v =>
    right; left; refine ⟨n, v, rfl, ?_⟩
    simp only [exec] at h
    rcases execNoteOn_cases n v s with ⟨j, h1, h2⟩ | ⟨h1, h2⟩ <;> rw [h2] at h <;> cases h
    · exact .inl ⟨j, h1, rfl⟩
    · exact .inr ⟨h1, rfl⟩
  | tick =>
    right; right; left
    simp only [exec] at h
    rcases execTick_cases s with ⟨h1, h2⟩ | ⟨h1, h3, h2⟩ | ⟨h1, h3, h2⟩ <;> rw [h2] at h <;> cases h
    exact ⟨rfl, h1, h3, rfl⟩
  | setWaveform w => right; right; right; cases h; exact ⟨w, rfl, rfl⟩

/-- No command writes CFG, STATUS or what is the host's (10_state.md R22). -/
theorem exec_frame {i : Instr} {s t : State} (h : exec i s = .next t) :
    t.cfg = s.cfg ∧ t.status = s.status ∧ t.cfgIn = s.cfgIn ∧ t.input = s.input := by
  rcases exec_cases h with ⟨n, v, -, ⟨j, -, rfl⟩ | ⟨-, rfl⟩⟩ | ⟨n, v, -, ⟨j, -, rfl⟩ | ⟨-, rfl⟩⟩ | ⟨-, -, -, rfl⟩ | ⟨w, -, rfl⟩ <;>
    simp

/-- What one step can do, by the next transaction. -/
theorem step_cases {s t : State} (h : step s = .next t) :
    (s.input = [] ∧ t = s) ∨
      (∃ w rest i, s.input = .command w :: rest ∧ decode w = .command i ∧ exec i { s with input := rest } = .next t) ∨
      (∃ w rest r, s.input = .command w :: rest ∧ decode w = .reserved r ∧ t = ({ s with input := rest } : State).setIllegal) ∨
      (∃ a rest, s.input = .reset a :: rest ∧ (Cfg.ofPort s.cfgIn).legal = true ∧
        t = ({ s with input := rest } : State).afterReset (Cfg.ofPort s.cfgIn)) ∨
      (∃ c rest, s.input = .driveCfg c :: rest ∧ t = ({ s with input := rest } : State).driveCfgIn c) := by
  unfold step at h
  cases hi : s.input with
  | nil => rw [hi] at h; cases h; exact .inl ⟨rfl, rfl⟩
  | cons x rest =>
    rw [hi] at h
    cases x with
    | command w =>
      simp only [serve, serveWord] at h
      cases hd : decode w with
      | command i => rw [hd] at h; exact .inr (.inl ⟨w, rest, i, rfl, hd, h⟩)
      | reserved r => rw [hd] at h; cases h; exact .inr (.inr (.inl ⟨w, rest, r, rfl, hd, rfl⟩))
    | reset a =>
      simp only [serve, performReset] at h
      split at h
      · cases h; exact .inr (.inr (.inr (.inl ⟨a, rest, rfl, ‹_›, rfl⟩)))
      · cases h
    | driveCfg c => cases h; exact .inr (.inr (.inr (.inr ⟨c, rest, rfl, rfl⟩)))

end Sys2Proof.Machine
end

