-- ==== Sys2Proof/Machine/Assembler.lean ====
section
/-! DEFINITION. The assembler, its pseudo-instructions and the disassembler (30_encoding.md R85, R86). Host-side: syntax has
no meaning of its own (92_eei_decisions.md D31). -/

namespace Sys2Proof.Machine

/-- One source line (30_encoding.md R85), or a pseudo-instruction (R86). -/
inductive AsmLine where
  | noteOn (note vel : Nat)
  | noteOff (note vel : Nat)
  | tick
  | setWaveform (w : Waveform)
  /-- `.word <16-bit value>` -/
  | word (value : Nat)
  /-- Pseudo: `note_off <note>`, velocity 0. -/
  | noteOffOnly (note : Nat)
  /-- Pseudo: `tick <k>`, k copies of `tick`. -/
  | tickTimes (k : Nat)
  /-- Pseudo: `all_notes_off <n1>, ..., <nm>`. -/
  | allNotesOff (notes : List Nat)
  /-- A line that holds no more than a comment. -/
  | blank
deriving DecidableEq, Repr

/-- The operands the assembler accepts: notes and velocities in 0..127, a 16-bit value, k ≥ 1, at least one note
(30_encoding.md R85, R86). -/
def AsmLine.wellFormed : AsmLine → Bool
  | .noteOn note vel => isMidiByte note && isMidiByte vel
  | .noteOff note vel => isMidiByte note && isMidiByte vel
  | .tick => true
  | .setWaveform _ => true
  | .word value => decide (value < 2 ^ 16)
  | .noteOffOnly note => isMidiByte note
  | .tickTimes k => decide (1 ≤ k)
  | .allNotesOff notes => !notes.isEmpty && notes.all isMidiByte
  | .blank => true

/-- The words of a line. -/
def AsmLine.words : AsmLine → List CmdWord
  | .noteOn note vel => [encode (.noteOn note vel)]
  | .noteOff note vel => [encode (.noteOff note vel)]
  | .tick => [encode .tick]
  | .setWaveform w => [encode (.setWaveform w)]
  | .word value => [BitVec.ofNat 16 value]
  | .noteOffOnly note => [encode (.noteOff note 0)]
  | .tickTimes k => List.replicate k (encode .tick)
  | .allNotesOff notes => notes.map fun n => encode (.noteOff n 0)
  | .blank => []

/-- The words of a line, or its rejection. -/
def AsmLine.assemble (l : AsmLine) : Option (List CmdWord) := if l.wellFormed then some l.words else none

/-- The value of a digit, where it is one. -/
def digitValue? (c : Char) : Option Nat :=
  if '0' ≤ c ∧ c ≤ '9' then some (c.toNat - '0'.toNat)
  else if 'a' ≤ c ∧ c ≤ 'f' then some (c.toNat - 'a'.toNat + 10)
  else if 'A' ≤ c ∧ c ≤ 'F' then some (c.toNat - 'A'.toNat + 10)
  else none

/-- Digits of a base, after the value `acc`. -/
def readDigits (base acc : Nat) : List Char → Option Nat
  | [] => some acc
  | c :: cs =>
    match digitValue? c with
    | some d => if d < base then readDigits base (base * acc + d) cs else none
    | none => none

/-- A decimal or 0x-hexadecimal integer (30_encoding.md R85). -/
def readNumber : List Char → Option Nat
  | [] => none
  | '0' :: 'x' :: c :: cs => readDigits 16 0 (c :: cs)
  | cs => readDigits 10 0 cs

def isBlank (c : Char) : Bool := c == ' ' || c == '\t'

/-- The text without the blanks around it. -/
def trim (cs : List Char) : List Char := ((cs.dropWhile isBlank).reverse.dropWhile isBlank).reverse

/-- The pieces between commas. -/
def splitCommas : List Char → List (List Char)
  | [] => [[]]
  | c :: cs =>
    if c = ',' then [] :: splitCommas cs
    else match splitCommas cs with
      | [] => [[c]]
      | p :: ps => (c :: p) :: ps

/-- The names of the waveforms (30_encoding.md R85). -/
def readWaveform (cs : List Char) : Option Waveform :=
  if cs = "sine".toList then some .sine
  else if cs = "square".toList then some .square
  else if cs = "saw".toList then some .saw
  else if cs = "triangle".toList then some .triangle
  else none

/-- The operands of a line, all of them integers. -/
def readNumbers (cs : List Char) : Option (List Nat) := (splitCommas cs).mapM fun p => readNumber (trim p)

/-- A line whose mnemonic and operand text are separated (30_encoding.md R85, R86). -/
def readStatement (mnemonic operands : List Char) : Option AsmLine :=
  if mnemonic = "tick".toList ∧ operands = [] then some .tick
  else if mnemonic = "set_waveform".toList then (readWaveform operands).map .setWaveform
  else match readNumbers operands with
    | none => none
    | some ns =>
      if mnemonic = "note_on".toList then
        match ns with
        | [n, v] => some (.noteOn n v)
        | _ => none
      else if mnemonic = "note_off".toList then
        match ns with
        | [n, v] => some (.noteOff n v)
        | [n] => some (.noteOffOnly n)
        | _ => none
      else if mnemonic = "tick".toList then
        match ns with
        | [k] => some (.tickTimes k)
        | _ => none
      else if mnemonic = ".word".toList then
        match ns with
        | [v] => some (.word v)
        | _ => none
      else if mnemonic = "all_notes_off".toList then some (.allNotesOff ns)
      else none

/-- A source line: a comment runs from `;` to its end (30_encoding.md R85). Log entry 17. -/
def readLine (text : List Char) : Option AsmLine :=
  let body := trim (text.takeWhile fun c => c != ';')
  if body = [] then some .blank
  else readStatement (body.takeWhile fun c => !isBlank c) (trim (body.dropWhile fun c => !isBlank c))

/-- The words of a source line, or its rejection. -/
def assembleText (text : List Char) : Option (List CmdWord) := (readLine text).bind AsmLine.assemble

/-- The hexadecimal digit of a 4-bit value, upper-case (DESIGN CHOICE, log entry 17). -/
def hexDigit (n : Nat) : Char := "0123456789ABCDEF".toList.getD n '0'

/-- `0xHHHH` -/
def hexWord (w : CmdWord) : List Char :=
  "0x".toList ++ [hexDigit (w.toNat / 4096 % 16), hexDigit (w.toNat / 256 % 16), hexDigit (w.toNat / 16 % 16),
    hexDigit (w.toNat % 16)]

/-- An integer below 1000 in decimal, without leading zeros. -/
def decimal (n : Nat) : List Char :=
  if n < 10 then [hexDigit n]
  else if n < 100 then [hexDigit (n / 10), hexDigit (n % 10)]
  else [hexDigit (n / 100), hexDigit (n / 10 % 10), hexDigit (n % 10)]

/-- The source name of a waveform. -/
def waveformName : Waveform → List Char
  | .sine => "sine".toList
  | .square => "square".toList
  | .saw => "saw".toList
  | .triangle => "triangle".toList

/-- The source text of a command, in a form of 30_encoding.md R85. DESIGN CHOICE (log entry 17): R85 gives the disassembler's
text of a reserved word only, and admits decimal and hexadecimal operands; operands are printed in decimal, one blank after
the mnemonic and after the comma. -/
def printInstr : Instr → List Char
  | .noteOff note vel => "note_off ".toList ++ decimal note ++ ", ".toList ++ decimal vel
  | .noteOn note vel => "note_on ".toList ++ decimal note ++ ", ".toList ++ decimal vel
  | .tick => "tick".toList
  | .setWaveform w => "set_waveform ".toList ++ waveformName w

/-- The disassembler: a reserved word is printed `.word 0xHHHH ; reserved` (30_encoding.md R85). -/
def disassemble (w : CmdWord) : List Char :=
  match decode w with
  | .command i => printInstr i
  | .reserved _ => ".word ".toList ++ hexWord w ++ " ; reserved".toList

end Sys2Proof.Machine
end

