-- ==== Sys2Proof/Tests/Slice0.lean ====
section
/-! SUPPORT. The model's own tests, each expected value from spec/ (95_test_vectors.md unless another file is named), and a
witness for every statement that has hypotheses. -/

namespace Sys2Proof.Tests

-- One theorem at a time: theorems that wait for a kernel evaluation would each hold a thread.
set_option Elab.async false
open Sys2Proof.Machine

/-! ## Helpers -/

/-- The state an outcome goes on with. -/
def nextOf : Host.Outcome State Fault Refusal → Option State
  | .next s => some s
  | .fault _ => none
  | .refused _ => none

/-- The fault an outcome stops with. -/
def faultOf : Host.Outcome State Fault Refusal → Option Fault
  | .next _ => none
  | .fault f => some f
  | .refused _ => none

/-- The refusal an outcome stops with. -/
def refusalOf : Host.Outcome State Fault Refusal → Option Refusal
  | .next _ => none
  | .fault _ => none
  | .refused r => some r

/-- Configuration E1: SAMPLE_RATE 8.0, the other parameters 0.5. -/
def cfgE1 : Cfg := { Cfg.reset with sampleRate := ⟨0x41000000⟩ }

/-- Voice 0 replaced, and its slot. -/
def withVoice (s : State) (v : Voice) (sl : Slot) : State :=
  { s with voices := { s.voices with v0 := v }, slots := { s.slots with v0 := sl } }

/-- A voice with a frequency of 440.0 in an envelope state, at phase `p`. -/
def voiceIn (p : F32) (w : Waveform) (st : EnvState) (amp : F32) (gain : F32) : Voice :=
  { osc := { phase := p, freq := ⟨0x43DC0000⟩, wave := w }, env := { state := st, amp := amp, elapsed := 5 }, gain := gain }

/-- A4 held in slot 0 at velocity 127, in Sustain at 0.5 = SUSTAIN_LEVEL, at phase 5.0. -/
def holding : State :=
  withVoice State.reset (voiceIn ⟨0x40A00000⟩ .sine .sustain ⟨0x3F000000⟩ ⟨0x3F800000⟩) { valid := true, note := 69, vel := 127 }

/-- All four slots held, by notes 60, 62, 64, 65. -/
def full : State :=
  { State.reset with
    slots := ⟨⟨true, 60, 100⟩, ⟨true, 62, 100⟩, ⟨true, 64, 100⟩, ⟨true, 65, 100⟩⟩ }

/-- The first three slots held. -/
def threeHeld : State := { full with slots := { full.slots with v3 := Slot.free } }

/-- Voice 0 a Square oscillator of frequency 0.0: the broken precondition of V-OSC-8. -/
def hanging : State :=
  withVoice State.reset
    { osc := { phase := ⟨0⟩, freq := ⟨0⟩, wave := .square }, env := { state := .idle, amp := ⟨0⟩, elapsed := 0 }, gain := ⟨0⟩ }
    Slot.free

/-- Every phase 7.0 at SAMPLE_RATE 8.0, voice 0 a Saw in Attack at 0.25 (V-OSC-3). -/
def wrapping : State :=
  { State.reset with
    cfg := cfgE1
    voices := ⟨voiceIn ⟨0x40E00000⟩ .saw .attack ⟨0x3E800000⟩ ⟨0⟩, voiceIn ⟨0x40E00000⟩ .sine .idle ⟨0⟩ ⟨0⟩,
      voiceIn ⟨0x40E00000⟩ .sine .idle ⟨0⟩ ⟨0⟩, voiceIn ⟨0x40E00000⟩ .sine .idle ⟨0⟩ ⟨0⟩⟩ }

/-! ## Well-formedness: each check refuses an ill-formed term -/

theorem test_wf_note_too_big : (Instr.noteOn 128 0).wellFormed = false ∧ (Instr.noteOff 128 0).wellFormed = false := by decide
theorem test_wf_velocity_too_big : (Instr.noteOn 0 128).wellFormed = false ∧ (Instr.noteOff 0 128).wellFormed = false := by decide
theorem test_wf_greatest : (Instr.noteOn 127 127).wellFormed = true ∧ (Instr.noteOff 127 127).wellFormed = true := by decide
theorem test_wf_asm_note : (AsmLine.noteOn 128 0).wellFormed = false ∧ (AsmLine.noteOff 0 128).wellFormed = false ∧
    (AsmLine.noteOffOnly 128).wellFormed = false ∧ (AsmLine.allNotesOff [60, 128]).wellFormed = false := by decide
theorem test_wf_asm_counts : (AsmLine.tickTimes 0).wellFormed = false ∧ (AsmLine.allNotesOff []).wellFormed = false ∧
    (AsmLine.word 0x10000).wellFormed = false := by decide

/-! ## Decoding: words written bit by bit from 30_encoding.md R78, R79 (V-ENC-1) -/

theorem test_decode_noteOff : decode 0b0010001010000000 = .command (.noteOff 69 0) ∧
    decode 0b0000000000000000 = .command (.noteOff 0 0) ∧ decode 0b0011111111111111 = .command (.noteOff 127 127) := by decide
theorem test_decode_noteOn : decode 0b0110001011111111 = .command (.noteOn 69 127) ∧
    decode 0b0101111001100100 = .command (.noteOn 60 100) ∧ decode 0b0111111111111111 = .command (.noteOn 127 127) := by decide
theorem test_decode_tick : decode 0b1000000000000000 = .command .tick := by decide
theorem test_decode_setWaveform : decode 0b1000000100000000 = .command (.setWaveform .sine) ∧
    decode 0b1000000100000001 = .command (.setWaveform .square) ∧ decode 0b1000000100000010 = .command (.setWaveform .saw) ∧
    decode 0b1000000100000011 = .command (.setWaveform .triangle) := by decide
theorem test_decode_reserved : [0x8001#16, 0x8080#16, 0x80FF#16, 0x8104#16, 0x81FF#16, 0x8200#16, 0xBFFF#16, 0xC000#16,
    0xFFFF#16].all (fun w => (decode w).instr?.isNone) = true := by decide
theorem test_decodeTableWord : decodeTableWord 16 0x8000 = some .tick ∧ decodeTableWord 16 0xC000 = none := by decide

/-! ## Assembly (V-ENC-3) -/

theorem test_assemble_note_on : assembleText "note_on 69, 127".toList = some [0x62FF] ∧
    assembleText "note_on 0x45, 0x7F".toList = some [0x62FF] := by decide +kernel
theorem test_assemble_pseudo : assembleText "note_off 69".toList = some [0x2280] ∧
    assembleText "tick 3".toList = some [0x8000, 0x8000, 0x8000] ∧
    assembleText "all_notes_off 60, 64".toList = some [0x1E00, 0x2000] := by decide +kernel
theorem test_assemble_rest : assembleText "set_waveform saw".toList = some [0x8102] ∧
    assembleText ".word 0xC000".toList = some [0xC000] ∧ assembleText "note_on 128, 0".toList = none := by decide +kernel
theorem test_disassemble_reserved : disassemble 0xC000 = ".word 0xC000 ; reserved".toList := by decide +kernel
/-- 20_memory.md R51: bits 15:8 go first. -/
theorem test_byte_order : bytesOfWord 0x62FF = [0x62, 0xFF] ∧ wordsOfBytes [0x62, 0xFF, 0x80] = ([0x62FF], some 0x80) := by
  decide

/-! ## Arithmetic and conversions -/

/-- V-ENV-7: ATTACK_INC = 1.0 / 3.0, and the third sum rounds to 1.0. -/
theorem test_div_inexact : F32.one.div ⟨0x40400000⟩ = ⟨0x3EAAAAAB⟩ ∧ (F32.mk 0x3F2AAAAB).add ⟨0x3EAAAAAB⟩ = F32.one := by
  decide +kernel
/-- V-CONV-2. -/
theorem test_velToGain : velToGain 1 = ⟨0x3C010204⟩ ∧ velToGain 90 = ⟨0x3F356AD6⟩ ∧ velToGain 100 = ⟨0x3F499326⟩ ∧
    velToGain 126 = ⟨0x3F7DFBF8⟩ := by decide +kernel
/-- V-CONV-1, under the reference EXP2: the table's nearest values. -/
theorem test_noteToHz_reference :
    ([0, 10, 60, 64, 127].map fun n => (exp2Rows[n]?).map fun r => a4Hz.mul ⟨r.nearest⟩) =
      [some ⟨0x4102D012⟩, some ⟨0x416914F9⟩, some ⟨0x4382D012⟩, some ⟨0x43A4D054⟩, some ⟨0x4643FF6C⟩] := by decide +kernel

/-- I-EXP2 property 4 by hand: row n's argument differs from (n − 69)/12 by at most 2^-22, so 2^arg is within 2^-18 of the
12th root of 2^(n − 69), relatively. The least and greatest values are 2^-10 below and above it to that accuracy, the
nearest value is it. Unit counts are u/2^149, and 2^18 − 2^8 stands for 2^18·(1 − 2^-10). -/
def exp2RowIsNear (n : Nat) (r : Exp2Row) : Bool :=
  let u (b : BitVec 32) : Nat := F32.magUnits b.toNat
  let p : Nat := 2 ^ (12 * 149 + n) -- the exact value to the 12th power, times 2^69
  let near (b : BitVec 32) (m : Nat) : Bool :=
    decide (((2 ^ 18 + 1) * u b) ^ 12 * 2 ^ 69 ≥ m ^ 12 * p) && decide (((2 ^ 18 - 1) * u b) ^ 12 * 2 ^ 69 ≤ m ^ 12 * p)
  r.arg == (noteExponent n).bits && near r.nearest (2 ^ 18) &&
    if (n + 3) % 12 = 0 then r.least == r.nearest && r.greatest == r.nearest
    else near r.least (2 ^ 18 - 2 ^ 8) && near r.greatest (2 ^ 18 + 2 ^ 8)

theorem test_exp2Rows : (List.range 128).all (fun n => exp2RowIsNear n (exp2Rows.getD n ⟨0, 0, 0, 0⟩)) = true := by
  decide +kernel

/-! ## Oscillator and envelope -/

/-- X-1, V-OSC-5: 440.0 at 44100.0 has 25 odd harmonics up to 49, and 50 in all. -/
theorem test_harmonic_counts : (harmonics Cfg.reset ⟨0x43DC0000⟩ 2).length = 25 ∧
    (harmonics Cfg.reset ⟨0x43DC0000⟩ 2).getLast? = some 49 ∧ (harmonics Cfg.reset ⟨0x43DC0000⟩ 1).length = 50 := by
  decide +kernel
/-- V-OSC-2: a harmonic at the Nyquist frequency is included, a fundamental above it too. -/
theorem test_harmonics_nyquist : harmonics cfgE1 ⟨0x40000000⟩ 1 = [1, 2] ∧ harmonics cfgE1 ⟨0x40A00000⟩ 2 = [1] := by
  decide +kernel
/-- V-OSC-4: the phase at SAMPLE_RATE 2.5 goes 2.0, 0.5, 1.5, 0.0. -/
theorem test_phase_non_integer :
    let c : Cfg := { Cfg.reset with sampleRate := ⟨0x40200000⟩ }
    phaseNext c ⟨0x40000000⟩ = ⟨0x3F000000⟩ ∧ phaseNext c ⟨0x3F000000⟩ = ⟨0x3FC00000⟩ ∧ phaseNext c ⟨0x3FC00000⟩ = ⟨0⟩ := by
  decide +kernel
/-- V-ENV-1: the tick that enters Decay returns 1.0, the one that enters Sustain returns SUSTAIN_LEVEL. -/
theorem test_env_boundaries : envLevel cfgE1 .attack ⟨0x3F400000⟩ = (.decay, F32.one) ∧
    envLevel cfgE1 .decay ⟨0x3F200000⟩ = (.sustain, ⟨0x3F000000⟩) := by decide +kernel
/-- V-ENV-3: Release from 0.75 falls by 0.125; V-ENV-2: it ends at +0.0 in Idle. -/
theorem test_env_release : envLevel cfgE1 .release ⟨0x3F400000⟩ = (.release, ⟨0x3F200000⟩) ∧
    envLevel cfgE1 .release ⟨0x3E000000⟩ = (.idle, F32.zero) := by decide +kernel
/-- V-ENV-13: a step too small to move the amplitude. -/
theorem test_env_stall :
    envLevel { Cfg.reset with sampleRate := F32.one, attackTime := ⟨0x4C800000⟩ } .attack ⟨0x3F000000⟩ =
      (.attack, ⟨0x3F000000⟩) := by decide +kernel
/-- V-ENV-14. -/
theorem test_elapsed_saturates : elapsedNext 0xFFFFFFFE = 0xFFFFFFFF ∧ elapsedNext 0xFFFFFFFF = 0xFFFFFFFF := by decide

/-! ## The commands -/

/-- V-ALLOC-9: a velocity of 0 is a note-on like any other. -/
theorem test_noteOn_velocity_zero :
    (nextOf (exec (.noteOn 60 0) State.reset)).map (fun t => (t.slots.v0, t.voices.v0.env.state, t.slots.v1)) =
      some (⟨true, 60, 0⟩, .attack, Slot.free) := by decide
/-- X-3: the fifth note is dropped. -/
theorem test_noteOn_full : nextOf (exec (.noteOn 67 100) full) = some full := by decide
/-- V-VOICE-5, V-ALLOC-3: the slot is freed at once; the voice releases from its amplitude and keeps the rest. -/
theorem test_noteOff_releases :
    (nextOf (exec (.noteOff 69 0) holding)).map (fun t => (t.slots.v0, t.voices.v0)) =
      some (Slot.free, { holding.voices.v0 with env := { state := .release, amp := ⟨0x3F000000⟩, elapsed := 0 } }) := by decide
/-- V-ALLOC-4, X-4. -/
theorem test_noteOff_unmatched : nextOf (exec (.noteOff 67 0) full) = some full := by decide
/-- V-OSC-3 in a TICK: the phases wrap to 0.0, every sample is a zero, and voice 0's amplitude goes to 0.5. -/
theorem test_tick_wrap :
    (nextOf (exec .tick wrapping)).map (fun t => (t.sampleOut, t.emitted, t.voices.v0.osc.phase, t.voices.v0.env.amp)) =
      some (⟨0⟩, [⟨0⟩], ⟨0⟩, ⟨0x3F000000⟩) := by decide +kernel
/-- V-MIX-2, V-MIX-3: the mix divides by 4 whatever sounds, and does not clip. -/
theorem test_mix : mix [⟨0x3E3504F3⟩, ⟨0x80000000⟩, ⟨0⟩, ⟨0x80000000⟩] = ⟨0x3D3504F3⟩ ∧
    mix [⟨0x3FB8ADF8⟩, ⟨0x3FB8ADF8⟩, ⟨0x3FB8ADF8⟩, ⟨0x3FB8ADF8⟩] = ⟨0x3FB8ADF8⟩ := by decide +kernel
/-- V-WAVE-1. -/
theorem test_setWaveform :
    (nextOf (exec (.setWaveform .square) holding)).map (fun t => (t.voices.toList.map (·.osc.wave), t.slots, t.sampleOut)) =
      some ([.square, .square, .square, .square], holding.slots, ⟨0⟩) := by decide
/-- V-OSC-8. -/
theorem test_tick_hanging : faultOf (exec .tick hanging) = some .oscFrequencyPrecondition := by decide

/-! ## Steps -/

/-- V-ERR-1, V-ERR-2: a reserved word sets the flag, and a second one changes nothing more. -/
theorem test_reserved_twice :
    (nextOf (step (State.reset.present (.command 0xC000)))).map (·.status) = some 0x0001 ∧
    (nextOf (step ({ State.reset with status := 0x0001 }.present (.command 0x8001)))).map (·.status) = some 0x0001 := by decide
/-- V-RST-1: RESET after activity gives the reset state. -/
theorem test_reset_after_activity : nextOf (step (holding.present (.reset (some 0x8000)))) = some State.reset := by decide
/-- V-RST-2: a new level on CFG_IN changes no register. -/
theorem test_driveCfg :
    (nextOf (step (holding.present (.driveCfg 0)))).map (fun t => (t.cfg, t.voices, t.cfgIn)) =
      some (holding.cfg, holding.voices, 0) := by decide
/-- V-ERR-4: ATTACK_TIME = 0.0, SUSTAIN_LEVEL = 1.5, SAMPLE_RATE = 0.5, and NaN fields are illegal. -/
theorem test_illegal_configurations : ∀ c ∈ [{ Cfg.reset with attackTime := ⟨0⟩ }, { Cfg.reset with sustainLevel := ⟨0x3FC00000⟩ },
    { Cfg.reset with sampleRate := ⟨0x3F000000⟩ }, { Cfg.reset with sampleRate := ⟨0x7FC00000⟩ },
    { Cfg.reset with releaseTime := ⟨0x7FC00000⟩ }, { Cfg.reset with decayTime := ⟨0x7F800000⟩ }], c.legal = false := by
  decide +kernel
/-- A row's word placed by withFetchWord is the one the next step runs. -/
theorem test_withFetchWord : (nextOf (step (State.reset.withFetchWord 16 0x4000))).map (·.slots.v0) = some ⟨true, 0, 0⟩ ∧
    (nextOf (step (State.reset.withFetchWord 16 0x8000))).map (·.emitted.length) = some 1 := by decide

/-! ## Witnesses: concrete states and operands that meet the hypotheses of each statement -/

theorem witness_EncodedCommandDecodesToItself : ∀ i ∈ [Instr.noteOn 127 127, .noteOff 0 0, .tick, .setWaveform .saw],
    i.wellFormed = true := by decide

theorem witness_DecodedCommandEncodesToItsWord : decode 0x7FFF = .command (.noteOn 127 127) ∧
    decode 0x8103 = .command (.setWaveform .triangle) := by decide

theorem witness_StepRunsTheDecodedCommand : ∃ (s : State) (w : CmdWord) (rest : List Transaction) (i : Instr),
    s.input = .command w :: rest ∧ decode w = .command i :=
  ⟨holding.present (.command 0x2280), 0x2280, [], .noteOff 69 0, rfl, by decide⟩

theorem witness_ReservedWordSetsIllegalOnly : ∃ (s : State) (w : CmdWord) (rest : List Transaction) (r : ReservedReason),
    s.input = .command w :: rest ∧ decode w = .reserved r :=
  ⟨holding.present (.command 0xC000), 0xC000, [], .opReserved, rfl, by decide⟩

theorem witness_StepWithoutInputHoldsTheState : holding.input = [] := rfl

theorem witness_ResetLoadsEveryRegister : (holding.present (.reset (some 0x8000))).input = .reset (some 0x8000) :: [] ∧
    (Cfg.ofPort (holding.present (.reset (some 0x8000))).cfgIn).legal = true := by decide +kernel

theorem witness_IllegalConfigurationIsRefusedAtReset :
    let s : State := { holding with cfgIn := 0, input := [.reset none] }
    s.input = .reset none :: [] ∧ (Cfg.ofPort s.cfgIn).legal = false ∧ refusalOf (step s) = some .refusedConfiguration := by
  decide +kernel

theorem witness_ConfigurationChangesOnlyAtReset : (nextOf (step (holding.present (.reset none)))).isSome = true ∧
    (nextOf (step holding)).isSome = true ∧ (holding.present (.driveCfg 5)).input = .driveCfg 5 :: [] := by decide +kernel

theorem witness_NoteOnClaimsTheFirstFreeSlot : ((Instr.noteOn 0 127).wellFormed = true ∧ State.reset.firstFree = some 0) ∧
    ((Instr.noteOn 127 0).wellFormed = true ∧ threeHeld.firstFree = some 3) ∧ full.firstFree = none := by decide

theorem witness_NoteOnIsDroppedWhenFull : ∀ i, (full.slots.get i).valid = true := by decide

theorem witness_NoteOffReleasesTheFirstMatch : full.firstMatch 60 = some 0 ∧ full.firstMatch 65 = some 3 ∧
    full.firstMatch 0 = none := by decide

theorem witness_UnmatchedNoteOffChangesNothing :
    (∀ i, ¬((full.slots.get i).valid = true ∧ (full.slots.get i).note.toNat = 67)) ∧
    (∀ i, ¬((State.reset.slots.get i).valid = true ∧ (State.reset.slots.get i).note.toNat = 0)) := by decide

theorem witness_NoteEventFrame : (nextOf (exec (.noteOn 60 1) holding)).isSome = true ∧
    (nextOf (exec (.noteOff 69 1) holding)).isSome = true ∧ holding.firstFree ≠ some 0 ∧ holding.firstMatch 69 ≠ some 1 := by
  decide

theorem witness_MatchingByFrequencyPicksTheSameSlot : 127 ≤ 127 ∧ holding.firstMatch 69 = some 0 := by decide

theorem witness_NoteToHzIsPositiveAndIncreasing : 0 < 127 ∧ 127 ≤ 127 := by decide

theorem witness_VelToGainIsVelocityOver127 : 0 < 127 ∧ 127 ≤ 127 := by decide

/-- The constant function 0.0 meets I-SIN, and 1.0 is finite. -/
theorem witness_SinMeetsItsProperties : F32.one.isFinite = true ∧
    (∀ x : F32, x.isFinite = true → F32.negOne.le ((fun _ => F32.zero) x) = true ∧ ((fun _ => F32.zero) x).le F32.one = true) ∧
    (fun _ : F32 => F32.zero) F32.zero = F32.zero :=
  ⟨by decide, fun _ _ => (by decide +kernel : F32.negOne.le F32.zero = true ∧ F32.zero.le F32.one = true), rfl⟩

/-- A function that meets I-EXP2: the table's nearest values. -/
theorem witness_Exp2MeetsItsProperties : MeetsIExp2 (exp2Within fun _ => F32.zero) where
  positive n hn := by
    have h : ∀ n < 128, ((exp2RowOf n).value F32.zero).isFinite = true ∧
        F32.zero.lt ((exp2RowOf n).value F32.zero) = true := by decide +kernel
    rw [exp2Within_note _ (by omega)]
    exact h n (by omega)
  powers := by decide +kernel
  increasing m n h hn := by
    have hs : ∀ n < 127, ((exp2RowOf n).value F32.zero).lt ((exp2RowOf (n + 1)).value F32.zero) = true := by decide +kernel
    rw [exp2Within_note _ (by omega), exp2Within_note _ (by omega)]
    induction n with
    | zero => omega
    | succ k ih =>
      have hk := hs k (by omega)
      rcases Nat.lt_or_ge m k with hl | hg
      · have := ih hl (by omega)
        rw [F32.lt_iff] at *
        exact ⟨this.1, hk.2.1, this.2.2.trans hk.2.2⟩
      · obtain rfl : m = k := by omega
        exact hk
  near n hn := near_exp2Within _ (by omega)

/-- 1.0 and 1.5 · 2^-24, whose sum lies above the midpoint: the finite case of the three operations. -/
theorem witness_AdditionRoundsToNearestEven : F32.one.isFinite = true ∧ (F32.mk 0x33C00000).isFinite = true ∧
    (F32.one.add ⟨0x33C00000⟩).isFinite = true ∧ F32.two.isFinite = true := by decide +kernel

/-- The same of a difference: 1.0 − 1.5 · 2^-25. -/
theorem witness_subtraction : (F32.one.sub ⟨0x33400000⟩).isFinite = true ∧ (F32.mk 0x33400000).isFinite = true := by
  decide +kernel

/-- The overflow bound, met exactly and missed by one last place: the greatest finite value plus 2^103, and plus the value
below 2^103. IEEE 754's overflow threshold for round to nearest (00_scope.md R13). -/
theorem witness_overflow : (F32.mk 0x7F7FFFFF).isFinite = true ∧ (F32.mk 0x73000000).isFinite = true ∧
    (F32.mk 0x7F7FFFFF).add ⟨0x73000000⟩ = ⟨0x7F800000⟩ ∧ (F32.mk 0x7F7FFFFF).add ⟨0x72FFFFFF⟩ = ⟨0x7F7FFFFF⟩ ∧
    (F32.mk 0xFF7FFFFF).sub ⟨0x73000000⟩ = ⟨0xFF800000⟩ ∧ (F32.mk 0xFF7FFFFF).mul F32.two = ⟨0xFF800000⟩ ∧
    (F32.mk 0x7F7FFFFF).div ⟨0x3F000000⟩ = ⟨0x7F800000⟩ := by decide +kernel

/-- Division by an infinity and by a zero. -/
theorem witness_division_ends : (F32.mk 0x7F800000).isInf = true ∧ F32.one.units ≠ 0 ∧ (F32.mk 0x80000000).units = 0 ∧
    F32.one.div ⟨0xFF800000⟩ = ⟨0x80000000⟩ ∧ F32.one.div ⟨0x80000000⟩ = ⟨0xFF800000⟩ := by decide +kernel

/-- Times so long that the product with SAMPLE_RATE overflows (41_envelope.md R146), also with SUSTAIN_LEVEL = -0.0. -/
theorem witness_LevelStepsAreNotNegative :
    let c : Cfg := { Cfg.reset with attackTime := ⟨0x7F7FFFFF⟩, decayTime := ⟨0x7F7FFFFF⟩, releaseTime := ⟨0x7F7FFFFF⟩ }
    c.legal = true ∧ (c.attackTime.mul c.sampleRate).isInf = true ∧
      ({ c with sustainLevel := ⟨0x80000000⟩ } : Cfg).legal = true := by decide +kernel

/-- A tie of subtraction: 1.0 − 2^-25 is as far from 1.0 as from the value below. -/
theorem witness_subtraction_tie : F32.one.sub ⟨0x33000000⟩ = F32.one ∧
    |(F32.one.sub ⟨0x33000000⟩).units - (F32.one.units - (F32.mk 0x33000000).units)| =
      |(F32.mk 0x3F7FFFFF).units - (F32.one.units - (F32.mk 0x33000000).units)| := by decide +kernel

/-- Both ends of the range. -/
theorem witness_SmallIntegersConvertExactly : |(-16777216 : Int)| ≤ 2 ^ 24 ∧ |(16777216 : Int)| ≤ 2 ^ 24 := by decide

/-- A tie of addition: 1.0 + 2^-24 is as far from 1.0 as from the next value. -/
theorem witness_addition_tie : F32.one.add ⟨0x33800000⟩ = F32.one ∧
    |(F32.one.add ⟨0x33800000⟩).units - (F32.one.units + (F32.mk 0x33800000).units)| =
      |(F32.mk 0x3F800001).units - (F32.one.units + (F32.mk 0x33800000).units)| ∧
    (F32.mk 0x3F800001).units ≠ (F32.one.add ⟨0x33800000⟩).units := by decide +kernel

theorem witness_MultiplicationRoundsToNearestEven : (F32.mk 0x3F800001).isFinite = true ∧
    ((F32.mk 0x3F800001).mul ⟨0x3F800001⟩).isFinite = true ∧ F32.two.isFinite = true := by decide +kernel

/-- A tie of multiplication: 3 · 2^-149 times 0.5. -/
theorem witness_multiplication_tie :
    |((F32.mk 3).mul ⟨0x3F000000⟩).units * 2 ^ 149 - (F32.mk 3).units * (F32.mk 0x3F000000).units| =
      |(F32.mk 1).units * 2 ^ 149 - (F32.mk 3).units * (F32.mk 0x3F000000).units| ∧
    (F32.mk 1).units ≠ ((F32.mk 3).mul ⟨0x3F000000⟩).units ∧ (F32.mk 3).isFinite = true := by decide +kernel

theorem witness_DivisionRoundsToNearestEven : F32.one.isFinite = true ∧ (F32.mk 0x40400000).isFinite = true ∧
    (F32.mk 0x40400000).units ≠ 0 ∧ (F32.one.div ⟨0x40400000⟩).isFinite = true ∧ F32.two.isFinite = true := by decide +kernel

/-- A tie of division: 3 · 2^-149 over 2.0. -/
theorem witness_division_tie :
    |((F32.mk 3).div F32.two).units * F32.two.units - (F32.mk 3).units * 2 ^ 149| =
      |(F32.mk 1).units * F32.two.units - (F32.mk 3).units * 2 ^ 149| ∧
    (F32.mk 1).units ≠ ((F32.mk 3).div F32.two).units ∧ F32.two.units ≠ 0 := by decide +kernel

/-- Both clauses of the phase's pseudocode at SAMPLE_RATE 2.5 (V-OSC-4): 2.0 wraps, 0.5 does not. -/
theorem witness_phase_non_integer : (F32.mk 0x40200000).le ((F32.mk 0x40000000).add ⟨0x3F800000⟩) = true ∧
    (F32.mk 0x40200000).le ((F32.mk 0x3F000000).add ⟨0x3F800000⟩) = false := by decide +kernel

/-- An oscillator one sample before the wrap at SAMPLE_RATE 44100.0. -/
def lastPhase : Osc := { phase := ⟨0x472C4300⟩, freq := ⟨0x43DC0000⟩, wave := .sine }

theorem witness_PhaseCountsModuloTheSampleRate : Cfg.reset.legal = true ∧ wholeNumber Cfg.reset.sampleRate = true ∧
    OscInv Cfg.reset lastPhase :=
  ⟨by decide +kernel, by decide +kernel,
    ⟨by decide +kernel, by decide +kernel, fun _ => by decide +kernel, by decide +kernel, by decide +kernel⟩⟩

/-- SAMPLE_RATE 2.5 (V-OSC-4). -/
theorem witness_PhaseStaysBelowTheSampleRate :
    let c : Cfg := { Cfg.reset with sampleRate := ⟨0x40200000⟩ }
    c.legal = true ∧ OscInv c { lastPhase with phase := ⟨0x40000000⟩ } :=
  ⟨by decide +kernel, ⟨by decide +kernel, by decide +kernel, fun _ => by decide +kernel, by decide +kernel, by decide +kernel⟩⟩

theorem witness_SineSampleIsTheToneAtTheNewPhase : lastPhase.wave = .sine := rfl

theorem witness_HarmonicsStopAtTheNyquistFrequency : Cfg.reset.legal = true ∧ F32.zero.lt ⟨0x43DC0000⟩ = true ∧
    ((1 : Nat) = 1 ∨ (1 : Nat) = 2) ∧ ((2 : Nat) = 1 ∨ (2 : Nat) = 2) := by decide +kernel

theorem witness_HarmonicSumIsTheLoop : ({ lastPhase with wave := .square } : Osc).wave = .square ∧
    ({ lastPhase with wave := .saw } : Osc).wave = .saw ∧ ({ lastPhase with wave := .triangle } : Osc).wave = .triangle := by decide

theorem witness_HarmonicLoopEnds : Cfg.reset.legal = true ∧ F32.zero.lt ⟨0x00000001⟩ = true ∧ 0 < 2 := by decide +kernel

theorem witness_EnvelopeNoteEvents : holding.voices.v0.env.state ≠ .idle ∧ holding.voices.v1.env.state = .idle := by decide

/-- Each guarded clause: the states, and both outcomes of each state's test. -/
theorem witness_EnvelopeTickFollowsItsState :
    F32.one.le ((F32.mk 0x3F400000).add (attackInc cfgE1)) = true ∧
    F32.one.le ((F32.mk 0x3F000000).add (attackInc cfgE1)) = false ∧
    ((F32.mk 0x3F200000).sub (decayDec cfgE1)).le cfgE1.sustainLevel = true ∧
    ((F32.mk 0x3F400000).sub (decayDec cfgE1)).le cfgE1.sustainLevel = false ∧
    ((F32.mk 0x3E000000).sub (releaseDec cfgE1)).le F32.zero = true ∧
    ((F32.mk 0x3E800000).sub (releaseDec cfgE1)).le F32.zero = false := by decide +kernel

theorem witness_EnvelopeTickTransitions : (envTick cfgE1 holding.voices.v0.env).1.state = .sustain := by decide

/-- An envelope in each state. -/
theorem witness_AmplitudeStaysInItsStatesRange : cfgE1.legal = true ∧
    EnvInv cfgE1 { state := .attack, amp := ⟨0x3F000000⟩, elapsed := 0 } ∧
    EnvInv cfgE1 { state := .decay, amp := ⟨0x3F000000⟩, elapsed := 0 } ∧
    EnvInv cfgE1 { state := .release, amp := ⟨0x3F800000⟩, elapsed := 0 } :=
  ⟨by decide +kernel,
    ⟨by decide +kernel, by decide +kernel, nofun, nofun, nofun⟩,
    ⟨by decide +kernel, by decide +kernel, nofun, fun _ => by decide +kernel, nofun⟩,
    ⟨by decide +kernel, by decide +kernel, nofun, nofun, nofun⟩⟩

theorem witness_SustainLevelOneDecaysInOneTick :
    ({ cfgE1 with sustainLevel := F32.one } : Cfg).legal = true ∧
    ({ state := .decay, amp := F32.one, elapsed := 0 } : Env).state = .decay := by decide +kernel

/-- Both clauses: a Release at 0.5 and one at 0.0. -/
theorem witness_SustainLevelZeroStallsRelease :
    let c : Cfg := { cfgE1 with sustainLevel := F32.zero }
    c.legal = true ∧
    (EnvInv c { state := .release, amp := ⟨0x3F000000⟩, elapsed := 0 } ∧ F32.zero.lt ⟨0x3F000000⟩ = true) ∧
    (EnvInv c { state := .release, amp := F32.zero, elapsed := 0 } ∧ F32.zero.lt F32.zero = false) :=
  ⟨by decide +kernel,
    ⟨⟨by decide +kernel, by decide +kernel, nofun, nofun, nofun⟩, by decide +kernel⟩,
    ⟨⟨by decide +kernel, by decide +kernel, nofun, nofun, nofun⟩, by decide +kernel⟩⟩

theorem witness_VoiceTickIsTheGatedProduct : Cfg.reset.gainScaling = false ∧
    ({ Cfg.reset with gainScaling := true } : Cfg).gainScaling = true := by decide

theorem witness_TickMixesEveryVoice : wrapping.cfg.legal = true ∧
    (∀ i, (wrapping.voices.get i).osc.wave = .sine ∨ F32.zero.lt (wrapping.voices.get i).osc.freq = true) := by decide +kernel

theorem witness_TickFrame : (nextOf (exec .tick holding)).isSome = true := by decide

theorem witness_TickStopsOnlyOnABrokenPrecondition : ({ holding with cfg := { Cfg.reset with sampleRate := ⟨0⟩ } } : State).cfg.legal = false ∧
    (hanging.cfg.legal = true ∧
      ∃ i, (hanging.voices.get i).osc.wave ≠ .sine ∧ F32.zero.lt (hanging.voices.get i).osc.freq = false) ∧
    (wrapping.cfg.legal = true ∧ ∀ i, (wrapping.voices.get i).osc.wave = .sine ∨
      F32.zero.lt (wrapping.voices.get i).osc.freq = true) := by decide +kernel

theorem witness_VoicesDoNotInterfere : hanging.cfg = holding.cfg ∧ State.reset.voices.get 1 = holding.voices.get 1 ∧
    State.reset.voices ≠ holding.voices ∧ (nextOf (exec .tick State.reset)).isSome = true ∧
    (nextOf (exec .tick holding)).isSome = true := by decide

theorem witness_GainIsSilentWithoutGainScaling : holding.cfg.gainScaling = false ∧ (nextOf (exec .tick holding)).isSome = true ∧
    (nextOf (exec .tick { holding with voices := ⟨{ holding.voices.v0 with gain := ⟨0⟩ }, holding.voices.v1,
      holding.voices.v2, holding.voices.v3⟩ })).isSome = true := by decide

theorem witness_StatusDoesNotInfluenceCommands : (nextOf (exec .tick holding)).isSome = true ∧
    faultOf (exec .tick hanging) = some .oscFrequencyPrecondition ∧
    refusalOf (exec .tick { holding with cfg := { Cfg.reset with sampleRate := ⟨0⟩ } }) = some .refusedConfiguration := by decide

/-- A step that writes each kind of register. -/
theorem witness_RegistersHaveOnlyTheirWriters :
    (nextOf (step (holding.present (.command 0xC000)))).map (fun t => decide (t.status ≠ holding.status)) = some true ∧
    (nextOf (step (holding.present (.command 0x8000)))).map
      (fun t => decide (t.emitted ≠ holding.emitted ∧ t.voices.v0.osc.phase ≠ holding.voices.v0.osc.phase)) = some true ∧
    (nextOf (step (holding.present (.command 0x2280)))).map (fun t => decide (t.slots ≠ holding.slots)) = some true ∧
    (nextOf (step (holding.present (.command 0x8103)))).map
      (fun t => decide (t.voices.v0.osc.wave ≠ holding.voices.v0.osc.wave)) = some true ∧
    (nextOf (step (holding.present (.command 0x62FF)))).map
      (fun t => decide (t.voices.v1.gain ≠ holding.voices.v1.gain ∧ t.voices.v1.env.state ≠ holding.voices.v1.env.state)) =
        some true ∧
    (nextOf (step (wrapping.present (.command 0x8000)))).map
      (fun t => decide (t.voices.v0.env.amp ≠ wrapping.voices.v0.env.amp ∧
        t.voices.v0.env.elapsed ≠ wrapping.voices.v0.env.elapsed)) = some true := by decide +kernel

/-- The clause of ReservedWordSetsIllegalOnly that the flag is sticky. -/
theorem witness_illegal_is_sticky : (nextOf (step { holding with status := 0x0001 })).isSome = true ∧
    ({ holding with status := 0x0001 } : State).illegal = true := by decide

/-- A state that is not the reset state and meets the invariant. -/
theorem holding_inv : holding.Inv where
  legal := by decide +kernel
  voice i := by
    fin_cases i
    · exact ⟨⟨by decide +kernel, by decide +kernel, fun _ => by decide +kernel, by decide +kernel, by decide +kernel⟩,
        ⟨by decide +kernel, by decide +kernel, nofun, nofun, fun _ => rfl⟩, by decide +kernel,
        by decide +kernel⟩
    all_goals
      exact ⟨⟨by decide +kernel, by decide +kernel, fun _ => by decide +kernel, by decide +kernel, by decide +kernel⟩,
        ⟨by decide +kernel, by decide +kernel, fun _ => rfl, nofun, nofun⟩, by decide +kernel,
        by decide +kernel⟩
  slot i := by
    fin_cases i
    · exact ⟨fun _ => .inr (.inr rfl), fun _ => by decide +kernel, fun _ => by decide +kernel, nofun,
        nofun, nofun⟩
    all_goals exact ⟨nofun, nofun, nofun, fun _ => .inl rfl, fun _ => rfl, fun _ => rfl⟩
  status := by decide
  sample_finite := by decide
  emitted_finite := by decide
  emitted_last := by decide

theorem witness_SecondPressTakesASecondSlot : 69 ≤ 127 ∧ SlotInv (holding.slots.get 0) (holding.voices.get 0) ∧
    (holding.slots.get 0).valid = true ∧ (holding.slots.get 0).note.toNat = 69 ∧
    (∀ k, k ≠ 0 → ¬((holding.slots.get k).valid = true ∧ (holding.slots.get k).note.toNat = 69)) ∧
    holding.firstFree = some 1 :=
  ⟨by decide, holding_inv.slot 0, by decide, by decide, by decide, by decide⟩

/-- With a command to run, under the invariant. -/
theorem witness_StepKeepsTheInvariant : (holding.present (.command 0x2280)).Inv ∧
    (nextOf (step (holding.present (.command 0x2280)))).isSome = true :=
  ⟨⟨holding_inv.legal, holding_inv.voice, holding_inv.slot, holding_inv.status, holding_inv.sample_finite,
    holding_inv.emitted_finite, holding_inv.emitted_last⟩, by decide⟩

theorem witness_TheBlockCannotFail : (holding.present (.reset none)).Inv ∧
    (Cfg.ofPort (holding.present (.reset none)).cfgIn).legal = true :=
  ⟨⟨holding_inv.legal, holding_inv.voice, holding_inv.slot, holding_inv.status, holding_inv.sample_finite,
    holding_inv.emitted_finite, holding_inv.emitted_last⟩, by decide +kernel⟩

/-- Every voice Idle, under the invariant: `holding` with its note released and ended. -/
theorem witness_IdleTickEmitsPositiveZero :
    let s : State := { holding with
      voices := { holding.voices with v0 := voiceIn ⟨0x40A00000⟩ .saw .idle ⟨0⟩ ⟨0x3F800000⟩ }
      slots := State.reset.slots }
    s.Inv ∧ ∀ i, (s.voices.get i).env.state = .idle := by
  refine ⟨⟨by decide +kernel, fun i => ?_, fun i => ?_, by decide, by decide, by decide, by decide⟩, by decide⟩
  · fin_cases i <;>
      exact ⟨⟨by decide +kernel, by decide +kernel, fun _ => by decide +kernel, by decide +kernel, by decide +kernel⟩,
        ⟨by decide +kernel, by decide +kernel, fun _ => rfl, nofun, nofun⟩, by decide +kernel,
        by decide +kernel⟩
  · fin_cases i <;>
      exact ⟨nofun, nofun, nofun, fun _ => .inl rfl, fun _ => rfl, fun _ => rfl⟩

end Sys2Proof.Tests
end

section
/-! PROOFS. The statements of 00_scope.md: a result that is not NaN and whose units are a rounded quotient is the nearest value
or an infinity on overflow, whatever operation made it; each operation's statement is that fact at its own exact value. -/

namespace Sys2Proof

/-! ## Results that are rounded quotients -/

/-- The magnitude bits of a value whose units are a rounded quotient are the rounded magnitude. -/
theorem F32.mag_of_units_eq_roundUnits {r : F32} {v : Int} {d : Nat} (hu : r.units = F32.roundUnits v d) :
    r.mag = F32.roundMag v.natAbs d := by
  refine F32.magUnits_inj ?_
  rw [← F32.natAbs_units, hu]
  unfold F32.roundUnits
  split
  · rw [Int.natAbs_neg, Int.natAbs_natCast]
  · rw [Int.natAbs_natCast]

/-- A finite rounded quotient is at least as near the exact one as any other value, and on a tie its significand is even. -/
theorem F32.nearest_of_units_eq_roundUnits {r : F32} {v : Int} {d : Nat} (hd : 0 < d) (hu : r.units = F32.roundUnits v d)
    (hf : r.isFinite = true) (c : F32) :
    |r.units * d - v| ≤ |c.units * d - v| ∧
      (|r.units * d - v| = |c.units * d - v| → c.units ≠ r.units → r.mag % 2 = 0) := by
  rw [F32.isFinite_iff] at hf
  have hm := F32.mag_of_units_eq_roundUnits hu
  rw [hm] at hf ⊢
  rw [hu]
  exact F32.roundUnits_nearest hd hf c

/-- A rounded quotient is infinite exactly from (2^25 − 1) · 2^252 units on. -/
theorem F32.isInf_iff_of_units_eq_roundUnits {r : F32} {v : Int} {d : Nat} (hd : 0 < d)
    (hu : r.units = F32.roundUnits v d) : r.isInf = true ↔ (2 ^ 25 - 1) * 2 ^ 252 * (d : Int) ≤ |v| := by
  have hcast : (2 ^ 25 - 1) * 2 ^ 252 * (d : Int) = ((2 ^ 25 - 1) * 2 ^ 252 * d : Nat) := by
    rw [Nat.cast_mul]; norm_num
  rw [F32.isInf_iff, F32.mag_of_units_eq_roundUnits hu, F32.roundMag_eq_infMag hd, ← Int.natCast_natAbs, hcast,
    Int.ofNat_le]

/-- A nonzero rounded quotient has the sign of the exact one. -/
theorem F32.sign_of_units_eq_roundUnits {r : F32} {v : Int} {d : Nat} (hu : r.units = F32.roundUnits v d)
    (h0 : r.units ≠ 0) : r.sign = decide (v < 0) := by
  rcases lt_or_ge v 0 with hv | hv
  · have := F32.roundUnits_nonpos (d := d) hv.le
    rw [F32.sign_of_units_neg (by omega), decide_eq_true hv]
  · have := F32.roundUnits_nonneg (d := d) hv
    rw [F32.sign_of_units_pos (by omega), decide_eq_false (not_lt.2 hv)]

theorem F32.units_ne_zero_of_isInf {r : F32} (h : r.isInf = true) : r.units ≠ 0 := by
  rw [F32.isInf_iff] at h
  rw [Ne, F32.units_eq_zero_iff, h]
  decide

/-- What a rounded quotient can be: not NaN, infinite exactly where rounding overflows, and then of the exact sign. -/
theorem F32.overflow_of_units_eq_roundUnits {r : F32} {v : Int} {d : Nat} (hd : 0 < d)
    (h : r.isNaN = false ∧ r.units = F32.roundUnits v d) :
    r.isNaN = false ∧ (r.isInf = true ↔ (2 ^ 25 - 1) * 2 ^ 252 * (d : Int) ≤ |v|) ∧
      (r.isInf = true → r.sign = decide (v < 0)) :=
  ⟨h.1, F32.isInf_iff_of_units_eq_roundUnits hd h.2,
    fun hi => F32.sign_of_units_eq_roundUnits h.2 (F32.units_ne_zero_of_isInf hi)⟩

/-! ## The exact quotient, scaled by its divisor -/

/-- The error of a quotient, counted over |b| or over b. -/
theorem abs_error_over_natAbs (q a s : Int) {b : Int} (hb : b ≠ 0) :
    |q * (b.natAbs : Int) - a * b.sign * s| = |q * b - a * s| := by
  rcases lt_or_gt_of_ne hb with h | h
  · rw [Int.sign_eq_neg_one_of_neg h, Int.ofNat_natAbs_of_nonpos h.le, ← abs_neg]
    congr 1; ring
  · rw [Int.sign_eq_one_of_pos h, Int.natAbs_of_nonneg h.le, mul_one]

theorem abs_mul_sign (a : Int) {b : Int} (hb : b ≠ 0) : |a * b.sign| = |a| := by
  rw [abs_mul, Int.abs_sign_of_ne_zero hb, mul_one]

theorem mul_two_pow_neg_iff (a : Int) (n : Nat) : a * 2 ^ n < 0 ↔ a < 0 :=
  ⟨fun h => neg_of_mul_neg_left h (by positivity), fun h => mul_neg_of_neg_of_pos h (by positivity)⟩

/-- a · sign b is negative exactly where a · b is. -/
theorem mul_sign_neg_iff (a b : Int) : a * b.sign < 0 ↔ a * b < 0 := by
  rw [← Int.sign_eq_neg_one_iff_neg, ← Int.sign_eq_neg_one_iff_neg (a := a * b), Int.sign_mul, Int.sign_mul, Int.sign_sign]

/-! ## Division by an infinity and by a zero -/

/-- A finite value over an infinity is the zero of the combined sign. -/
theorem F32.div_inf_eq {a b : F32} (ha : a.isFinite = true) (hb : b.isInf = true) :
    a.div b = F32.ofSignMag (a.sign != b.sign) 0 := by
  have hm := (F32.isInf_iff b).1 hb
  have hn : b.isNaN = false := (F32.isNaN_false b).2 hm.le
  have hz : b.isZero = false := by simp [F32.isZero, hm, F32.infMag]
  simp [F32.div, F32.isNaN_of_isFinite ha, F32.isInf_of_isFinite ha, hn, hb, hz]

/-- A finite nonzero value over a zero is the infinity of the combined sign. -/
theorem F32.div_zero_eq {a b : F32} (ha : a.isFinite = true) (h0 : a.units ≠ 0) (hb : b.units = 0) :
    a.div b = F32.ofSignMag (a.sign != b.sign) F32.infMag := by
  have hz : a.isZero = false := by rw [Ne, F32.units_eq_zero_iff] at h0; simp [F32.isZero, h0]
  rw [F32.units_eq_zero_iff] at hb
  have hn : b.isNaN = false := (F32.isNaN_false b).2 (by rw [hb]; exact Nat.zero_le _)
  have hbz : b.isZero = true := (F32.isZero_iff b).2 hb
  simp [F32.div, F32.isNaN_of_isFinite ha, F32.isInf_of_isFinite ha, hn, hz, hbz]

/-! ## Addition, multiplication, division -/

/-- Settles O30: a finite sum and a finite difference are the exact ones, rounded once. -/
theorem additionRoundsToNearestEven : Obligations.AdditionRoundsToNearestEven := by
  refine ⟨fun a b c ha hb hf _ => ?_, fun a b c ha hb hf _ => ?_, fun a b ha hb => ?_, fun a b ha hb => ?_⟩
  · simpa only [Nat.cast_one, mul_one] using
      F32.nearest_of_units_eq_roundUnits one_pos (F32.add_finite ha hb).2 hf c
  · simpa only [Nat.cast_one, mul_one] using
      F32.nearest_of_units_eq_roundUnits one_pos (F32.sub_finite ha hb).2 hf c
  · simpa only [Nat.cast_one, mul_one] using F32.overflow_of_units_eq_roundUnits one_pos (F32.add_finite ha hb)
  · simpa only [Nat.cast_one, mul_one] using F32.overflow_of_units_eq_roundUnits one_pos (F32.sub_finite ha hb)

/-- Settles O31: a finite product, in units of 2^-298, is the exact one over 2^149, rounded once. -/
theorem multiplicationRoundsToNearestEven : Obligations.MultiplicationRoundsToNearestEven := by
  have hd : 0 < 2 ^ 149 := by positivity
  refine ⟨fun a b c ha hb hf _ => ?_, fun a b ha hb => ?_⟩
  · simpa only [Nat.cast_pow, Nat.cast_ofNat] using
      F32.nearest_of_units_eq_roundUnits hd (F32.mul_finite ha hb).2 hf c
  · simpa only [Nat.cast_pow, Nat.cast_ofNat] using F32.overflow_of_units_eq_roundUnits hd (F32.mul_finite ha hb)

/-- Settles O32: a finite quotient by a nonzero finite divisor is the exact one, a · sign b over |b|, rounded once. -/
theorem divisionRoundsToNearestEven : Obligations.DivisionRoundsToNearestEven := by
  refine ⟨fun a b c ha hb h0 hf _ => ?_, fun a b ha hb h0 => ?_, fun a b ha hb => ?_, fun a b ha h0 hb => ?_⟩
  · simpa only [abs_error_over_natAbs _ _ _ h0] using
      F32.nearest_of_units_eq_roundUnits (Int.natAbs_pos.2 h0) (F32.div_finite ha hb h0).2 hf c
  · have hpow : (0 : Int) < 2 ^ 149 := by positivity
    have hneg : a.units * b.units.sign * 2 ^ 149 < 0 ↔ a.units * b.units < 0 := by
      rw [mul_two_pow_neg_iff, mul_sign_neg_iff]
    have habs : |a.units * b.units.sign * 2 ^ 149| = |a.units| * 2 ^ 149 := by
      rw [abs_mul, abs_mul_sign _ h0, abs_of_pos hpow]
    simpa only [Int.natCast_natAbs, hneg, habs] using
      F32.overflow_of_units_eq_roundUnits (Int.natAbs_pos.2 h0) (F32.div_finite ha hb h0)
  · rw [F32.div_inf_eq ha hb]
    exact ⟨(F32.isZero_iff _).2 (F32.mag_ofSignMag _ (by norm_num)), F32.sign_ofSignMag _ (by norm_num)⟩
  · have hlt : F32.infMag < 2 ^ 31 := by decide
    rw [F32.div_zero_eq ha h0 hb]
    exact ⟨(F32.isInf_iff _).2 (F32.mag_ofSignMag _ hlt), F32.sign_ofSignMag _ hlt⟩

/-! ## Conversion of integers -/

theorem F32.ofInt_eq_roundInt (k : Int) : F32.ofInt k = F32.roundInt (k * 2 ^ 149) := by
  unfold F32.ofInt F32.roundInt
  simp only [mul_two_pow_neg_iff, Int.natAbs_mul, Int.natAbs_pow]
  rfl

theorem F32.isNaN_ofInt (k : Int) : (F32.ofInt k).isNaN = false := F32.isNaN_round _ _ _

/-- The integers of magnitude at most 2^24 are representable. -/
theorem F32.units_ofInt_of_abs_le {k : Int} (h : |k| ≤ 2 ^ 24) : (F32.ofInt k).units = k * 2 ^ 149 := by
  rw [F32.ofInt_eq_roundInt, F32.units_roundInt]
  obtain ⟨n, rfl | rfl⟩ := Int.eq_nat_or_neg k
  · have hn : n ≤ 2 ^ 24 := by rw [Nat.abs_cast] at h; exact_mod_cast h
    exact_mod_cast F32.roundUnits_whole hn
  · have hn : n ≤ 2 ^ 24 := by rw [abs_neg, Nat.abs_cast] at h; exact_mod_cast h
    rw [Int.neg_mul, F32.roundUnits_neg]
    exact_mod_cast congrArg Neg.neg (F32.roundUnits_whole hn)

/-- f32 of an integer of magnitude at most 2^24 is at most 2^24, which is 2^173 units. -/
theorem F32.bounded_ofInt {k : Int} (h : |k| ≤ 2 ^ 24) : (F32.ofInt k).Bounded 173 where
  notNaN := F32.isNaN_ofInt k
  bound := by
    have hpow : (0 : Int) < 2 ^ 149 := by positivity
    rw [F32.units_ofInt_of_abs_le h, abs_mul, abs_of_pos hpow]
    calc |k| * 2 ^ 149 ≤ 2 ^ 24 * 2 ^ 149 := mul_le_mul_of_nonneg_right h hpow.le
      _ = 2 ^ 173 := by rw [← pow_add]

theorem F32.ofNat_eq_ofInt (k : Nat) : F32.ofNat k = F32.ofInt k := by
  unfold F32.ofNat F32.ofInt
  rw [decide_eq_false (not_lt.2 (Int.natCast_nonneg k)), Int.natAbs_natCast]

/-- Settles O59: the whole numbers up to 2^24 and their negatives are representable, so rounding keeps them. -/
theorem smallIntegersConvertExactly : Obligations.SmallIntegersConvertExactly :=
  ⟨fun _ hk => ⟨(F32.bounded_ofInt hk).isFinite (by norm_num), F32.units_ofInt_of_abs_le hk⟩, F32.ofNat_eq_ofInt⟩

/-! ## SIN -/

/-- The filter leaves a free function alone that has I-SIN's properties. -/
theorem sinWithin_eq_self {f : F32 → F32} (hf : ∀ x, x.isFinite = true → sinAdmits (f x) = true)
    (h0 : f F32.zero = F32.zero) : sinWithin f = f := by
  funext x
  unfold sinWithin
  by_cases hx : x.isFinite = true
  · by_cases hz : x = F32.zero
    · simp [hz, h0]
    · simp [hx, hz, hf x hx]
  · simp [hx]

/-- Settles O28: SIN's bounds hold whatever the free function is, and they are all that the filter asks for. -/
theorem sinMeetsItsProperties : Obligations.SinMeetsItsProperties := by
  refine ⟨fun x hx => ?_, F32.sin_zero_eq, fun f hf h0 => ?_⟩
  · obtain ⟨hn, hlo, hhi⟩ := F32.sin_units hx
    refine ⟨(Machine.bounded_sin hx).isFinite (by norm_num), ?_, ?_⟩
    · rw [F32.le_iff, F32.units_negOne]; exact ⟨F32.isNaN_negOne, hn, hlo⟩
    · rw [F32.le_iff, F32.units_one]; exact ⟨hn, F32.isNaN_one, hhi⟩
  · exact sinWithin_eq_self (fun x hx => by simp [sinAdmits, hf x hx]) h0

/-! ## EXP2 -/

namespace Machine

/-- Ten notes an octave apart have the integers −5 to 4 as their arguments. -/
theorem noteExponent_octave : ∀ k : Nat, k < 10 → noteExponent (9 + 12 * k) = F32.ofInt ((k : Int) - 5) := by
  decide +kernel

/-- At the ten integer arguments the table admits one value. -/
theorem exp2Rows_octave : ∀ k : Nat, k < 10 →
    (exp2RowOf (9 + 12 * k)).least = (exp2RowOf (9 + 12 * k)).greatest := by
  decide +kernel

/-- EXP2 of a note's argument is positive. -/
theorem exp2_units_pos {n : Nat} (h : n < 128) : 0 < (noteExponent n).exp2.units := by
  obtain ⟨hpos, -, -, -⟩ := exp2Rows_ordered n h
  have hle := exp2Row_le n h
  obtain ⟨-, hu, -⟩ := exp2_units h
  have hlt : (exp2RowOf n).least.toNat < F32.infMag :=
    lt_of_le_of_lt hle (exp2Rows_ordered n h).2.2.2
  obtain ⟨hs, hm⟩ := F32.mag_of_small hlt
  have h0 := F32.units_nonneg hs
  have hne : (F32.mk (exp2RowOf n).least).units ≠ 0 := by rw [Ne, F32.units_eq_zero_iff, hm]; omega
  omega

/-- EXP2 is strictly increasing on the notes' arguments, since its rounded multiple by 440.0 is. -/
theorem exp2_units_lt {m n : Nat} (hmn : m < n) (hn : n < 128) :
    (noteExponent m).exp2.units < (noteExponent n).exp2.units := by
  by_contra hc
  have hle := a4Hz_mul_mono (exp2_units hn).1 (exp2_units (hmn.trans hn)).1 (not_lt.1 hc)
  exact absurd (noteToHz_units_lt hmn hn) (not_lt.2 hle)

/-- EXP2 is exact at the integer arguments. -/
theorem exp2_units_octave {k : Nat} (hk : k < 10) : (F32.ofInt ((k : Int) - 5)).exp2.units = 2 ^ (144 + k) := by
  have hn : 9 + 12 * k < 128 := by omega
  have hr := exp2Rows_octave k hk
  obtain ⟨j, -, hj, -, -, hu⟩ := exp2Rows_integer _ hn hr
  obtain rfl : k = j := by omega
  rw [← noteExponent_octave k hk]
  unfold F32.exp2
  rw [exp2Within_integer _ hn hr, hu]

/-- EXP2 has I-EXP2's properties, whatever the free function is. -/
theorem meetsIExp2_exp2 : MeetsIExp2 F32.exp2 where
  positive n hn := by
    have hf := (exp2_units (n := n) (by omega)).1
    rw [F32.lt_iff, F32.units_zero]
    exact ⟨hf, F32.isNaN_zero, F32.isNaN_of_isFinite hf, exp2_units_pos (by omega)⟩
  powers _ hk := exp2_units_octave hk
  increasing m n hmn hn := by
    rw [F32.lt_iff]
    exact ⟨F32.isNaN_of_isFinite (exp2_units (by omega)).1, F32.isNaN_of_isFinite (exp2_units (by omega)).1,
      exp2_units_lt hmn (by omega)⟩
  near n hn := near_exp2Within Config.rawExp2 (by omega)

/-- A function with property 2 has the row's one value at an integer argument. -/
theorem MeetsIExp2.eq_nearest {f : F32 → F32} (hf : MeetsIExp2 f) {n : Nat} (hn : n < 128)
    (hr : (exp2RowOf n).least = (exp2RowOf n).greatest) : f (noteExponent n) = ⟨(exp2RowOf n).nearest⟩ := by
  obtain ⟨k, hk, -, hx, -, hu⟩ := exp2Rows_integer n hn hr
  have hpow : (f (noteExponent n)).units = 2 ^ (144 + k) := hx ▸ hf.powers k hk
  exact F32.eq_of_units_ne_zero (by rw [hpow]; positivity) (hpow.trans hu.symm)

/-- A function with property 4 is within the row's bounds at any other argument. -/
theorem MeetsIExp2.between {f : F32 → F32} (hf : MeetsIExp2 f) {n : Nat} (hn : n < 128)
    (hr : (exp2RowOf n).least ≠ (exp2RowOf n).greatest) :
    (exp2RowOf n).least ≤ (f (noteExponent n)).bits ∧ (f (noteExponent n)).bits ≤ (exp2RowOf n).greatest := by
  obtain ⟨hfin, hpos⟩ := hf.positive n (by omega)
  rw [F32.lt_iff, F32.units_zero] at hpos
  exact (exp2Row_near_iff hn hr hfin (F32.sign_of_units_pos hpos.2.2)).2 (hf.near n (by omega))

/-- The filter leaves a free function alone that has I-EXP2's properties. -/
theorem MeetsIExp2.exp2Within_eq_self {f : F32 → F32} (hf : MeetsIExp2 f) : exp2Within f = f := by
  funext x
  by_cases hx : ∃ n < 128, x = noteExponent n
  · obtain ⟨n, hn, rfl⟩ := hx
    by_cases hr : (exp2RowOf n).least = (exp2RowOf n).greatest
    · rw [exp2Within_integer f hn hr, hf.eq_nearest hn hr]
    · rw [exp2Within_note f hn, Exp2Row.value, if_neg hr, if_pos (hf.between hn hr)]
  · exact exp2Within_other f fun n hn h => hx ⟨n, hn, h⟩

/-- Settles O29: the table's intervals give EXP2 the four properties, and no function that has them leaves the intervals. -/
theorem exp2MeetsItsProperties : Obligations.Exp2MeetsItsProperties :=
  ⟨meetsIExp2_exp2, noteExponent_octave, fun _ hf => hf.exp2Within_eq_self⟩

end Machine

end Sys2Proof
end

section
/-! PROOFS. The registers of 10_state.md from one step to the next: which transactions write which registers, and the
invariant that every step keeps. First the facts both rest on: a decoded word is its command's own word, what a command can
make of one voice, and that a tick keeps the ranges of a phase and of an amplitude. -/

namespace Sys2Proof

/-! ## Decoded words -/

/-- The word of SET_WAVEFORM as a number (R79, R83). -/
theorem encodeWave_toNat : ∀ c : BitVec 2, (encodeSystem 0b000001 ((0b000000#6) ++ c)).toNat = 0x8100 + c.toNat := by
  decide

/-- The system words of R81 are the words of TICK and SET_WAVEFORM. -/
theorem wellFormed_encode_of_decodeSystem {w : CmdWord} {i : Instr} (h : decodeSystem w = .command i) :
    i.wellFormed = true ∧ encode i = w := by
  unfold decodeSystem at h
  split at h
  · next h0 =>
    cases h
    exact ⟨rfl, h0.symm⟩
  · split at h
    · next hp =>
      cases h
      refine ⟨rfl, BitVec.eq_of_toNat_eq ?_⟩
      have hhead : w.toNat / 2 ^ 2 = 0x2040 := by rw [← systemPrefix_toNat, hp]; rfl
      have hwave := waveField_toNat w
      rw [encode, code_ofCode, encodeWave_toNat]
      omega
    · split at h <;> cases h

/-- A format N word is its operation code and its two fields (R78). -/
theorem encodeNote_fields {w : CmdWord} {op : BitVec 2} (h : opField w = op) :
    encodeNote op (noteField w) (velField w) = w := by
  have hn : noteField w < 2 ^ 7 := (w.extractLsb' 7 7).isLt
  have hv : velField w < 2 ^ 7 := (w.extractLsb' 0 7).isLt
  apply BitVec.eq_of_toNat_eq
  rw [encodeNote_toNat op (by omega) (by omega), ← h, opField_toNat, noteField_eq, velField_eq]
  omega

/-- A field of seven bits is in the range of an operand (R82). -/
theorem wellFormed_fields (w : CmdWord) : isMidiByte (noteField w) = true ∧ isMidiByte (velField w) = true := by
  have hn : noteField w < 2 ^ 7 := (w.extractLsb' 7 7).isLt
  have hv : velField w < 2 ^ 7 := (w.extractLsb' 0 7).isLt
  simp only [isMidiByte, decide_eq_true_eq]
  omega

/-- A decoded command is well-formed, and the word it came from is its own. -/
theorem wellFormed_encode_of_decode {w : CmdWord} {i : Instr} (h : decode w = .command i) : i.wellFormed = true ∧ encode i = w := by
  obtain ⟨hn, hv⟩ := wellFormed_fields w
  have hwf : (isMidiByte (noteField w) && isMidiByte (velField w)) = true := by rw [hn, hv]; rfl
  unfold decode at h
  split at h
  · next hop => cases h; exact ⟨hwf, encodeNote_fields hop⟩
  · split at h
    · next hop => cases h; exact ⟨hwf, encodeNote_fields hop⟩
    · split at h
      · exact wellFormed_encode_of_decodeSystem h
      · cases h

/-- Every command's word lies in its row of the opcode table. -/
theorem encode_in_row (i : Instr) : Laws.EncodesRow.Statement i := by
  cases i with
  | noteOff n v => exact Laws.EncodesRow.noteOff n v
  | noteOn n v => exact Laws.EncodesRow.noteOn n v
  | tick => exact Laws.EncodesRow.tick
  | setWaveform w => exact Laws.EncodesRow.setWaveform w

/-- A word that decodes to a command lies in that command's row (R80). -/
theorem row_of_decode {w : CmdWord} {i : Instr} (h : decode w = .command i) :
    w &&& (Laws.EncodesRow.row i).1 = (Laws.EncodesRow.row i).2 := by
  have hi := encode_in_row i
  rwa [Laws.EncodesRow.Statement, (wellFormed_encode_of_decode h).2] at hi

/-- TICK has one word. -/
theorem eq_of_decode_tick {w : CmdWord} (h : decode w = .command .tick) : w = 0x8000 := (wellFormed_encode_of_decode h).2.symm

/-- A note word has a clear top bit. -/
theorem noteWord_of_decode {w : CmdWord} {i : Instr} (h : decode w = .command i)
    (hi : ∃ n v, i = .noteOn n v ∨ i = .noteOff n v) : w &&& 0x8000 = 0x0000 := by
  have hmask : (0xC000 : CmdWord) &&& 0x8000 = 0x8000 := by decide
  have hr := row_of_decode h
  rw [← hmask, ← BitVec.and_assoc]
  obtain ⟨n, v, rfl | rfl⟩ := hi
  · rw [show w &&& 0xC000 = 0x4000 from hr]; decide
  · rw [show w &&& 0xC000 = 0x0000 from hr]; decide

/-! ## Whole numbers -/

theorem Machine.wholeNumber_iff (x : F32) : wholeNumber x = true ↔ 2 ^ 149 ∣ x.units := by
  rw [wholeNumber, decide_eq_true_eq, Int.dvd_iff_emod_eq_zero]

/-- A whole number of at most 2^24 is its own rounding. -/
theorem F32.roundUnits_of_dvd {v : Int} (h0 : 0 ≤ v) (hle : v ≤ 2 ^ 173) (hd : 2 ^ 149 ∣ v) : F32.roundUnits v 1 = v := by
  obtain ⟨k, rfl⟩ := hd
  obtain ⟨n, rfl⟩ : ∃ n : Nat, k = n := ⟨k.toNat, by omega⟩
  have h := F32.roundUnits_whole (n := n) (by omega)
  push_cast at h
  rwa [mul_comm]

namespace Machine

/-! ## The phase -/

section Phase

variable {c : Cfg} {o : Osc}

theorem OscInv.phase_units (h : OscInv c o) :
    o.phase.isNaN = false ∧ 0 ≤ o.phase.units ∧ o.phase.units < c.sampleRate.units := by
  obtain ⟨-, hn, h0⟩ := (F32.le_iff _ _).1 h.phase_ge
  obtain ⟨-, -, h1⟩ := (F32.lt_iff _ _).1 h.phase_lt
  exact ⟨hn, by rwa [F32.units_zero] at h0, h1⟩

theorem OscInv.bounded_phase (hc : c.legal = true) (h : OscInv c o) : o.phase.Bounded 173 := by
  obtain ⟨hn, h0, h1⟩ := h.phase_units
  refine ⟨hn, ?_⟩
  rw [abs_of_nonneg h0]
  exact h1.le.trans (legal_units hc).1.2.2

theorem OscInv.bounded_freq (h : OscInv c o) : o.freq.Bounded 172 := by
  obtain ⟨-, hn, h0⟩ := (F32.lt_iff _ _).1 h.freq_pos
  obtain ⟨-, -, h1⟩ := (F32.le_iff _ _).1 h.freq_le
  have hm : maxNoteHz.units = 2 ^ 163 := by decide +kernel
  rw [F32.units_zero] at h0
  refine ⟨hn, ?_⟩
  rw [abs_of_nonneg h0.le]
  omega

/-- PHASE + 1.0, before the wrap. -/
theorem phaseSum_units (hc : c.legal = true) (h : OscInv c o) :
    (o.phase.add F32.one).isFinite = true ∧ 0 ≤ (o.phase.add F32.one).units ∧
      (o.phase.add F32.one).units = F32.roundUnits (o.phase.units + 2 ^ 149) 1 := by
  have hp := h.bounded_phase hc
  have h1 : F32.one.Bounded 173 := ⟨F32.isNaN_one, by rw [F32.units_one]; norm_num⟩
  obtain ⟨-, hu⟩ := F32.add_finite (hp.isFinite (by norm_num)) F32.isFinite_one
  rw [F32.units_one] at hu
  obtain ⟨-, h0, -⟩ := h.phase_units
  exact ⟨(hp.add h1 (by norm_num)).isFinite (by norm_num), hu ▸ F32.roundUnits_nonneg (by omega), hu⟩

/-- With a whole SAMPLE_RATE, PHASE + 1.0 is exact, and at most SAMPLE_RATE. -/
theorem phaseSum_whole (hc : c.legal = true) (h : OscInv c o) (hw : wholeNumber c.sampleRate = true) :
    (o.phase.add F32.one).units = o.phase.units + 2 ^ 149 ∧ o.phase.units + 2 ^ 149 ≤ c.sampleRate.units := by
  obtain ⟨-, h0, hlt⟩ := h.phase_units
  have hpd := (wholeNumber_iff _).1 (h.phase_whole hw)
  have hle : o.phase.units + 2 ^ 149 ≤ c.sampleRate.units := by
    have hrd := (wholeNumber_iff _).1 hw
    omega
  refine ⟨?_, hle⟩
  rw [(phaseSum_units hc h).2.2]
  exact F32.roundUnits_of_dvd (by omega) (hle.trans (legal_units hc).1.2.2) (by omega)

/-- PHASE + 1.0 stays below twice SAMPLE_RATE, so that one wrap is enough: with a SAMPLE_RATE that is not whole, twice the
greater of PHASE and 1.0 is a representable value between the two. -/
theorem phaseSum_lt_double (hc : c.legal = true) (h : OscInv c o) :
    (o.phase.add F32.one).units < 2 * c.sampleRate.units := by
  obtain ⟨-, h0, hlt⟩ := h.phase_units
  obtain ⟨⟨-, hr1, hr2⟩, -⟩ := legal_units hc
  by_cases hw : wholeNumber c.sampleRate = true
  · obtain ⟨hu, hle⟩ := phaseSum_whole hc h hw
    omega
  · have h1 : 2 ^ 149 < c.sampleRate.units := by
      rw [wholeNumber_iff] at hw
      omega
    obtain ⟨x, hx0, hxlt, hsum⟩ : ∃ x : F32, 0 ≤ x.units ∧ x.units < c.sampleRate.units ∧
        o.phase.units + 2 ^ 149 ≤ 2 * x.units := by
      rcases le_total (2 ^ 149) o.phase.units with hp | hp
      · exact ⟨o.phase, h0, hlt, by omega⟩
      · exact ⟨F32.one, by rw [F32.units_one]; norm_num, by rwa [F32.units_one], by rw [F32.units_one]; omega⟩
    calc (o.phase.add F32.one).units = F32.roundUnits (o.phase.units + 2 ^ 149) 1 := (phaseSum_units hc h).2.2
      _ ≤ F32.roundUnits (2 * x.units) 1 := F32.roundUnits_mono (by norm_num) (by norm_num) (by omega)
      _ = 2 * x.units := F32.roundUnits_double hx0 (by omega)
      _ < 2 * c.sampleRate.units := by omega

/-- The two branches of R104's wrap, in units. -/
theorem phaseNext_cases (hc : c.legal = true) (h : OscInv c o) :
    (c.sampleRate.units ≤ (o.phase.add F32.one).units ∧ phaseNext c o.phase = (o.phase.add F32.one).sub c.sampleRate) ∨
      ((o.phase.add F32.one).units < c.sampleRate.units ∧ phaseNext c o.phase = o.phase.add F32.one) := by
  have hn := F32.isNaN_of_isFinite (phaseSum_units hc h).1
  have hle : c.sampleRate.le (o.phase.add F32.one) = true ↔ c.sampleRate.units ≤ (o.phase.add F32.one).units := by
    simp [F32.le_iff, (legal_units hc).1.1, hn]
  by_cases hw : c.sampleRate.le (o.phase.add F32.one) = true
  · exact .inl ⟨hle.1 hw, by simp only [phaseNext, hw, if_true]⟩
  · exact .inr ⟨not_le.1 (hle.not.1 hw), by simp only [phaseNext, hw, if_false, Bool.false_eq_true]⟩

/-- The new phase is in [0.0, SAMPLE_RATE) (10_state.md R23). -/
theorem phaseNext_units (hc : c.legal = true) (h : OscInv c o) :
    (phaseNext c o.phase).isNaN = false ∧ 0 ≤ (phaseNext c o.phase).units ∧
      (phaseNext c o.phase).units < c.sampleRate.units := by
  obtain ⟨hf, h0, -⟩ := phaseSum_units hc h
  rcases phaseNext_cases hc h with ⟨hle, he⟩ | ⟨hlt, he⟩
  · have hr := isFinite_sampleRate hc
    have hpos : 0 < c.sampleRate.units := lt_of_lt_of_le (by norm_num) (legal_units hc).1.2.1
    obtain ⟨hn, hu⟩ := F32.sub_finite hf hr
    rw [he, hu]
    exact ⟨hn, F32.roundUnits_nonneg (by omega), F32.roundUnits_sub_lt hr hpos hle (phaseSum_lt_double hc h)⟩
  · rw [he]
    exact ⟨F32.isNaN_of_isFinite hf, h0, hlt⟩

/-- With a whole SAMPLE_RATE the new phase is whole: the sum itself, or 0 where that is SAMPLE_RATE. -/
theorem phaseNext_whole (hc : c.legal = true) (h : OscInv c o) (hw : wholeNumber c.sampleRate = true) :
    wholeNumber (phaseNext c o.phase) = true := by
  obtain ⟨hu, hmax⟩ := phaseSum_whole hc h hw
  rcases phaseNext_cases hc h with ⟨hle, he⟩ | ⟨-, he⟩
  · obtain ⟨-, hs⟩ := F32.sub_finite (phaseSum_units hc h).1 (isFinite_sampleRate hc)
    rw [show (o.phase.add F32.one).units - c.sampleRate.units = 0 by omega, F32.roundUnits_zero] at hs
    rw [wholeNumber_iff, he, hs]
    exact dvd_zero _
  · have hpd := (wholeNumber_iff _).1 (h.phase_whole hw)
    rw [wholeNumber_iff, he, hu]
    omega

/-- OSC_TICK keeps the oscillator's invariant. -/
theorem OscInv.oscTick (hc : c.legal = true) (h : OscInv c o) : OscInv c (oscTick c o).1 := by
  obtain ⟨hn, h0, hlt⟩ := phaseNext_units hc h
  exact
    { phase_ge := (F32.le_iff _ _).2 ⟨F32.isNaN_zero, hn, by rwa [F32.units_zero]⟩
      phase_lt := (F32.lt_iff _ _).2 ⟨hn, (legal_units hc).1.1, hlt⟩
      phase_whole := phaseNext_whole hc h
      freq_pos := h.freq_pos
      freq_le := h.freq_le }

/-- The raw sample of a tick is at most 2^24 in magnitude. -/
theorem OscInv.bounded_sample (hc : c.legal = true) (h : OscInv c o) : (Machine.oscTick c o).2.Bounded 173 :=
  bounded_oscSample o.wave hc h.freq_pos h.bounded_freq ((h.oscTick hc).bounded_phase hc)

end Phase

/-! ## The amplitude -/

section Amplitude

variable {c : Cfg} {e : Env}

/-- An amplitude in [0.0, 1.0], in units. -/
theorem unitRange_iff (x : F32) :
    (F32.zero.le x = true ∧ x.le F32.one = true) ↔ x.isNaN = false ∧ 0 ≤ x.units ∧ x.units ≤ 2 ^ 149 := by
  simp only [F32.le_iff, F32.isNaN_zero, F32.isNaN_one, F32.units_zero, F32.units_one, true_and]
  tauto

theorem bounded_of_unitRange {x : F32} (h0 : F32.zero.le x = true) (h1 : x.le F32.one = true) : x.Bounded 149 := by
  obtain ⟨hn, hlo, hhi⟩ := (unitRange_iff x).1 ⟨h0, h1⟩
  exact ⟨hn, by rwa [abs_of_nonneg hlo]⟩

/-- A comparison that fails between values that are not NaN orders them the other way. -/
theorem units_lt_of_le_false {a b : F32} (ha : a.isNaN = false) (hb : b.isNaN = false) (h : ¬ a.le b = true) :
    b.units < a.units := by
  rw [F32.le_iff] at h
  by_contra hc
  exact h ⟨ha, hb, not_lt.1 hc⟩

theorem unitRange_zero : F32.zero.le F32.zero = true ∧ F32.zero.le F32.one = true := by decide +kernel

theorem unitRange_one : F32.zero.le F32.one = true ∧ F32.one.le F32.one = true := by decide +kernel

theorem unitRange_sustainLevel (hc : c.legal = true) :
    F32.zero.le c.sustainLevel = true ∧ c.sustainLevel.le F32.one = true :=
  (unitRange_iff _).2 (legal_units hc).2.2.2.2

/-- The envelope's invariant of a state and an amplitude outside Idle, Decay and Sustain asks only for the range. -/
theorem EnvInv.of_range {st : EnvState} {a : F32} {n : BitVec 32} (hst : st = .attack ∨ st = .release)
    (ha : F32.zero.le a = true ∧ a.le F32.one = true) : EnvInv c { state := st, amp := a, elapsed := n } := by
  obtain rfl | rfl := hst <;> exact ⟨ha.1, ha.2, nofun, nofun, nofun⟩

theorem EnvInv.idle (n : BitVec 32) : EnvInv c { state := .idle, amp := F32.zero, elapsed := n } :=
  ⟨unitRange_zero.1, unitRange_zero.2, fun _ => rfl, nofun, nofun⟩

theorem EnvInv.sustain (hc : c.legal = true) (n : BitVec 32) :
    EnvInv c { state := .sustain, amp := c.sustainLevel, elapsed := n } :=
  ⟨(unitRange_sustainLevel hc).1, (unitRange_sustainLevel hc).2, nofun, nofun, fun _ => rfl⟩

theorem EnvInv.decay {a : F32} (ha : F32.zero.le a = true ∧ a.le F32.one = true) (hs : c.sustainLevel.le a = true)
    (n : BitVec 32) : EnvInv c { state := .decay, amp := a, elapsed := n } :=
  ⟨ha.1, ha.2, nofun, fun _ => hs, nofun⟩

/-- ENV_TICK keeps the envelope's invariant (41_envelope.md R142). -/
theorem EnvInv.envTick (hc : c.legal = true) (h : EnvInv c e) : EnvInv c (envTick c e).1 := by
  obtain ⟨st, amp, n⟩ := e
  have hr := (unitRange_iff amp).1 ⟨h.amp_ge, h.amp_le⟩
  obtain ⟨-, h0, h1⟩ := hr
  have hf : amp.isFinite = true := (bounded_of_unitRange h.amp_ge h.amp_le).isFinite (by norm_num)
  simp only [Machine.envTick]
  cases st with
  | idle => exact .idle _
  | attack =>
    obtain ⟨hn, hle⟩ := le_add_step hf (attackInc_nonneg hc).1 (attackInc_nonneg hc).2
    simp only [envLevel]
    split
    · exact .decay unitRange_one (unitRange_sustainLevel hc).2 _
    · next hlt =>
      have := units_lt_of_le_false F32.isNaN_one hn hlt
      rw [F32.units_one] at this
      have hrange := (unitRange_iff _).2 ⟨hn, h0.trans hle, this.le⟩
      exact .of_range (.inl rfl) hrange
  | decay =>
    obtain ⟨hn, hle⟩ := sub_step_le hf (decayDec_nonneg hc).1 (decayDec_nonneg hc).2
    obtain ⟨hsn, hs0, -⟩ := (legal_units hc).2.2.2.2
    simp only [envLevel]
    split
    · exact .sustain hc _
    · next hlt =>
      have := units_lt_of_le_false hn hsn hlt
      exact .decay ((unitRange_iff _).2 ⟨hn, by omega, by omega⟩) ((F32.le_iff _ _).2 ⟨hsn, hn, this.le⟩) _
  | sustain => exact .sustain hc _
  | release =>
    obtain ⟨hn, hle⟩ := sub_step_le hf (releaseDec_nonneg hc).1 (releaseDec_nonneg hc).2
    simp only [envLevel]
    split
    · exact .idle _
    · next hlt =>
      have := units_lt_of_le_false hn F32.isNaN_zero hlt
      rw [F32.units_zero] at this
      have hrange := (unitRange_iff _).2 ⟨hn, this.le, hle.trans h1⟩
      exact .of_range (.inr rfl) hrange

/-- A tick takes Attack, Decay and Sustain to one another, and Idle and Release to one another (41_envelope.md R134). -/
theorem envTick_state (c : Cfg) (e : Env) :
    (e.state = .attack ∨ e.state = .decay ∨ e.state = .sustain →
      (envTick c e).1.state = .attack ∨ (envTick c e).1.state = .decay ∨ (envTick c e).1.state = .sustain) ∧
    (e.state = .idle ∨ e.state = .release → (envTick c e).1.state = .idle ∨ (envTick c e).1.state = .release) := by
  obtain ⟨st, amp, n⟩ := e
  cases st with
  | idle => simp [envTick, envLevel]
  | attack => simp only [envTick, envLevel]; split <;> simp
  | decay => simp only [envTick, envLevel]; split <;> simp
  | sustain => simp [envTick, envLevel]
  | release => simp only [envTick, envLevel]; split <;> simp

end Amplitude

/-! ## One voice -/

/-- What a command that completes can make of voice `j`: nothing new, or what its own sub-unit operation makes of it. -/
theorem exec_voice_cases {i : Instr} {s t : State} (h : exec i s = .next t) (j : Fin 4) :
    t.voices.get j = s.voices.get j ∨
    (∃ n v, i = .noteOff n v ∧ t.voices.get j = voiceNoteOff (s.voices.get j)) ∨
    (∃ n v, i = .noteOn n v ∧ t.voices.get j = voiceNoteOn (s.voices.get j) (noteToHz n) (velToGain v)) ∨
    (i = .tick ∧ t.voices.get j = (voiceTick s.cfg (s.voices.get j)).1) ∨
    (∃ w, i = .setWaveform w ∧
      t.voices.get j = { s.voices.get j with osc := oscSetWaveform (s.voices.get j).osc w }) := by
  rcases exec_cases h with ⟨n, v, rfl, ⟨k, -, rfl⟩ | ⟨-, rfl⟩⟩ | ⟨n, v, rfl, ⟨k, -, rfl⟩ | ⟨-, rfl⟩⟩ | ⟨rfl, -, -, rfl⟩ |
    ⟨w, rfl, rfl⟩
  · by_cases hj : j = k
    · subst hj; exact .inr (.inl ⟨n, v, rfl, Lanes.get_set_self _ _ _⟩)
    · exact .inl (Lanes.get_set_ne _ hj _)
  · exact .inl rfl
  · by_cases hj : j = k
    · subst hj; exact .inr (.inr (.inl ⟨n, v, rfl, Lanes.get_set_self _ _ _⟩))
    · exact .inl (Lanes.get_set_ne _ hj _)
  · exact .inl rfl
  · exact .inr (.inr (.inr (.inl ⟨rfl, Lanes.get_map _ _ _⟩)))
  · exact .inr (.inr (.inr (.inr ⟨w, rfl, Lanes.get_map _ _ _⟩)))

/-- Which commands write which registers of a voice. -/
theorem exec_voice_writers {i : Instr} {s t : State} (h : exec i s = .next t) (j : Fin 4) :
    ((t.voices.get j).osc.freq ≠ (s.voices.get j).osc.freq ∨ (t.voices.get j).gain ≠ (s.voices.get j).gain →
      ∃ n v, i = .noteOn n v) ∧
    ((t.voices.get j).osc.wave ≠ (s.voices.get j).osc.wave → ∃ w, i = .setWaveform w) ∧
    ((t.voices.get j).osc.phase ≠ (s.voices.get j).osc.phase → i = .tick) ∧
    ((t.voices.get j).env ≠ (s.voices.get j).env → i = .tick ∨ ∃ n v, i = .noteOn n v ∨ i = .noteOff n v) ∧
    ((t.voices.get j).env.amp ≠ (s.voices.get j).env.amp → i = .tick ∨ ∃ n v, i = .noteOn n v) := by
  rcases exec_voice_cases h j with hv | ⟨n, v, rfl, hv⟩ | ⟨n, v, rfl, hv⟩ | ⟨rfl, hv⟩ | ⟨w, rfl, hv⟩ <;> rw [hv]
  · simp
  · simp [voiceNoteOff, envNoteOff]
  · simp [voiceNoteOn, oscSetFrequency]
  · simp [voiceTick, oscTick]
  · simp [oscSetWaveform]

/-- Only TICK writes SAMPLE_OUT and emits; only the note commands write a slot. -/
theorem exec_block_writers {i : Instr} {s t : State} (h : exec i s = .next t) :
    (t.sampleOut ≠ s.sampleOut ∨ t.emitted ≠ s.emitted → i = .tick) ∧
    (t.slots ≠ s.slots → ∃ n v, i = .noteOn n v ∨ i = .noteOff n v) := by
  rcases exec_cases h with ⟨n, v, rfl, ⟨k, -, rfl⟩ | ⟨-, rfl⟩⟩ | ⟨n, v, rfl, ⟨k, -, rfl⟩ | ⟨-, rfl⟩⟩ | ⟨rfl, -, -, rfl⟩ |
    ⟨w, rfl, rfl⟩ <;> simp

/-- Settles O55: a reserved word writes STATUS alone, and a new level on CFG_IN no register; a command writes what
`exec_voice_writers` and `exec_block_writers` list, and its word is known by its row of the opcode table. -/
theorem registersHaveOnlyTheirWriters : Obligations.RegistersHaveOnlyTheirWriters := by
  intro s t x rest hin hstep hreset
  rcases step_cases hstep with ⟨h0, -⟩ | ⟨w, r, i, h0, hdec, hex⟩ | ⟨w, r, why, h0, hdec, rfl⟩ | ⟨a, r, h0, -⟩ |
    ⟨c, r, h0, rfl⟩ <;> rw [hin] at h0
  · cases h0
  · obtain ⟨rfl, rfl⟩ := List.cons.inj h0
    obtain ⟨hcfg, hstatus, -, -⟩ := exec_frame hex
    obtain ⟨hsample, hslots⟩ := exec_block_writers hex
    have hvoice := exec_voice_writers hex
    have tickWord (hi : i = .tick) : Transaction.command w = .command 0x8000 :=
      congrArg _ (eq_of_decode_tick (hi ▸ hdec))
    have noteOnWord (hi : ∃ n v, i = .noteOn n v) :
        ∃ w', Transaction.command w = .command w' ∧ w' &&& 0xC000 = 0x4000 := by
      obtain ⟨n, v, rfl⟩ := hi
      exact ⟨w, rfl, row_of_decode hdec⟩
    have noteWord (hi : ∃ n v, i = .noteOn n v ∨ i = .noteOff n v) :
        ∃ w', Transaction.command w = .command w' ∧ w' &&& 0x8000 = 0x0000 := ⟨w, rfl, noteWord_of_decode hdec hi⟩
    have waveWord (hi : ∃ v, i = .setWaveform v) :
        ∃ w', Transaction.command w = .command w' ∧ w' &&& 0xFFFC = 0x8100 := by
      obtain ⟨v, rfl⟩ := hi
      exact ⟨w, rfl, row_of_decode hdec⟩
    refine ⟨fun h => absurd hstatus h, fun h => tickWord (hsample h), fun h => noteWord (hslots h), fun j h => ?_,
      fun j h => ?_, fun j h => ?_, fun j h => ?_, fun j h => ?_, fun j h => ?_, hcfg⟩ <;>
      obtain ⟨hfreqGain, hwave, hphase, henv, hamp⟩ := hvoice j
    · exact noteOnWord (hfreqGain (.inl h))
    · exact waveWord (hwave h)
    · exact tickWord (hphase h)
    · exact noteOnWord (hfreqGain (.inr h))
    · have hne : (t.voices.get j).env ≠ (s.voices.get j).env := by
        intro he
        rw [he] at h
        exact h.elim (absurd rfl) (absurd rfl)
      exact (henv hne).imp tickWord noteWord
    · exact (hamp h).imp tickWord noteOnWord
  · obtain ⟨rfl, rfl⟩ := List.cons.inj h0
    simp [hdec]
  · exact absurd (List.cons.inj h0).1 (hreset a)
  · simp

/-! ## The invariant, update by update -/

section Invariant

variable {c : Cfg} {v : Voice} {s : State}

theorem VoiceInv.noteOn (h : VoiceInv c v) {n k : Nat} (hn : n < 128) (hk : k < 128) :
    VoiceInv c (voiceNoteOn v (noteToHz n) (velToGain k)) := by
  obtain ⟨hlo, hhi⟩ := noteToHz_units_range hn
  obtain ⟨hg, hg0, hg1⟩ := velToGain_range k hk
  have hnan := F32.isNaN_of_isFinite (isFinite_noteToHz hn)
  have hmax : maxNoteHz.isNaN = false ∧ maxNoteHz.units = 2 ^ 163 := by decide +kernel
  have hgain := (unitRange_iff _).2 ⟨F32.isNaN_of_isFinite hg, hg0, hg1⟩
  exact
    { osc :=
        { phase_ge := h.osc.phase_ge
          phase_lt := h.osc.phase_lt
          phase_whole := h.osc.phase_whole
          freq_pos := (F32.lt_iff _ _).2 ⟨F32.isNaN_zero, hnan, by rw [F32.units_zero]; exact lt_trans (by norm_num) hlo⟩
          freq_le := (F32.le_iff _ _).2 ⟨hnan, hmax.1, by rw [hmax.2]; exact hhi.le⟩ }
      env := .of_range (.inl rfl) unitRange_zero
      gain_ge := hgain.1
      gain_le := hgain.2 }

/-- A voice in Attack, Decay or Sustain goes to Release at its amplitude. -/
theorem VoiceInv.noteOff (h : VoiceInv c v) (hst : v.env.state ≠ .idle) : VoiceInv c (voiceNoteOff v) where
  osc := h.osc
  env := by
    rw [voiceNoteOff, envNoteOff, if_pos hst]
    exact .of_range (.inr rfl) ⟨h.env.amp_ge, h.env.amp_le⟩
  gain_ge := h.gain_ge
  gain_le := h.gain_le

theorem VoiceInv.tick (hc : c.legal = true) (h : VoiceInv c v) : VoiceInv c (voiceTick c v).1 :=
  ⟨h.osc.oscTick hc, h.env.envTick hc, h.gain_ge, h.gain_le⟩

theorem VoiceInv.setWaveform (h : VoiceInv c v) (w : Waveform) : VoiceInv c { v with osc := oscSetWaveform v.osc w } :=
  ⟨⟨h.osc.phase_ge, h.osc.phase_lt, h.osc.phase_whole, h.osc.freq_pos, h.osc.freq_le⟩, h.env, h.gain_ge, h.gain_le⟩

theorem VoiceInv.afterReset (hc : c.legal = true) (w : Waveform) : VoiceInv c (Voice.afterReset w) where
  osc :=
    { phase_ge := unitRange_zero.1
      phase_lt := by
        obtain ⟨⟨hn, h1, -⟩, -⟩ := legal_units hc
        rw [F32.lt_iff]
        exact ⟨F32.isNaN_zero, hn, by rw [Voice.afterReset, F32.units_zero]; exact lt_of_lt_of_le (by norm_num) h1⟩
      phase_whole := fun _ => (wholeNumber_iff _).2 (by rw [Voice.afterReset, F32.units_zero]; exact dvd_zero _)
      freq_pos := show F32.zero.lt a4Hz = true by decide +kernel
      freq_le := show a4Hz.le maxNoteHz = true by decide +kernel }
  env := .idle 0
  gain_ge := unitRange_zero.1
  gain_le := unitRange_zero.2

/-- The output of a voice in a tick is at most 2^24 in magnitude. -/
theorem VoiceInv.bounded_output (hc : c.legal = true) (h : VoiceInv c v) : (voiceTick c v).2.Bounded 173 :=
  bounded_voiceOutput c (h.osc.bounded_sample hc)
    (bounded_of_unitRange (h.env.envTick hc).amp_ge (h.env.envTick hc).amp_le) (bounded_of_unitRange h.gain_ge h.gain_le)

theorem SlotInv.noteOn (v : Voice) {n k : Nat} (hn : n < 128) (hk : k < 128) :
    SlotInv (Slot.assigned n k) (voiceNoteOn v (noteToHz n) (velToGain k)) where
  held_state _ := .inl rfl
  held_freq _ := by rw [Slot.assigned, BitVec.toNat_ofNat, Nat.mod_eq_of_lt hn]; rfl
  held_gain _ := by rw [Slot.assigned, BitVec.toNat_ofNat, Nat.mod_eq_of_lt hk]; rfl
  free_state := nofun
  free_note := nofun
  free_vel := nofun

theorem SlotInv.cleared (hst : v.env.state = .idle ∨ v.env.state = .release) : SlotInv Slot.cleared v where
  held_state := nofun
  held_freq := nofun
  held_gain := nofun
  free_state _ := hst
  free_note _ := rfl
  free_vel _ := rfl

theorem SlotInv.tick {sl : Slot} (h : SlotInv sl v) : SlotInv sl (voiceTick c v).1 where
  held_state hv := (envTick_state c v.env).1 (h.held_state hv)
  held_freq := h.held_freq
  held_gain := h.held_gain
  free_state hv := (envTick_state c v.env).2 (h.free_state hv)
  free_note := h.free_note
  free_vel := h.free_vel

theorem SlotInv.setWaveform {sl : Slot} (h : SlotInv sl v) (w : Waveform) :
    SlotInv sl { v with osc := oscSetWaveform v.osc w } where
  held_state := h.held_state
  held_freq := h.held_freq
  held_gain := h.held_gain
  free_state := h.free_state
  free_note := h.free_note
  free_vel := h.free_vel

/-- What is the host's is not in the invariant: states that agree on the block's registers meet it together. -/
theorem State.Inv.host (h : s.Inv) (cfgIn : BitVec 163) (input : List Transaction) :
    ({ s with cfgIn := cfgIn, input := input } : State).Inv :=
  ⟨h.legal, h.voice, h.slot, h.status, h.sample_finite, h.emitted_finite, h.emitted_last⟩

/-- One lane replaced by a slot and a voice that meet the invariant. -/
theorem State.Inv.setLane (h : s.Inv) (i : Fin 4) {sl : Slot} (hv : VoiceInv s.cfg v) (hs : SlotInv sl v) :
    ({ s with slots := s.slots.set i sl, voices := s.voices.set i v } : State).Inv where
  legal := h.legal
  voice j := by
    rw [Lanes.get_set]
    split
    · exact hv
    · exact h.voice j
  slot j := by
    rw [Lanes.get_set, Lanes.get_set]
    split
    · exact hs
    · exact h.slot j
  status := h.status
  sample_finite := h.sample_finite
  emitted_finite := h.emitted_finite
  emitted_last := h.emitted_last

theorem State.Inv.startNote (h : s.Inv) (i : Fin 4) {n k : Nat} (hn : n < 128) (hk : k < 128) : (s.startNote i n k).Inv :=
  h.setLane i ((h.voice i).noteOn hn hk) (.noteOn _ hn hk)

/-- NOTE_OFF finds its slot held, so the voice is sounding and goes to Release. -/
theorem State.Inv.releaseNote (h : s.Inv) {i : Fin 4} (hvalid : (s.slots.get i).valid = true) : (s.releaseNote i).Inv := by
  have hst : (s.voices.get i).env.state ≠ .idle := by
    rcases (h.slot i).held_state hvalid with he | he | he <;> simp [he]
  refine h.setLane i ((h.voice i).noteOff hst) (.cleared (.inr ?_))
  rw [voiceNoteOff, envNoteOff, if_pos hst]

theorem valid_of_firstMatch {n : Nat} {i : Fin 4} (h : s.firstMatch n = some i) : (s.slots.get i).valid = true := by
  have hp := ((find_voice_eq_some _ i).1 h).1
  simp only [Bool.and_eq_true] at hp
  exact hp.1

/-- A tick keeps every lane's invariant, and the sample it emits is finite. -/
theorem State.Inv.ticked (h : s.Inv) : s.ticked.Inv := by
  have hmix : (mix s.voiceSamples.toList).isFinite = true := by
    refine (bounded_mix fun i => ?_).isFinite (by norm_num)
    rw [State.voiceSamples, Lanes.get_map]
    exact (h.voice i).bounded_output h.legal
  exact
    { legal := h.legal
      voice := fun i => by
        rw [State.ticked_voices, Lanes.get_map]
        exact (h.voice i).tick h.legal
      slot := fun i => by
        rw [State.ticked_voices, Lanes.get_map]
        exact (h.slot i).tick
      status := h.status
      sample_finite := by rwa [State.ticked_sampleOut]
      emitted_finite := fun x hx => by
        rw [State.ticked_emitted, List.mem_append, List.mem_singleton] at hx
        rcases hx with hx | rfl
        · exact h.emitted_finite x hx
        · exact hmix
      emitted_last := by rw [State.ticked_emitted, State.ticked_sampleOut, List.getLastD_concat] }

theorem State.Inv.withWaveform (h : s.Inv) (w : Waveform) : (s.withWaveform w).Inv where
  legal := h.legal
  voice i := by
    rw [State.withWaveform_voices, Lanes.get_map]
    exact (h.voice i).setWaveform w
  slot i := by
    rw [State.withWaveform_voices, Lanes.get_map]
    exact (h.slot i).setWaveform w
  status := h.status
  sample_finite := h.sample_finite
  emitted_finite := h.emitted_finite
  emitted_last := h.emitted_last

/-- ILLEGAL is no reserved bit of STATUS. -/
theorem State.Inv.setIllegal (h : s.Inv) : s.setIllegal.Inv where
  legal := h.legal
  voice := h.voice
  slot := h.slot
  status := by
    rw [State.setIllegal_status, BitVec.and_comm, BitVec.and_or_distrib_left, BitVec.and_comm _ s.status, h.status]
    decide
  sample_finite := h.sample_finite
  emitted_finite := h.emitted_finite
  emitted_last := h.emitted_last

/-- RESET establishes the invariant, whatever the registers held. -/
theorem State.Inv.afterReset (hc : c.legal = true) (s : State) : (s.afterReset c).Inv where
  legal := hc
  voice i := by rw [State.afterReset_voice]; exact .afterReset hc _
  slot i := by
    rw [State.afterReset_voice, State.afterReset_slot]
    exact .cleared (.inl rfl)
  status := by rw [State.afterReset_status]; decide
  sample_finite := F32.isFinite_zero
  emitted_finite := nofun
  emitted_last := rfl

/-- A well-formed command keeps the invariant. -/
theorem State.Inv.exec (h : s.Inv) {i : Instr} (hwf : i.wellFormed = true) {t : State}
    (hex : Machine.exec i s = .next t) : t.Inv := by
  rcases exec_cases hex with ⟨n, k, rfl, ⟨j, hj, rfl⟩ | ⟨-, rfl⟩⟩ | ⟨n, k, rfl, ⟨j, -, rfl⟩ | ⟨-, rfl⟩⟩ | ⟨rfl, -, -, rfl⟩ |
    ⟨w, rfl, rfl⟩
  · exact h.releaseNote (valid_of_firstMatch hj)
  · exact h
  · simp only [Instr.wellFormed, isMidiByte, Bool.and_eq_true, decide_eq_true_eq] at hwf
    exact h.startNote j (by omega) (by omega)
  · exact h
  · exact h.ticked
  · exact h.withWaveform w

end Invariant

/-- Settles O57: each transaction of `step_cases` makes one update of the state, and each update keeps the invariant; a
decoded command is well-formed, so a NOTE_ON's note and velocity are in the range that FREQ and GAIN need. -/
theorem stepKeepsTheInvariant : Obligations.StepKeepsTheInvariant := by
  intro s t h hstep
  rcases step_cases hstep with ⟨-, rfl⟩ | ⟨w, rest, i, -, hdec, hex⟩ | ⟨w, rest, r, -, -, rfl⟩ | ⟨a, rest, -, hc, rfl⟩ |
    ⟨c, rest, -, rfl⟩
  · exact h
  · exact (h.host s.cfgIn rest).exec (wellFormed_encode_of_decode hdec).1 hex
  · exact (h.host s.cfgIn rest).setIllegal
  · exact .afterReset hc _
  · exact h.host c rest

end Machine

end Sys2Proof
end

section
/-! PROOFS. The statement of 20_memory.md: the bytes of a word on a byte-wide transport, and the words they make again (R51,
R52). The one induction is over the words sent, with any bytes after theirs. -/

namespace Sys2Proof.Machine

/-- The first byte of a word is its bits 15:8 (R51). -/
theorem highByte_toNat (w : CmdWord) : (w.extractLsb' 8 8).toNat = w.toNat / 256 := by
  rw [BitVec.extractLsb'_toNat, Nat.shiftRight_eq_div_pow]
  have := w.isLt
  omega

/-- The second byte of a word is its bits 7:0 (R51). -/
theorem lowByte_toNat (w : CmdWord) : (w.extractLsb' 0 8).toNat = w.toNat % 256 := by
  rw [BitVec.extractLsb'_toNat, Nat.shiftRight_zero]

/-- The word two bytes make, the first its most significant byte. -/
theorem joinedBytes_toNat (hi lo : BitVec 8) : (hi ++ lo).toNat = hi.toNat * 256 + lo.toNat := by
  rw [BitVec.toNat_append, ← Nat.shiftLeft_add_eq_or_of_lt lo.isLt, Nat.shiftLeft_eq]

/-- One word is taken off the front of the bytes. -/
theorem wordsOfBytes_bytesOfWord_append (w : CmdWord) (bs : List (BitVec 8)) :
    wordsOfBytes (bytesOfWord w ++ bs) = (w :: (wordsOfBytes bs).1, (wordsOfBytes bs).2) := by
  have hjoin : w.extractLsb' 8 8 ++ w.extractLsb' 0 8 = w := BitVec.extractLsb'_append_extractLsb'
  rw [bytesOfWord, List.cons_append, List.cons_append, List.nil_append, wordsOfBytes, hjoin]

/-- The bytes of whole words come out as those words, and what follows them is read as it would be alone. -/
theorem wordsOfBytes_flatMap_append (ws : List CmdWord) (bs : List (BitVec 8)) :
    wordsOfBytes (ws.flatMap bytesOfWord ++ bs) = (ws ++ (wordsOfBytes bs).1, (wordsOfBytes bs).2) := by
  induction ws with
  | nil => rfl
  | cons w ws ih =>
    rw [List.flatMap_cons, List.append_assoc, wordsOfBytes_bytesOfWord_append, ih, List.cons_append]

/-- Settles O7: each word's two bytes join to that word, so the words come off the front one by one; no byte after them leaves
nothing over, and one byte is left waiting. -/
theorem byteTransportIsMostSignificantFirst : Obligations.ByteTransportIsMostSignificantFirst := by
  refine ⟨fun w => ⟨_, _, rfl, highByte_toNat w, lowByte_toNat w⟩, fun hi lo => ⟨_, rfl, joinedBytes_toNat hi lo⟩,
    fun ws => ⟨?_, fun b => ?_⟩⟩
  · simpa [wordsOfBytes] using wordsOfBytes_flatMap_append ws []
  · simpa [wordsOfBytes] using wordsOfBytes_flatMap_append ws [b]

end Sys2Proof.Machine
end

section
/-! PROOFS. The statements of 30_encoding.md. A note word's fields are what the encoder put there, so that decoding inverts
encoding; with the other direction this says that the words of a command are exactly its encodings, and the masks, the
reserved ranges and the examples follow from that. -/

namespace Sys2Proof

/-! ## The decoder by OP -/

/-- OP is bits 15:14, as a comparison of numbers (R77). -/
theorem opField_eq_iff (w : CmdWord) (op : BitVec 2) : opField w = op ↔ w.toNat / 2 ^ 14 = op.toNat := by
  rw [← opField_toNat, BitVec.toNat_inj]

theorem decode_of_opField_noteOff {w : CmdWord} (h : opField w = 0b00) :
    decode w = .command (.noteOff (noteField w) (velField w)) := by
  simp [decode, h]

theorem decode_of_opField_noteOn {w : CmdWord} (h : opField w = 0b01) :
    decode w = .command (.noteOn (noteField w) (velField w)) := by
  simp [decode, h]

/-! ## The round trip -/

/-- The fields of a format N word are those it was made of (R78). -/
theorem fields_encodeNote (op : BitVec 2) {note vel : Nat} (h : (isMidiByte note && isMidiByte vel) = true) :
    opField (encodeNote op note vel) = op ∧ note = noteField (encodeNote op note vel) ∧
      vel = velField (encodeNote op note vel) := by
  obtain ⟨hn, hv⟩ : note ≤ 127 ∧ vel ≤ 127 := by simpa [isMidiByte] using h
  rw [opField_eq_iff, noteField_eq, velField_eq, encodeNote_toNat op hn hv]
  omega

/-- Settles O2: a note word has the fields it was made of, and the five system words are decoded one by one. -/
theorem encodedCommandDecodesToItself : Obligations.EncodedCommandDecodesToItself := by
  intro i hwf
  cases i with
  | noteOff n v =>
    obtain ⟨hop, hn, hv⟩ := fields_encodeNote 0b00 hwf
    rw [encode, decode_of_opField_noteOff hop, ← hn, ← hv]
  | noteOn n v =>
    obtain ⟨hop, hn, hv⟩ := fields_encodeNote 0b01 hwf
    rw [encode, decode_of_opField_noteOn hop, ← hn, ← hv]
  | tick => rfl
  | setWaveform wave => cases wave <;> rfl

/-- Settles O3: a word is put together again from the fields it was decoded by. -/
theorem decodedCommandEncodesToItsWord : Obligations.DecodedCommandEncodesToItsWord :=
  fun _ _ => wellFormed_encode_of_decode

/-- The two directions as one: the words of a command are its encoding. -/
theorem decode_eq_command_iff {w : CmdWord} {i : Instr} : decode w = .command i ↔ i.wellFormed = true ∧ encode i = w := by
  constructor
  · exact wellFormed_encode_of_decode
  · rintro ⟨hwf, rfl⟩
    exact encodedCommandDecodesToItself i hwf

/-! ## Masks and matches -/

/-- A note word is a NOTE_OFF by its OP, and the operands are its fields (R78, R80). -/
theorem decode_noteOff_iff {w : CmdWord} {n v : Nat} :
    decode w = .command (.noteOff n v) ↔ opField w = 0b00 ∧ n = noteField w ∧ v = velField w := by
  constructor
  · intro h
    obtain ⟨hwf, rfl⟩ := wellFormed_encode_of_decode h
    exact fields_encodeNote 0b00 hwf
  · rintro ⟨hop, rfl, rfl⟩
    exact decode_of_opField_noteOff hop

/-- A note word is a NOTE_ON by its OP, and the operands are its fields (R78, R80). -/
theorem decode_noteOn_iff {w : CmdWord} {n v : Nat} :
    decode w = .command (.noteOn n v) ↔ opField w = 0b01 ∧ n = noteField w ∧ v = velField w := by
  constructor
  · intro h
    obtain ⟨hwf, rfl⟩ := wellFormed_encode_of_decode h
    exact fields_encodeNote 0b01 hwf
  · rintro ⟨hop, rfl, rfl⟩
    exact decode_of_opField_noteOn hop

/-- The mask 0xC000 keeps OP (R80). -/
theorem and_opMask_eq_iff (w : CmdWord) (op : BitVec 2) : w &&& 0xC000 = op ++ 0#14 ↔ opField w = op := by
  have hinj : ∀ a b : BitVec 2, a ++ 0#14 = b ++ 0#14 ↔ a = b := by decide
  have hmask : w &&& 0xC000 = opField w ++ 0#14 := by
    conv_lhs => rw [← encodeNote_fields (w := w) rfl]
    exact Laws.EncodesRow.note_op _ _ _
  rw [hmask, hinj]

theorem noteField_eq_mask (w : CmdWord) : noteField w = ((w >>> 7) &&& 0x7F).toNat := by
  have hmod : (w >>> 7).toNat &&& 0x7F = (w >>> 7).toNat % 2 ^ 7 := Nat.and_two_pow_sub_one_eq_mod _ 7
  rw [noteField_eq, BitVec.toNat_and, show (0x7F : CmdWord).toNat = 0x7F from rfl, hmod, BitVec.toNat_ushiftRight,
    Nat.shiftRight_eq_div_pow]

theorem velField_eq_mask (w : CmdWord) : velField w = (w &&& 0x7F).toNat := by
  rw [velField_eq, BitVec.toNat_and]
  exact (Nat.and_two_pow_sub_one_eq_mod _ 7).symm

/-- The word of SET_WAVEFORM is its match with the code in bits 1:0 (R79, R83). -/
theorem encode_setWaveform (wave : Waveform) : encode (.setWaveform wave) = 0x8100 ||| wave.code.setWidth 16 := by
  cases wave <;> rfl

/-- TICK has one word (R79). -/
theorem decode_tick_iff {w : CmdWord} : decode w = .command .tick ↔ w = 0x8000 := by
  rw [decode_eq_command_iff, eq_comm (b := w)]
  exact and_iff_right rfl

/-- Every SET_WAVEFORM is well-formed, so its words are its encoding alone (R83). -/
theorem decode_setWaveform_iff {w : CmdWord} {wave : Waveform} :
    decode w = .command (.setWaveform wave) ↔ w = 0x8100 ||| wave.code.setWidth 16 := by
  rw [decode_eq_command_iff, encode_setWaveform, eq_comm (b := w)]
  exact and_iff_right rfl

/-- The masks 0xFFFC and 0x3 between them keep every bit of a SET_WAVEFORM word (R80). -/
theorem eq_setWaveform_iff_mask (w : CmdWord) (c : BitVec 2) :
    w = 0x8100 ||| c.setWidth 16 ↔ w &&& 0xFFFC = 0x8100 ∧ c.toNat = (w &&& 0x3).toNat := by
  constructor
  · rintro rfl
    revert c
    decide
  · rintro ⟨hmatch, hcode⟩
    have hlow : w &&& 0x3 = c.setWidth 16 := BitVec.eq_of_toNat_eq (by rw [← hcode, BitVec.toNat_setWidth]; omega)
    calc w = w &&& (0xFFFC ||| 0x3) := BitVec.and_allOnes.symm
      _ = (w &&& 0xFFFC) ||| (w &&& 0x3) := BitVec.and_or_distrib_left
      _ = 0x8100 ||| c.setWidth 16 := by rw [hmatch, hlow]

/-- Settles O4: OP selects the note commands and the mask 0xC000 keeps OP; TICK's mask keeps the whole word; SET_WAVEFORM's
keeps all but the code. -/
theorem commandsSelectedByMaskAndMatch : Obligations.CommandsSelectedByMaskAndMatch := by
  intro w
  refine ⟨fun n v => ?_, fun n v => ?_, ?_, fun wave => ?_, decode_setWaveform_iff, decode_setWaveform_iff,
    decode_setWaveform_iff, decode_setWaveform_iff⟩
  · rw [← noteField_eq_mask, ← velField_eq_mask, decode_noteOff_iff, ← and_opMask_eq_iff]
    rfl
  · rw [← noteField_eq_mask, ← velField_eq_mask, decode_noteOn_iff, ← and_opMask_eq_iff]
    rfl
  · rw [decode_tick_iff, show w &&& 0xFFFF = w from BitVec.and_allOnes]
  · rw [decode_setWaveform_iff, eq_setWaveform_iff_mask]

/-! ## Reserved words -/

/-- The words that spell a command, as numbers (R80). -/
theorem exists_decode_command_iff (w : CmdWord) :
    (∃ i, decode w = .command i) ↔ w.toNat ≤ 0x8000 ∨ (0x8100 ≤ w.toNat ∧ w.toNat ≤ 0x8103) := by
  have htop := opField_toNat w
  constructor
  · rintro ⟨i, h⟩
    cases i with
    | noteOff n v => rw [(decode_noteOff_iff.1 h).1, show (0b00 : BitVec 2).toNat = 0 from rfl] at htop; omega
    | noteOn n v => rw [(decode_noteOn_iff.1 h).1, show (0b01 : BitVec 2).toNat = 1 from rfl] at htop; omega
    | tick => rw [decode_tick_iff.1 h]; decide
    | setWaveform wave => rw [decode_setWaveform_iff.1 h]; cases wave <;> decide
  · intro h
    by_cases hoff : w.toNat / 2 ^ 14 = 0
    · exact ⟨_, decode_of_opField_noteOff ((opField_eq_iff w _).2 hoff)⟩
    by_cases hon : w.toNat / 2 ^ 14 = 1
    · exact ⟨_, decode_of_opField_noteOn ((opField_eq_iff w _).2 hon)⟩
    by_cases htick : w.toNat = 0x8000
    · exact ⟨_, decode_tick_iff.2 (BitVec.eq_of_toNat_eq htick)⟩
    have hword : encode (.setWaveform (Waveform.ofCode (waveField w))) = w := by
      apply BitVec.eq_of_toNat_eq
      rw [encode, code_ofCode, encodeWave_toNat, waveField_toNat]
      omega
    exact ⟨_, decode_eq_command_iff.2 ⟨rfl, hword⟩⟩

/-- A word is reserved iff it spells no command (R81, R84). -/
theorem exists_decode_reserved_iff (w : CmdWord) : (∃ r, decode w = .reserved r) ↔ ¬ ∃ i, decode w = .command i := by
  cases decode w <;> simp

/-- Settles O5: the reserved words are those that spell no command. -/
theorem reservedWordsAreTheRest : Obligations.ReservedWordsAreTheRest := by
  intro w
  rw [exists_decode_reserved_iff, exists_decode_command_iff]
  omega

/-! ## The examples -/

/-- What an example of R87 says of its command and its word. -/
theorem encode_eq_and_decode_eq {i : Instr} {w : CmdWord} (hwf : i.wellFormed = true) (h : encode i = w) :
    encode i = w ∧ decode w = .command i :=
  ⟨h, decode_eq_command_iff.2 ⟨hwf, h⟩⟩

/-- Settles O1: each command's encoding is computed and the round trip decodes it; the four words lie in the reserved
ranges. -/
theorem exampleWordsEncodeAndDecode : Obligations.ExampleWordsEncodeAndDecode := by
  refine ⟨encode_eq_and_decode_eq rfl rfl, encode_eq_and_decode_eq rfl rfl, encode_eq_and_decode_eq rfl rfl,
    encode_eq_and_decode_eq rfl rfl, encode_eq_and_decode_eq rfl rfl, encode_eq_and_decode_eq rfl rfl,
    encode_eq_and_decode_eq rfl rfl, encode_eq_and_decode_eq rfl rfl, fun w hw => (reservedWordsAreTheRest w).2 ?_⟩
  revert w
  simp

namespace Machine

/-! ## The configuration port -/

/-- The seven fields of CFG_IN are read where they were put (R75): the fields below a field are dropped one by one, and it is
then the lowest. The widths stay sums meanwhile, so that the parts of the concatenation can be told apart. -/
theorem ofPort_append (sr at' dt sl rt : BitVec 32) (wf : BitVec 2) (g : BitVec 1) :
    Cfg.ofPort (sr ++ at' ++ dt ++ sl ++ rt ++ wf ++ g) =
      { sampleRate := ⟨sr⟩, attackTime := ⟨at'⟩, decayTime := ⟨dt⟩, sustainLevel := ⟨sl⟩, releaseTime := ⟨rt⟩,
        waveformInit := Waveform.ofCode wf, gainScaling := decide (g = 1#1) } := by
  have hbit : g.getLsbD 0 = decide (g = 1#1) := by revert g; decide
  simp (disch := decide) only [Cfg.ofPort, BitVec.extractLsb'_append_eq_of_le, Nat.reduceSub,
    BitVec.extractLsb'_append_eq_right, BitVec.extractLsb'_eq_self, BitVec.getLsbD_append, if_pos, hbit]

/-- Settles O6: the fields of a concatenation are read back, and the port is the concatenation of a configuration's own. -/
theorem configurationPortCarriesEveryField : Obligations.ConfigurationPortCarriesEveryField := by
  refine ⟨fun c => ?_, ⟨rfl, rfl, rfl, rfl⟩, ofPort_append⟩
  have hgain : decide (BitVec.ofBool c.gainScaling = 1#1) = c.gainScaling := by cases c.gainScaling <;> rfl
  rw [Cfg.toPort, ofPort_append, ofCode_code, hgain]

/-! ## A command word's step -/

/-- A word that spells a command is served by executing it (R71, R81). -/
theorem serveWord_of_decode {w : CmdWord} {i : Instr} (h : decode w = .command i) (s : State) :
    serveWord w s = exec i s := by
  rw [serveWord, h]

/-- Settles O8: the word is taken off the input and served. -/
theorem stepRunsTheDecodedCommand : Obligations.StepRunsTheDecodedCommand := by
  intro s w rest i hin hdec
  rw [step, hin]
  exact serveWord_of_decode hdec _

end Machine

end Sys2Proof
end

section
/-! PROOFS. The statements of 40_oscillator.md: the registers and the sample of one tick (R103 to R105), the phase modulo a
whole SAMPLE_RATE (R104), the included harmonics (R107), and the loop of R108 as a sum over the harmonics it visits, from
which its end follows. -/

namespace Sys2Proof.Machine

/-! ## One tick -/

@[simp] theorem oscTick_phase (c : Cfg) (o : Osc) : (oscTick c o).1.phase = phaseNext c o.phase := rfl

@[simp] theorem oscTick_freq (c : Cfg) (o : Osc) : (oscTick c o).1.freq = o.freq := rfl

@[simp] theorem oscTick_wave (c : Cfg) (o : Osc) : (oscTick c o).1.wave = o.wave := rfl

/-- The sample is the waveform's at the advanced phase. -/
theorem oscTick_sample_of_wave {c : Cfg} {o : Osc} {w : Waveform} (h : o.wave = w) :
    (oscTick c o).2 = oscSample c w o.freq (oscTick c o).1.phase := h ▸ rfl

/-- Settles O35: a Sine oscillator's sample is the tone at its frequency. -/
theorem sineSampleIsTheToneAtTheNewPhase : Obligations.SineSampleIsTheToneAtTheNewPhase := fun _ _ => oscTick_sample_of_wave

/-! ## The phase -/

theorem phaseNext_of_le {c : Cfg} {p : F32} (h : c.sampleRate.le (p.add F32.one) = true) :
    phaseNext c p = (p.add F32.one).sub c.sampleRate := if_pos h

theorem phaseNext_of_not_le {c : Cfg} {p : F32} (h : c.sampleRate.le (p.add F32.one) = false) :
    phaseNext c p = p.add F32.one := if_neg (by simp [h])

/-- With a whole SAMPLE_RATE the sum is exact and at most SAMPLE_RATE, so the wrap, where it happens, is to 0. -/
theorem phaseNext_units_eq_emod {c : Cfg} {o : Osc} (hc : c.legal = true) (hw : wholeNumber c.sampleRate = true)
    (h : OscInv c o) : (phaseNext c o.phase).units = (o.phase.units + 2 ^ 149) % c.sampleRate.units := by
  obtain ⟨hu, hmax⟩ := phaseSum_whole hc h hw
  rcases phaseNext_cases hc h with ⟨hle, he⟩ | ⟨hlt, he⟩
  · have hs : o.phase.units + 2 ^ 149 = c.sampleRate.units := le_antisymm hmax (hu ▸ hle)
    rw [he, (F32.sub_finite (phaseSum_units hc h).1 (isFinite_sampleRate hc)).2, hu, hs, sub_self, F32.roundUnits_zero,
      Int.emod_self]
  · obtain ⟨-, h0, -⟩ := h.phase_units
    rw [he, hu, Int.emod_eq_of_lt (by omega) (hu ▸ hlt)]

/-- Settles O33: the two branches of R104's wrap, and the phase modulo a whole SAMPLE_RATE. -/
theorem phaseCountsModuloTheSampleRate : Obligations.PhaseCountsModuloTheSampleRate :=
  ⟨fun c o => ⟨phaseNext_of_le, phaseNext_of_not_le, oscTick_freq c o, oscTick_wave c o⟩,
    fun _ _ => phaseNext_units_eq_emod⟩

/-- Settles O34: the tick keeps the oscillator's invariant. -/
theorem phaseStaysBelowTheSampleRate : Obligations.PhaseStaysBelowTheSampleRate := fun _ _ => OscInv.oscTick

/-! ## The included harmonics -/

/-- The included harmonics are 1, always, and every later index of the step that is not above the Nyquist frequency. -/
theorem mem_harmonics {c : Cfg} {f : F32} {step : Nat} (hc : c.legal = true) (hf : F32.zero.lt f = true) (hs : 0 < step)
    (k : Nat) : k ∈ harmonics c f step ↔ k = 1 ∨ (1 < k ∧ k % step = 1 % step ∧ aboveNyquist c f k = false) := by
  obtain ⟨m, hm, hfar⟩ := harmonicFuel_succ
  rw [harmonics, hm]
  exact mem_harmonicsFrom hc hf hs le_rfl hfar k

/-- Settles O36: membership and order, for the steps 1 and 2. -/
theorem harmonicsStopAtTheNyquistFrequency : Obligations.HarmonicsStopAtTheNyquistFrequency := by
  intro c f step hc hf hstep
  have hs : 0 < step := by omega
  exact ⟨mem_harmonics hc hf hs, pairwise_harmonicsFrom hs harmonicFuel 1⟩

/-! ## The loop -/

/-- One turn's effect on `acc`: the term of harmonic `k` is added. -/
def addHarmonic (c : Cfg) (f p : F32) (g : Nat) (acc : F32) (k : Nat) : F32 :=
  acc.add ((tone c (harmonicFreq k f) p).div (harmonicWeight g k))

theorem hsum_eq_foldl (c : Cfg) (f p : F32) (step g : Nat) :
    hsum c f p step g = (harmonics c f step).foldl (addHarmonic c f p g) F32.zero := rfl

/-- One turn: the term is added, and the test is made on the next harmonic. -/
theorem hsumLoop_succ (c : Cfg) (f p : F32) (step g fuel : Nat) (acc : F32) (k : Nat) :
    hsumLoop c f p step g (fuel + 1) acc k =
      if aboveNyquist c f (k + step) then addHarmonic c f p g acc k
      else hsumLoop c f p step g fuel (addHarmonic c f p g acc k) (k + step) := rfl

/-- The loop adds the terms of the harmonics it visits, in their order. -/
theorem hsumLoop_eq_foldl (c : Cfg) (f p : F32) (step g fuel : Nat) (acc : F32) (k : Nat) :
    hsumLoop c f p step g fuel acc k = (harmonicsFrom c f step fuel k).foldl (addHarmonic c f p g) acc := by
  induction fuel generalizing acc k with
  | zero => rfl
  | succ fuel ih =>
    rw [hsumLoop_succ, harmonicsFrom, List.foldl_cons]
    split
    · rfl
    · exact ih _ _

theorem hsum_eq_hsumLoop (c : Cfg) (f p : F32) (step g : Nat) :
    hsum c f p step g = hsumLoop c f p step g harmonicFuel F32.zero 1 := by
  rw [hsum_eq_foldl, harmonics, hsumLoop_eq_foldl]

/-- Settles O37: each waveform's sample is the harmonic sum with its step and weight exponent. -/
theorem harmonicSumIsTheLoop : Obligations.HarmonicSumIsTheLoop := fun c o =>
  ⟨fun h => (oscTick_sample_of_wave h).trans (hsum_eq_hsumLoop c o.freq _ 2 1),
    fun h => (oscTick_sample_of_wave h).trans (hsum_eq_hsumLoop c o.freq _ 1 1),
    fun h => (oscTick_sample_of_wave h).trans (hsum_eq_hsumLoop c o.freq _ 2 2)⟩

/-- Settles O38: with turns enough to reach 2^128, the harmonics visited, and so the sum over them, no longer depend on the
bound. -/
theorem harmonicLoopEnds : Obligations.HarmonicLoopEnds := by
  intro c f p step g extra hc hf hs
  obtain ⟨m, hm, hfar⟩ := harmonicFuel_succ
  rw [hsumLoop_eq_foldl, hsumLoop_eq_foldl, hm, harmonicsFrom_fuel hc hf hs hfar]

end Sys2Proof.Machine
end

section
/-! PROOFS. The statements of 41_envelope.md: the note events (R132, R133), one equation for each outcome of a tick (R136 to
R140), from which its transitions and the direction of the amplitude follow (R134, R142), and the level steps at the ends of
SUSTAIN_LEVEL's range and where a product overflows (R131, R144, R145). -/

namespace Sys2Proof.Machine

/-! ## Note events -/

section Events

variable {e : Env}

theorem envNoteOff_of_ne_idle (h : e.state ≠ .idle) :
    envNoteOff e = { state := .release, amp := e.amp, elapsed := 0 } := by
  simp [envNoteOff, h]

theorem envNoteOff_of_idle (h : e.state = .idle) : envNoteOff e = { state := .idle, amp := e.amp, elapsed := 0 } := by
  simp [envNoteOff, h]

end Events

/-- Settles O39: ENV_NOTE_ON does not look at the state, ENV_NOTE_OFF only at whether it is Idle. -/
theorem envelopeNoteEvents : Obligations.EnvelopeNoteEvents := fun _ => ⟨rfl, envNoteOff_of_ne_idle, envNoteOff_of_idle⟩

/-! ## One tick -/

section Tick

variable {c : Cfg} {e : Env}

theorem envTick_idle (h : e.state = .idle) :
    (envTick c e).1.state = .idle ∧ (envTick c e).1.amp = F32.zero := by
  simp [envTick, envLevel, h]

theorem envTick_attack_of_le (h : e.state = .attack) (hle : F32.one.le (e.amp.add (attackInc c)) = true) :
    (envTick c e).1.state = .decay ∧ (envTick c e).1.amp = F32.one := by
  simp [envTick, envLevel, h, hle]

theorem envTick_attack_of_not_le (h : e.state = .attack) (hle : F32.one.le (e.amp.add (attackInc c)) = false) :
    (envTick c e).1.state = .attack ∧ (envTick c e).1.amp = e.amp.add (attackInc c) := by
  simp [envTick, envLevel, h, hle]

theorem envTick_decay_of_le (h : e.state = .decay) (hle : (e.amp.sub (decayDec c)).le c.sustainLevel = true) :
    (envTick c e).1.state = .sustain ∧ (envTick c e).1.amp = c.sustainLevel := by
  simp [envTick, envLevel, h, hle]

theorem envTick_decay_of_not_le (h : e.state = .decay) (hle : (e.amp.sub (decayDec c)).le c.sustainLevel = false) :
    (envTick c e).1.state = .decay ∧ (envTick c e).1.amp = e.amp.sub (decayDec c) := by
  simp [envTick, envLevel, h, hle]

theorem envTick_sustain (h : e.state = .sustain) :
    (envTick c e).1.state = .sustain ∧ (envTick c e).1.amp = c.sustainLevel := by
  simp [envTick, envLevel, h]

theorem envTick_release_of_le (h : e.state = .release) (hle : (e.amp.sub (releaseDec c)).le F32.zero = true) :
    (envTick c e).1.state = .idle ∧ (envTick c e).1.amp = F32.zero := by
  simp [envTick, envLevel, h, hle]

theorem envTick_release_of_not_le (h : e.state = .release) (hle : (e.amp.sub (releaseDec c)).le F32.zero = false) :
    (envTick c e).1.state = .release ∧ (envTick c e).1.amp = e.amp.sub (releaseDec c) := by
  simp [envTick, envLevel, h, hle]

end Tick

/-- Settles O40: the equations of the eight outcomes; the value returned is the new AMP by definition. -/
theorem envelopeTickFollowsItsState : Obligations.EnvelopeTickFollowsItsState := fun _ _ =>
  ⟨rfl, envTick_idle, envTick_attack_of_le, envTick_attack_of_not_le, envTick_decay_of_le, envTick_decay_of_not_le,
    envTick_sustain, envTick_release_of_le, envTick_release_of_not_le⟩

theorem elapsedNext_toNat (n : BitVec 32) : (elapsedNext n).toNat = min (n.toNat + 1) 0xFFFFFFFF := by
  unfold elapsedNext
  split <;> bv_omega

/-- Settles O41: the count does not depend on the state. -/
theorem elapsedCountsAndSaturates : Obligations.ElapsedCountsAndSaturates := fun _ e => elapsedNext_toNat e.elapsed

/-- Settles O42: each state's outcomes are rows of R134's table. -/
theorem envelopeTickTransitions : Obligations.EnvelopeTickTransitions := by
  rintro c e _ rfl
  cases he : e.state with
  | idle => simp [envTick_idle he]
  | attack =>
    cases hle : F32.one.le (e.amp.add (attackInc c)) with
    | false => simp [envTick_attack_of_not_le he hle]
    | true => simp [envTick_attack_of_le he hle]
  | decay =>
    cases hle : (e.amp.sub (decayDec c)).le c.sustainLevel with
    | false => simp [envTick_decay_of_not_le he hle]
    | true => simp [envTick_decay_of_le he hle]
  | sustain => simp [envTick_sustain he]
  | release =>
    cases hle : (e.amp.sub (releaseDec c)).le F32.zero with
    | false => simp [envTick_release_of_not_le he hle]
    | true => simp [envTick_release_of_le he hle]

/-! ## The amplitude's direction -/

section Direction

variable {c : Cfg} {e : Env}

theorem EnvInv.isFinite_amp (h : EnvInv c e) : e.amp.isFinite = true :=
  (bounded_of_unitRange h.amp_ge h.amp_le).isFinite (by norm_num)

/-- Attack's clamp is to 1.0, which no amplitude passes. -/
theorem EnvInv.le_amp_of_attack (hc : c.legal = true) (h : EnvInv c e) (he : e.state = .attack) :
    e.amp.le (Machine.envTick c e).1.amp = true := by
  cases hle : F32.one.le (e.amp.add (attackInc c)) with
  | false =>
    obtain ⟨hn, hu⟩ := le_add_step h.isFinite_amp (attackInc_nonneg hc).1 (attackInc_nonneg hc).2
    rw [(envTick_attack_of_not_le he hle).2, F32.le_iff]
    exact ⟨F32.isNaN_of_isFinite h.isFinite_amp, hn, hu⟩
  | true => rw [(envTick_attack_of_le he hle).2, h.amp_le]

/-- Taking a step off, where the step is not NaN and not negative, gives a value the amplitude is at least. -/
theorem EnvInv.sub_step_le_amp (h : EnvInv c e) {d : F32} (hd : d.isNaN = false ∧ 0 ≤ d.units) :
    (e.amp.sub d).le e.amp = true := by
  obtain ⟨hn, hu⟩ := sub_step_le h.isFinite_amp hd.1 hd.2
  exact (F32.le_iff _ _).2 ⟨hn, F32.isNaN_of_isFinite h.isFinite_amp, hu⟩

/-- Decay's clamp is to SUSTAIN_LEVEL, which no amplitude in Decay is below. -/
theorem EnvInv.amp_le_of_decay (hc : c.legal = true) (h : EnvInv c e) (he : e.state = .decay) :
    (Machine.envTick c e).1.amp.le e.amp = true := by
  cases hle : (e.amp.sub (decayDec c)).le c.sustainLevel with
  | false => rw [(envTick_decay_of_not_le he hle).2, h.sub_step_le_amp (decayDec_nonneg hc)]
  | true => rw [(envTick_decay_of_le he hle).2, h.decay_amp he]

/-- Release's clamp is to 0.0, which no amplitude is below. -/
theorem EnvInv.amp_le_of_release (hc : c.legal = true) (h : EnvInv c e) (he : e.state = .release) :
    (Machine.envTick c e).1.amp.le e.amp = true := by
  cases hle : (e.amp.sub (releaseDec c)).le F32.zero with
  | false => rw [(envTick_release_of_not_le he hle).2, h.sub_step_le_amp (releaseDec_nonneg hc)]
  | true => rw [(envTick_release_of_le he hle).2, h.amp_ge]

end Direction

/-- Settles O43: the range is the invariant a tick keeps; the direction is that of each state's step and clamp. -/
theorem amplitudeStaysInItsStatesRange : Obligations.AmplitudeStaysInItsStatesRange := fun _ _ hc h =>
  ⟨h.envTick hc, h.le_amp_of_attack hc, h.amp_le_of_decay hc, h.amp_le_of_release hc⟩

/-! ## The level steps -/

section Steps

variable {c : Cfg}

/-- +0.0 over a positive value, infinity too, is +0.0. -/
theorem zero_div_step {d : F32} (hn : d.isNaN = false) (hd : 0 < d.units) : F32.zero.div d = F32.zero := by
  have hs : (F32.zero.div d).sign = false := (sign_div_step F32.isFinite_zero hn hd).trans F32.sign_zero
  obtain ⟨-, -, hu⟩ := div_nonneg_step F32.isFinite_zero F32.units_zero.ge hn hd
  exact F32.eq_zero_of_units hs (hu F32.units_zero)

/-- A finite value over +∞ is the zero of the value's sign. -/
theorem div_posInf_step {a d : F32} (ha : a.isFinite = true) (hd : 0 < d.units) (hi : d.isInf = true) :
    a.div d = F32.ofSignMag a.sign 0 := by
  rw [F32.div_inf_eq ha hi, F32.sign_of_units_pos hd, Bool.bne_false]

theorem one_sub_one : F32.one.sub F32.one = F32.zero := by decide +kernel

theorem one_sub_zero : F32.one.sub F32.zero = F32.one := by decide +kernel

/-- With SUSTAIN_LEVEL = 1.0 Decay has nothing to take off. -/
theorem decayDec_of_sustain_one (hc : c.legal = true) (hs : c.sustainLevel = F32.one) : decayDec c = F32.zero := by
  obtain ⟨-, -, ⟨ht, hp⟩, -⟩ := legal_units hc
  obtain ⟨hn, hd⟩ := time_mul_rate hc ht hp
  rw [decayDec, hs, one_sub_one, zero_div_step hn hd]

/-- With SUSTAIN_LEVEL = +0.0 Release takes nothing off. -/
theorem releaseDec_of_sustain_zero (hc : c.legal = true) (hs : c.sustainLevel = F32.zero) : releaseDec c = F32.zero := by
  obtain ⟨-, -, -, ⟨ht, hp⟩, -⟩ := legal_units hc
  obtain ⟨hn, hd⟩ := time_mul_rate hc ht hp
  rw [releaseDec, hs, zero_div_step hn hd]

/-- 1.0 − SUSTAIN_LEVEL has a clear sign also where it is 0: at S = 1.0 the difference is +0.0. -/
theorem sign_one_sub_sustain (hc : c.legal = true) : (F32.one.sub c.sustainLevel).sign = false := by
  have hf : c.sustainLevel.neg.isFinite = true := by simpa using isFinite_sustainLevel hc
  obtain ⟨-, -, -, -, -, -, hle⟩ := legal_units hc
  have hsum : ¬ F32.one.units + c.sustainLevel.neg.units < 0 := by
    rw [F32.units_one, F32.units_neg]
    omega
  have h1 : F32.one.sign = false := by decide
  rw [F32.sub_eq_add (F32.add_finite F32.isFinite_one hf).1, F32.sign_add_finite F32.isFinite_one hf, h1, Bool.false_and,
    decide_eq_false hsum, ite_self]

/-- The one legal SUSTAIN_LEVEL with its sign set is −0.0 (log entry 16). -/
theorem sign_sustainLevel_iff (hc : c.legal = true) :
    c.sustainLevel.sign = true ↔ c.sustainLevel = ⟨0x80000000⟩ := by
  obtain ⟨-, -, -, -, -, h0, -⟩ := legal_units hc
  have hneg : (F32.mk 0x80000000).sign = true ∧ (F32.mk 0x80000000).units = 0 := by decide
  refine ⟨fun hs => ?_, fun h => h ▸ hneg.1⟩
  have hu : c.sustainLevel.units = 0 := le_antisymm (F32.units_nonpos hs) h0
  exact F32.eq_of_units (hs.trans hneg.1.symm) (hu.trans hneg.2.symm)

theorem zero_le_of_nonneg {x : F32} (h : x.isNaN = false ∧ 0 ≤ x.units) : F32.zero.le x = true :=
  (F32.le_iff _ _).2 ⟨F32.isNaN_zero, h.1, F32.units_zero ▸ h.2⟩

theorem attackInc_of_overflow (hc : c.legal = true) (hi : (c.attackTime.mul c.sampleRate).isInf = true) :
    attackInc c = F32.zero := by
  obtain ⟨-, ⟨ht, hp⟩, -⟩ := legal_units hc
  rw [attackInc, div_posInf_step F32.isFinite_one (time_mul_rate hc ht hp).2 hi]
  decide

theorem decayDec_of_overflow (hc : c.legal = true) (hi : (c.decayTime.mul c.sampleRate).isInf = true) :
    decayDec c = F32.zero := by
  obtain ⟨-, -, ⟨ht, hp⟩, -⟩ := legal_units hc
  rw [decayDec, div_posInf_step (one_sub_sustain hc).1 (time_mul_rate hc ht hp).2 hi, sign_one_sub_sustain hc]
  decide

theorem releaseDec_of_overflow (hc : c.legal = true) (hi : (c.releaseTime.mul c.sampleRate).isInf = true) :
    releaseDec c = if c.sustainLevel = ⟨0x80000000⟩ then ⟨0x80000000⟩ else ⟨0x00000000⟩ := by
  obtain ⟨-, -, -, ⟨ht, hp⟩, -⟩ := legal_units hc
  rw [releaseDec, div_posInf_step (isFinite_sustainLevel hc) (time_mul_rate hc ht hp).2 hi]
  split
  · next h =>
    rw [(sign_sustainLevel_iff hc).2 h]
    decide
  · next h =>
    rw [Bool.eq_false_iff.2 (mt (sign_sustainLevel_iff hc).1 h)]
    decide

end Steps

/-- Settles O60: the quotients are the definitions, and an overflowed product leaves a zero with the dividend's sign. -/
theorem levelStepsAreNotNegative : Obligations.LevelStepsAreNotNegative := fun _ =>
  ⟨⟨rfl, rfl, rfl⟩, fun hc =>
    ⟨⟨zero_le_of_nonneg (attackInc_nonneg hc), zero_le_of_nonneg (decayDec_nonneg hc),
        zero_le_of_nonneg (releaseDec_nonneg hc)⟩,
      attackInc_of_overflow hc, decayDec_of_overflow hc, releaseDec_of_overflow hc⟩⟩

/-! ## SUSTAIN_LEVEL at 1.0 and at 0.0 -/

/-- Settles O44: the step is +0.0, so the first test of Decay is 1.0 ≤ 1.0. -/
theorem sustainLevelOneDecaysInOneTick : Obligations.SustainLevelOneDecaysInOneTick := by
  intro c e hc hs he ha
  have hdec := decayDec_of_sustain_one hc hs
  have hle : (e.amp.sub (decayDec c)).le c.sustainLevel = true := by
    rw [ha, hdec, hs, one_sub_zero]
    exact unitRange_one.2
  obtain ⟨hst, hamp⟩ := envTick_decay_of_le he hle
  exact ⟨hdec, hst, hamp.trans hs⟩

/-- Taking +0.0 off a value that is not 0 leaves its bits. -/
theorem sub_zero_of_units_ne_zero {a : F32} (ha : a.isFinite = true) (h0 : a.units ≠ 0) : a.sub F32.zero = a := by
  obtain ⟨-, hu⟩ := sub_zero_step ha F32.isFinite_zero F32.units_zero
  exact F32.eq_of_units_ne_zero (hu ▸ h0) hu

/-- Release's test after taking +0.0 off is whether the amplitude was above 0.0. -/
theorem sub_zero_le_zero {a : F32} (ha : a.isFinite = true) : (a.sub F32.zero).le F32.zero = !F32.zero.lt a := by
  obtain ⟨hn, hu⟩ := sub_zero_step ha F32.isFinite_zero F32.units_zero
  simp only [F32.le, F32.lt, hn, hu, F32.isNaN_of_isFinite ha, F32.isNaN_zero, F32.units_zero, Bool.not_false,
    Bool.true_and, ← decide_not, not_lt]

/-- Settles O45: the step is +0.0, so Release's test is on the amplitude it starts from. -/
theorem sustainLevelZeroStallsRelease : Obligations.SustainLevelZeroStallsRelease := by
  intro c e hc hs he h
  have hrel := releaseDec_of_sustain_zero hc hs
  have htest : (e.amp.sub (releaseDec c)).le F32.zero = !F32.zero.lt e.amp := by
    rw [hrel, sub_zero_le_zero h.isFinite_amp]
  refine ⟨hrel, fun hpos => ?_, fun hzero => envTick_release_of_le he (by rw [htest, hzero, Bool.not_false])⟩
  obtain ⟨hst, hamp⟩ := envTick_release_of_not_le he (by rw [htest, hpos, Bool.not_true])
  obtain ⟨-, -, hlt⟩ := (F32.lt_iff _ _).1 hpos
  rw [hrel, sub_zero_of_units_ne_zero h.isFinite_amp (F32.units_zero ▸ hlt).ne'] at hamp
  exact ⟨hst, hamp⟩

end Sys2Proof.Machine
end

section
/-! PROOFS. The statements of 42_voice.md: a voice's tick is the gated product of its sub-units' ticks (R163, R165), and reads
no register of another voice (R160). A TICK that completes leaves `State.ticked`, so each statement about it is one about
`voiceTick`. -/

namespace Sys2Proof.Machine

/-! ## One voice -/

section Voice

variable {c : Cfg}

/-- R165 with GAIN_SCALING = 0: the product, without GAIN. -/
theorem voiceOutput_of_not_gainScaling (hc : c.gainScaling = false) (g s a : F32) : voiceOutput c g s a = s.mul a := by
  rw [voiceOutput, hc, if_neg Bool.false_ne_true]

/-- R165 with GAIN_SCALING = 1: the product, rounded, times GAIN. -/
theorem voiceOutput_of_gainScaling (hc : c.gainScaling = true) (g s a : F32) :
    voiceOutput c g s a = (s.mul a).mul g := by
  rw [voiceOutput, hc, if_pos rfl]

/-- With GAIN_SCALING = 0 a voice's sample is its sub-units' alone. -/
theorem voiceTick_sample_of_not_gainScaling (hc : c.gainScaling = false) (v : Voice) :
    (voiceTick c v).2 = (oscTick c v.osc).2.mul (envTick c v.env).2 := voiceOutput_of_not_gainScaling hc ..

/-- Settles O46: what the voice becomes and returns is `voiceTick`'s two components, and GAIN_SCALING selects the product. -/
theorem voiceTickIsTheGatedProduct : Obligations.VoiceTickIsTheGatedProduct := fun _ v =>
  ⟨rfl, fun hc => voiceTick_sample_of_not_gainScaling hc v, fun hc => voiceOutput_of_gainScaling hc ..⟩

end Voice

/-! ## Every voice, in a TICK -/

section Tick

variable {s s' t t' : State}

/-- A TICK that completes leaves the ticked state. -/
theorem eq_ticked_of_exec_tick (h : exec .tick s = .next t) : t = s.ticked := by
  rcases exec_cases h with ⟨_, _, hi, -⟩ | ⟨_, _, hi, -⟩ | ⟨-, -, -, ht⟩ | ⟨_, hi, -⟩
  · cases hi
  · cases hi
  · exact ht
  · cases hi

/-- A TICK makes of each voice what VOICE_TICK makes of it (43_allocator_mixer.md R193). -/
theorem exec_tick_voice (h : exec .tick s = .next t) (j : Fin 4) :
    t.voices.get j = (voiceTick s.cfg (s.voices.get j)).1 := by
  rw [eq_ticked_of_exec_tick h, State.ticked_voices, Lanes.get_map]

/-- With GAIN_SCALING = 0 states whose oscillators and envelopes agree return the same samples in a TICK. -/
theorem voiceSamples_eq_of_not_gainScaling (hc : s.cfg.gainScaling = false) (hcfg : s'.cfg = s.cfg)
    (hosc : ∀ i, (s'.voices.get i).osc = (s.voices.get i).osc) (henv : ∀ i, (s'.voices.get i).env = (s.voices.get i).env) :
    s'.voiceSamples = s.voiceSamples := by
  refine Lanes.ext_get fun i => ?_
  rw [State.voiceSamples, State.voiceSamples, Lanes.get_map, Lanes.get_map, hcfg,
    voiceTick_sample_of_not_gainScaling hc, voiceTick_sample_of_not_gainScaling hc, hosc, henv]

/-- With GAIN_SCALING = 0 states whose oscillators and envelopes agree have the same SAMPLE_OUT after a TICK. -/
theorem sampleOut_eq_of_not_gainScaling (h : exec .tick s = .next t) (h' : exec .tick s' = .next t')
    (hc : s.cfg.gainScaling = false) (hcfg : s'.cfg = s.cfg)
    (hosc : ∀ i, (s'.voices.get i).osc = (s.voices.get i).osc) (henv : ∀ i, (s'.voices.get i).env = (s.voices.get i).env) :
    t'.sampleOut = t.sampleOut := by
  rw [eq_ticked_of_exec_tick h, eq_ticked_of_exec_tick h', State.ticked_sampleOut, State.ticked_sampleOut,
    voiceSamples_eq_of_not_gainScaling hc hcfg hosc henv]

end Tick

/-- Settles O53: new gains leave every oscillator and envelope as it was, lane by lane. -/
theorem gainIsSilentWithoutGainScaling : Obligations.GainIsSilentWithoutGainScaling := by
  intro s g hc t t' h h'
  refine sampleOut_eq_of_not_gainScaling h h' hc rfl (fun i => ?osc) fun i => ?env
  case osc => fin_cases i <;> rfl
  case env => fin_cases i <;> rfl

/-- Settles O52: by `exec_tick_voice` the new voice is a function of CFG and the old one. -/
theorem voicesDoNotInterfere : Obligations.VoicesDoNotInterfere := by
  intro s s' t t' j hcfg hvoice h h'
  rw [exec_tick_voice h, exec_tick_voice h', hcfg, hvoice]

end Sys2Proof.Machine
end

section
/-! PROOFS. The statements of 43_allocator_mixer.md: the two scans (R184, R185), NOTE_ON and NOTE_OFF as one changed lane (R186
to R190), the conversions of a note and of a velocity (R182, R183, R191), TICK's mix (R193, R194) and SET_WAVEFORM (R196). -/

namespace Sys2Proof

/-! ## Zeros of either sign -/

section Zeros

variable {a b : F32}

theorem F32.isFinite_of_isZero (h : a.isZero = true) : a.isFinite = true := by
  rw [F32.isZero_iff] at h
  rw [F32.isFinite_iff, h]
  decide

theorem F32.isZero_iff_units : a.isZero = true ↔ a.units = 0 := by rw [F32.isZero_iff, F32.units_eq_zero_iff]

/-- A product with a zero is a zero, of either sign. -/
theorem F32.isZero_mul (ha : a.isFinite = true) (hb : b.isFinite = true) (h : a.isZero = true ∨ b.isZero = true) :
    (a.mul b).isZero = true := by
  rw [F32.isZero_iff_units, F32.isZero_iff_units] at h
  rw [F32.isZero_iff_units, (F32.mul_finite ha hb).2, mul_eq_zero.2 h, F32.roundUnits_zero]

/-- +0.0 plus a zero of either sign is +0.0. -/
theorem F32.zero_add_of_isZero (h : a.isZero = true) : F32.zero.add a = F32.zero := by
  have hf := F32.isFinite_of_isZero h
  have hsum : F32.zero.units + a.units = 0 := by rw [F32.units_zero, F32.isZero_iff_units.1 h, add_zero]
  refine F32.eq_zero_of_units ?_ ?_
  · rw [F32.sign_add_finite F32.isFinite_zero hf, if_pos hsum, F32.sign_zero, Bool.false_and]
  · rw [(F32.add_finite F32.isFinite_zero hf).2, hsum, F32.roundUnits_zero]

end Zeros

namespace Machine

/-! ## The scans -/

section Scans

variable {s : State} {n : Nat} {i : Fin 4}

/-- A slot that a NOTE_OFF of note `n` can release (R185). -/
def Slot.Holds (sl : Slot) (n : Nat) : Prop := sl.valid = true ∧ sl.note.toNat = n

theorem Slot.holds_assigned (hn : n ≤ 127) (v : Nat) : (Slot.assigned n v).Holds n :=
  ⟨rfl, by rw [Slot.assigned, BitVec.toNat_ofNat]; omega⟩

theorem Slot.not_holds_cleared : ¬ Slot.cleared.Holds n := fun h => Bool.false_ne_true h.1

theorem firstFree_eq_some_iff :
    s.firstFree = some i ↔ (s.slots.get i).valid = false ∧ ∀ j, j < i → (s.slots.get j).valid = true := by
  simp only [State.firstFree, find_voice_eq_some, Bool.not_eq_true', Bool.not_eq_false']

theorem firstFree_eq_none_iff : s.firstFree = none ↔ ∀ i, (s.slots.get i).valid = true := by
  simp only [State.firstFree, find_voice_eq_none, Bool.not_eq_false']

theorem firstMatch_eq_some_iff :
    s.firstMatch n = some i ↔ (s.slots.get i).Holds n ∧ ∀ j, j < i → ¬ (s.slots.get j).Holds n := by
  simp only [State.firstMatch, find_voice_eq_some, Slot.Holds, ← Bool.not_eq_true, Bool.and_eq_true, decide_eq_true_eq]

theorem firstMatch_eq_none_iff : s.firstMatch n = none ↔ ∀ i, ¬ (s.slots.get i).Holds n := by
  simp only [State.firstMatch, find_voice_eq_none, Slot.Holds, ← Bool.not_eq_true, Bool.and_eq_true, decide_eq_true_eq]

end Scans

/-- Settles O16: `find_voice_eq_some` and `find_voice_eq_none` at the predicate "free". -/
theorem firstFreeIsTheLeastFreeSlot : Obligations.FirstFreeIsTheLeastFreeSlot := fun _ =>
  ⟨fun _ => firstFree_eq_some_iff, firstFree_eq_none_iff⟩

/-- Settles O17: `find_voice_eq_some` and `find_voice_eq_none` at the predicate "holds the note". -/
theorem firstMatchIsTheLeastMatchingSlot : Obligations.FirstMatchIsTheLeastMatchingSlot := fun _ _ =>
  ⟨fun _ => firstMatch_eq_some_iff, firstMatch_eq_none_iff⟩

/-! ## NOTE_ON and NOTE_OFF -/

section Events

variable {s t : State} {n : Nat} {i j : Fin 4}

theorem exec_noteOn_of_firstFree (h : s.firstFree = some i) (v : Nat) :
    exec (.noteOn n v) s = .next (s.startNote i n v) := by
  simp only [exec, execNoteOn, h]

theorem exec_noteOn_of_full (h : s.firstFree = none) (v : Nat) : exec (.noteOn n v) s = .next s := by
  simp only [exec, execNoteOn, h]

theorem exec_noteOff_of_firstMatch (h : s.firstMatch n = some i) (v : Nat) :
    exec (.noteOff n v) s = .next (s.releaseNote i) := by
  simp only [exec, execNoteOff, h]

theorem exec_noteOff_of_unmatched (h : s.firstMatch n = none) (v : Nat) : exec (.noteOff n v) s = .next s := by
  simp only [exec, execNoteOff, h]

theorem State.startNote_slot (s : State) (i j : Fin 4) (n v : Nat) :
    (s.startNote i n v).slots.get j = if j = i then Slot.assigned n v else s.slots.get j := Lanes.get_set ..

theorem State.startNote_voice (s : State) (i j : Fin 4) (n v : Nat) :
    (s.startNote i n v).voices.get j =
      if j = i then voiceNoteOn (s.voices.get i) (noteToHz n) (velToGain v) else s.voices.get j := Lanes.get_set ..

theorem State.releaseNote_slot (s : State) (i j : Fin 4) :
    (s.releaseNote i).slots.get j = if j = i then Slot.cleared else s.slots.get j := Lanes.get_set ..

theorem State.releaseNote_voice (s : State) (i j : Fin 4) :
    (s.releaseNote i).voices.get j = if j = i then voiceNoteOff (s.voices.get i) else s.voices.get j := Lanes.get_set ..

theorem State.startNote_lane_of_ne (h : j ≠ i) (n v : Nat) :
    (s.startNote i n v).voices.get j = s.voices.get j ∧ (s.startNote i n v).slots.get j = s.slots.get j := by
  rw [State.startNote_voice, State.startNote_slot, if_neg h, if_neg h]
  exact ⟨rfl, rfl⟩

theorem State.releaseNote_lane_of_ne (h : j ≠ i) :
    (s.releaseNote i).voices.get j = s.voices.get j ∧ (s.releaseNote i).slots.get j = s.slots.get j := by
  rw [State.releaseNote_voice, State.releaseNote_slot, if_neg h, if_neg h]
  exact ⟨rfl, rfl⟩

theorem State.releaseNote_slot_self (s : State) (i : Fin 4) : (s.releaseNote i).slots.get i = Slot.cleared :=
  Lanes.get_set_self ..

/-- A sounding voice goes to Release. -/
theorem State.releaseNote_state_self (h : (s.voices.get i).env.state ≠ .idle) :
    ((s.releaseNote i).voices.get i).env.state = .release := by
  rw [State.releaseNote_voice, if_pos rfl, voiceNoteOff, envNoteOff_of_ne_idle h]

/-- NOTE_ON leaves every lane but the first free one. -/
theorem exec_noteOn_lane {v : Nat} (h : exec (.noteOn n v) s = .next t) (hj : s.firstFree ≠ some j) :
    t.voices.get j = s.voices.get j ∧ t.slots.get j = s.slots.get j := by
  cases hf : s.firstFree with
  | none => rw [exec_noteOn_of_full hf] at h; cases h; exact ⟨rfl, rfl⟩
  | some i =>
    rw [exec_noteOn_of_firstFree hf] at h; cases h
    exact State.startNote_lane_of_ne (by rintro rfl; exact hj hf) n v

/-- NOTE_OFF leaves every lane but the first that holds the note. -/
theorem exec_noteOff_lane {v : Nat} (h : exec (.noteOff n v) s = .next t) (hj : s.firstMatch n ≠ some j) :
    t.voices.get j = s.voices.get j ∧ t.slots.get j = s.slots.get j := by
  cases hm : s.firstMatch n with
  | none => rw [exec_noteOff_of_unmatched hm] at h; cases h; exact ⟨rfl, rfl⟩
  | some i =>
    rw [exec_noteOff_of_firstMatch hm] at h; cases h
    exact State.releaseNote_lane_of_ne (by rintro rfl; exact hj hm)

end Events

/-- Settles O18: the next state is `State.startNote`, and a well-formed operand fits its 7-bit field. -/
theorem noteOnClaimsTheFirstFreeSlot : Obligations.NoteOnClaimsTheFirstFreeSlot := by
  intro s n v hwf
  simp only [Instr.wellFormed, isMidiByte, Bool.and_eq_true, decide_eq_true_eq] at hwf
  refine ⟨fun i hi => ⟨_, exec_noteOn_of_firstFree hi v, ?_⟩, fun h => exec_noteOn_of_full h v⟩
  obtain ⟨hvalid, hnote⟩ := Slot.holds_assigned hwf.1 v
  have hvel : (Slot.assigned n v).vel.toNat = v := by rw [Slot.assigned, BitVec.toNat_ofNat]; omega
  rw [State.startNote_slot, State.startNote_voice, if_pos rfl, if_pos rfl]
  exact ⟨hvalid, hnote, hvel, rfl, fun j hj => (State.startNote_lane_of_ne hj n v).symm, rfl, rfl, rfl, rfl, rfl, rfl⟩

/-- Settles O19: with every slot valid the scan finds none. -/
theorem noteOnIsDroppedWhenFull : Obligations.NoteOnIsDroppedWhenFull := fun _ _ v h =>
  exec_noteOn_of_full (firstFree_eq_none_iff.2 h) v

/-- Settles O20: the next state is `State.releaseNote`, whose envelope is Idle or in Release as R133 has it. -/
theorem noteOffReleasesTheFirstMatch : Obligations.NoteOffReleasesTheFirstMatch := by
  intro s n v
  refine ⟨fun i hi => ⟨_, exec_noteOff_of_firstMatch hi v, ?_⟩, fun h => exec_noteOff_of_unmatched h v⟩
  rw [State.releaseNote_slot, State.releaseNote_voice, if_pos rfl, if_pos rfl]
  refine ⟨rfl, ?_, fun j hj => (State.releaseNote_lane_of_ne hj).symm, rfl, rfl, rfl, rfl, rfl, rfl⟩
  rw [voiceNoteOff]
  split
  · next hidle => rw [envNoteOff_of_idle hidle]
  · next hne => rw [envNoteOff_of_ne_idle hne]

/-- Settles O21: with no slot holding the note the scan finds none. -/
theorem unmatchedNoteOffChangesNothing : Obligations.UnmatchedNoteOffChangesNothing := fun _ _ v h =>
  exec_noteOff_of_unmatched (firstMatch_eq_none_iff.2 h) v

/-- Settles O22: the writers of a register are known by their command, and a note event is none of those that write PHASE,
WAVE, SAMPLE_OUT or, at a NOTE_OFF, FREQ, GAIN or AMP. -/
theorem noteEventFrame : Obligations.NoteEventFrame := by
  intro s t n v on h
  generalize hevent : (if on then Instr.noteOn n v else .noteOff n v) = event at h
  have htick : event ≠ .tick := by rintro rfl; cases on <;> cases hevent
  have hwaveform : ¬ ∃ w, event = .setWaveform w := by rintro ⟨w, rfl⟩; cases on <;> cases hevent
  have hnoteOn (hoff : on = false) : ¬ ∃ n' v', event = .noteOn n' v' := by
    rintro ⟨n', v', rfl⟩; subst hoff; cases hevent
  obtain ⟨hcfg, hstatus, hcfgIn, hinput⟩ := exec_frame h
  obtain ⟨hsample, hemitted⟩ := not_or.1 (mt (exec_block_writers h).1 htick)
  refine ⟨fun j hj => ?_, fun j => ?_, hcfg, hstatus, not_not.1 hsample, not_not.1 hemitted, hcfgIn, hinput⟩
  · subst hevent
    cases on with
    | false => exact exec_noteOff_lane h hj
    | true => exact exec_noteOn_lane h hj
  · obtain ⟨hfreqGain, hwave, hphase, -, hamp⟩ := exec_voice_writers h j
    refine ⟨not_not.1 (mt hphase htick), not_not.1 (mt hwave hwaveform), fun hoff => ?_⟩
    obtain ⟨hfreq, hgain⟩ := not_or.1 (mt hfreqGain (hnoteOn hoff))
    exact ⟨not_not.1 hfreq, not_not.1 hgain, not_not.1 (mt hamp (not_or.2 ⟨htick, hnoteOn hoff⟩))⟩

/-! ## Two presses of one note -/

section Presses

variable {s : State} {n : Nat} {a i j k lo hi : Fin 4}

theorem holds_releaseNote_iff :
    ((s.releaseNote i).slots.get k).Holds n ↔ k ≠ i ∧ (s.slots.get k).Holds n := by
  rw [State.releaseNote_slot]
  split
  · next h => exact iff_of_false Slot.not_holds_cleared fun hk => hk.1 h
  · next h => exact (and_iff_right h).symm

/-- Where slot `a` alone holds the note, a press at slot `j` makes it the two that hold it. -/
theorem holds_startNote_iff (hn : n ≤ 127) (ha : ∀ k, (s.slots.get k).Holds n ↔ k = a) (v : Nat) :
    ((s.startNote j n v).slots.get k).Holds n ↔ k = a ∨ k = j := by
  rw [State.startNote_slot]
  split
  · next h => exact iff_of_true (Slot.holds_assigned hn v) (.inr h)
  · next h => rw [ha k, or_iff_left h]

/-- With two slots holding a note, a NOTE_OFF releases the lower one, and a second NOTE_OFF the other. -/
theorem exec_noteOff_twice (hlt : lo < hi) (hheld : ∀ k, (s.slots.get k).Holds n ↔ k = lo ∨ k = hi) (v v' : Nat) :
    exec (.noteOff n v) s = .next (s.releaseNote lo) ∧
      exec (.noteOff n v') (s.releaseNote lo) = .next ((s.releaseNote lo).releaseNote hi) := by
  have hfirst : s.firstMatch n = some lo := by
    refine firstMatch_eq_some_iff.2 ⟨(hheld lo).2 (.inl rfl), fun k hk h => ?_⟩
    rcases (hheld k).1 h with rfl | rfl
    · exact lt_irrefl _ hk
    · exact lt_asymm hlt hk
  have hsecond : (s.releaseNote lo).firstMatch n = some hi := by
    refine firstMatch_eq_some_iff.2 ⟨holds_releaseNote_iff.2 ⟨hlt.ne', (hheld hi).2 (.inr rfl)⟩, fun k hk h => ?_⟩
    obtain ⟨hne, hkheld⟩ := holds_releaseNote_iff.1 h
    exact ((hheld k).1 hkheld).elim hne hk.ne
  exact ⟨exec_noteOff_of_firstMatch hfirst v, exec_noteOff_of_firstMatch hsecond v'⟩

/-- A held slot's voice and one just started are sounding. -/
theorem State.startNote_state_ne_idle (hinv : SlotInv (s.slots.get a) (s.voices.get a)) (hvalid : (s.slots.get a).valid = true)
    (v : Nat) (hk : k = a ∨ k = j) : ((s.startNote j n v).voices.get k).env.state ≠ .idle := by
  rw [State.startNote_voice]
  split
  · exact EnvState.noConfusion
  · next h =>
    obtain rfl := hk.resolve_right h
    rcases hinv.held_state hvalid with hst | hst | hst <;> rw [hst] <;> exact EnvState.noConfusion

end Presses

/-- Settles O23: after the press the slots that hold the note are `a` and `j`, which are `min a j` and `max a j`; both voices
are sounding, so each of `exec_noteOff_twice`'s two releases ends in Release. -/
theorem secondPressTakesASecondSlot : Obligations.SecondPressTakesASecondSlot := by
  intro s n v v' v'' a j hn hinv hvalid hnote hothers hfree
  have hja : a ≠ j := by
    rintro rfl
    rw [(firstFree_eq_some_iff.1 hfree).1] at hvalid
    cases hvalid
  have hlt : min a j < max a j := min_lt_max.2 hja
  have ha (k : Fin 4) : (s.slots.get k).Holds n ↔ k = a := by
    refine ⟨fun h => not_not.1 fun hne => hothers k hne h, ?_⟩
    rintro rfl
    exact ⟨hvalid, hnote⟩
  have hpair (k : Fin 4) : k = a ∨ k = j ↔ k = min a j ∨ k = max a j := by
    rcases le_total a j with h | h
    · rw [min_eq_left h, max_eq_right h]
    · rw [min_eq_right h, max_eq_left h, or_comm]
  obtain ⟨hfirst, hsecond⟩ :=
    exec_noteOff_twice hlt (fun k => (holds_startNote_iff hn ha v).trans (hpair k)) v' v''
  have hsounding (k : Fin 4) (hk : k = min a j ∨ k = max a j) :=
    State.startNote_state_ne_idle (n := n) hinv hvalid v ((hpair k).2 hk)
  obtain ⟨hvoice, hslot⟩ := State.startNote_lane_of_ne (s := s) hja n v
  obtain ⟨hvoice', hslot'⟩ := State.releaseNote_lane_of_ne (s := s.startNote j n v) hlt.ne'
  obtain ⟨hjvalid, hjnote⟩ := (holds_startNote_iff (j := j) hn ha v).2 (.inr rfl)
  refine ⟨_, _, _, exec_noteOn_of_firstFree hfree v, hslot, hjvalid, hjnote, ?_, hfirst, State.releaseNote_slot_self _ _,
    State.releaseNote_state_self (hsounding _ (.inl rfl)), hslot', hvoice', hsecond, State.releaseNote_slot_self _ _,
    State.releaseNote_state_self ?_⟩
  · rw [hvoice, hinv.held_freq hvalid, hnote, State.startNote_voice, if_pos rfl]
    rfl
  · rw [hvoice']
    exact hsounding _ (.inr rfl)

/-! ## Conversions -/

theorem isNaN_noteToHz {n : Nat} (hn : n ≤ 127) : (noteToHz n).isNaN = false := (noteToHz_between (by omega)).1

/-- Settles O25: the bounds of EXP2's table, times 440.0, do not overlap. -/
theorem noteToHzIsPositiveAndIncreasing : Obligations.NoteToHzIsPositiveAndIncreasing := by
  have hmax : maxNoteHz.isNaN = false ∧ maxNoteHz.units = 2 ^ 163 := by decide +kernel
  refine ⟨fun n hn => ?_, fun m n hmn hn => ?_⟩
  · obtain ⟨hlo, hhi⟩ := noteToHz_units_range (n := n) (by omega)
    refine ⟨isFinite_noteToHz (by omega), (F32.lt_iff _ _).2 ⟨F32.isNaN_zero, isNaN_noteToHz hn, ?_⟩,
      (F32.le_iff _ _).2 ⟨isNaN_noteToHz hn, hmax.1, ?_⟩⟩
    · rw [F32.units_zero]; exact lt_trans (by norm_num) hlo
    · rw [hmax.2]; exact hhi.le
  · exact (F32.lt_iff _ _).2 ⟨isNaN_noteToHz (by omega), isNaN_noteToHz hn, noteToHz_units_lt hmn (by omega)⟩

/-- Distinct notes have distinct frequencies. -/
theorem noteToHz_feq_iff {m n : Nat} (hm : m ≤ 127) (hn : n ≤ 127) : (noteToHz m).feq (noteToHz n) = true ↔ m = n := by
  rw [F32.feq_iff]
  constructor
  · rintro ⟨-, -, hu⟩
    rcases lt_trichotomy m n with hlt | heq | hlt
    · exact absurd hu (noteToHz_units_lt hlt (by omega)).ne
    · exact heq
    · exact absurd hu (noteToHz_units_lt hlt (by omega)).ne'
  · rintro rfl
    exact ⟨isNaN_noteToHz hm, isNaN_noteToHz hm, rfl⟩

/-- Settles O24: NOTE_TO_HZ is injective on the notes, so the two scans test the same of every slot. -/
theorem matchingByFrequencyPicksTheSameSlot : Obligations.MatchingByFrequencyPicksTheSameSlot := by
  intro s n hn
  refine find_voice_congr fun i => ?_
  have hi : (s.slots.get i).note.toNat ≤ 127 := Nat.le_of_lt_succ (s.slots.get i).note.isLt
  rw [Bool.eq_iff_iff, Bool.and_eq_true, Bool.and_eq_true, noteToHz_feq_iff hi hn, decide_eq_true_eq]

/-- At an integer argument EXP2 has the row's one value, and 440.0 times it is computed. -/
theorem noteToHz_of_integer {n : Nat} (hn : n < 128) (hr : (exp2RowOf n).least = (exp2RowOf n).greatest) :
    noteToHz n = a4Hz.mul ⟨(exp2RowOf n).nearest⟩ := by
  rw [noteToHz, F32.exp2, exp2Within_integer _ hn hr]

/-- An octave up is one more in the exponent. -/
theorem noteToHz_octave {k : Nat} (hk : k < 10) : noteToHz (9 + 12 * k) = ⟨0x415C0000 + BitVec.ofNat 32 (k * 2 ^ 23)⟩ := by
  have hmul : ∀ k < 10, a4Hz.mul ⟨(exp2RowOf (9 + 12 * k)).nearest⟩ = ⟨0x415C0000 + BitVec.ofNat 32 (k * 2 ^ 23)⟩ := by
    decide +kernel
  rw [noteToHz_of_integer (by omega) (exp2Rows_octave k hk), hmul k hk]

/-- Settles O26: the ten notes are 9 + 12 · k. -/
theorem noteToHzIsExactAtTheAs : Obligations.NoteToHzIsExactAtTheAs :=
  ⟨noteToHz_octave (k := 0) (by decide), noteToHz_octave (k := 1) (by decide), noteToHz_octave (k := 2) (by decide),
    noteToHz_octave (k := 3) (by decide), noteToHz_octave (k := 4) (by decide), noteToHz_octave (k := 5) (by decide),
    noteToHz_octave (k := 6) (by decide), noteToHz_octave (k := 7) (by decide), noteToHz_octave (k := 8) (by decide),
    noteToHz_octave (k := 9) (by decide)⟩

/-- Neighbouring velocities have increasing gains, so all have. -/
theorem velToGain_strictMonoOn : StrictMonoOn (fun v => (velToGain v).units) (Set.Iic 127) :=
  strictMonoOn_Iic_of_lt_succ (by decide +kernel)

/-- Settles O27: 127.0 is f32(127); range and growth are `velToGain_range` and `velToGain_strictMonoOn`. -/
theorem velToGainIsVelocityOver127 : Obligations.VelToGainIsVelocityOver127 := by
  have h127 : F32.ofNat 127 = ⟨0x42FE0000⟩ := by decide +kernel
  have hnan {v : Nat} (hv : v ≤ 127) : (velToGain v).isNaN = false :=
    F32.isNaN_of_isFinite (velToGain_range v (by omega)).1
  refine ⟨fun v => ?_, by decide +kernel, by decide +kernel, by decide +kernel, fun v hv => ?_, fun u v huv hv => ?_⟩
  · rw [velToGain, h127]
  · obtain ⟨-, h0, h1⟩ := velToGain_range v (by omega)
    exact (unitRange_iff _).2 ⟨hnan hv, h0, h1⟩
  · exact (F32.lt_iff _ _).2 ⟨hnan (by omega), hnan hv, velToGain_strictMonoOn (Set.mem_Iic.2 (by omega)) hv huv⟩

/-! ## TICK -/

section Tick

variable {s : State}

theorem oscHangs_eq_false_iff (o : Osc) : oscHangs o = false ↔ o.wave = .sine ∨ F32.zero.lt o.freq = true := by
  rw [oscHangs, Bool.and_eq_false_iff, decide_eq_false_iff_not, not_not, Bool.not_eq_false']

/-- TICK completes where no oscillator hangs. -/
theorem exec_tick_of_legal (hc : s.cfg.legal = true)
    (h : ∀ i, (s.voices.get i).osc.wave = .sine ∨ F32.zero.lt (s.voices.get i).osc.freq = true) :
    exec .tick s = .next s.ticked := by
  rcases execTick_cases s with ⟨hl, -⟩ | ⟨-, ⟨i, hi⟩, -⟩ | ⟨-, -, ht⟩
  · rw [hc] at hl; cases hl
  · rw [(oscHangs_eq_false_iff _).2 (h i)] at hi; cases hi
  · exact ht

theorem ofNat_voiceCount : F32.ofNat voiceCount = ⟨0x40800000⟩ := by decide +kernel

end Tick

/-- Settles O47: the next state is `State.ticked`, and 4.0 is f32(N). -/
theorem tickMixesEveryVoice : Obligations.TickMixesEveryVoice := by
  intro s hc h
  refine ⟨_, _, exec_tick_of_legal hc h, ?_, fun i => Lanes.get_map _ _ i, rfl, rfl, rfl, rfl, rfl, rfl, rfl, rfl⟩
  rw [State.ticked_sampleOut, mix, ofNat_voiceCount]
  rfl

/-- Settles O48: by `exec_tick_voice` each voice is its own VOICE_TICK, which keeps FREQ, WAVE and GAIN. -/
theorem tickFrame : Obligations.TickFrame := by
  intro s t h
  obtain ⟨hcfg, hstatus, hcfgIn, hinput⟩ := exec_frame h
  refine ⟨fun i => ?_, by rw [eq_ticked_of_exec_tick h, State.ticked_slots], hcfg, hstatus, hcfgIn, hinput⟩
  rw [exec_tick_voice h]
  exact ⟨rfl, rfl, rfl⟩

/-! ## A TICK with every voice Idle -/

section Silence

/-- The mix of zeros is +0.0. -/
theorem mix_of_isZero {l : List F32} (h : ∀ x ∈ l, x.isZero = true) : mix l = F32.zero := by
  have hsum : l.foldl F32.add F32.zero = F32.zero := by
    induction l with
    | nil => rfl
    | cons x xs ih =>
      rw [List.foldl_cons, F32.zero_add_of_isZero (h x List.mem_cons_self)]
      exact ih fun y hy => h y (List.mem_cons_of_mem x hy)
  rw [mix, hsum, ofNat_voiceCount]
  exact zero_div_step (by decide) (by decide +kernel)

variable {c : Cfg} {v : Voice}

theorem voiceTick_idle (h : v.env.state = .idle) :
    (voiceTick c v).1 =
      { osc := { phase := phaseNext c v.osc.phase, freq := v.osc.freq, wave := v.osc.wave }
        env := { state := .idle, amp := F32.zero, elapsed := elapsedNext v.env.elapsed }
        gain := v.gain } := by
  simp [voiceTick, oscTick, envTick, envLevel, h]

theorem voiceTick_sample_of_gainScaling (hgs : c.gainScaling = true) (v : Voice) :
    (voiceTick c v).2 = ((oscTick c v.osc).2.mul (envTick c v.env).2).mul v.gain := voiceOutput_of_gainScaling hgs ..

/-- An Idle voice returns a zero: its amplitude is +0.0, and its raw sample and its gain are finite. -/
theorem VoiceInv.isZero_sample_of_idle (hc : c.legal = true) (hv : VoiceInv c v) (h : v.env.state = .idle) :
    (voiceTick c v).2.isZero = true := by
  have hs : (oscTick c v.osc).2.isFinite = true := (hv.osc.bounded_sample hc).isFinite (by norm_num)
  have hg : v.gain.isFinite = true := (bounded_of_unitRange hv.gain_ge hv.gain_le).isFinite (by norm_num)
  have ha : (envTick c v.env).2 = F32.zero := (envTick_idle h).2
  have hsa : ((oscTick c v.osc).2.mul (envTick c v.env).2).isZero = true := by
    rw [ha]; exact F32.isZero_mul hs F32.isFinite_zero (.inr (by decide))
  cases hgs : c.gainScaling with
  | false => rwa [voiceTick_sample_of_not_gainScaling hgs]
  | true =>
    rw [voiceTick_sample_of_gainScaling hgs]
    exact F32.isZero_mul (F32.isFinite_of_isZero hsa) hg (.inl hsa)

end Silence

/-- Settles O51: every voice returns a zero, and zeros of either sign added to +0.0 leave +0.0. -/
theorem idleTickEmitsPositiveZero : Obligations.IdleTickEmitsPositiveZero := by
  intro s hs hidle
  have hmix : mix s.voiceSamples.toList = F32.zero := mix_of_isZero fun x hx => by
    obtain ⟨i, rfl⟩ := (Lanes.mem_toList _ _).1 hx
    rw [State.voiceSamples, Lanes.get_map]
    exact (hs.voice i).isZero_sample_of_idle hs.legal (hidle i)
  refine ⟨_, exec_tick_of_legal hs.legal fun i => .inr (hs.voice i).osc.freq_pos, ?_, ?_, fun i => ?_, rfl, rfl, rfl⟩
  · rw [State.ticked_sampleOut, hmix]; rfl
  · rw [State.ticked_emitted, hmix]; rfl
  · rw [State.ticked_voices, Lanes.get_map]
    exact voiceTick_idle (hidle i)

/-! ## SET_WAVEFORM -/

/-- Settles O50: the next state is `State.withWaveform`, a map over the voices. -/
theorem setWaveformSetsEveryOscillator : Obligations.SetWaveformSetsEveryOscillator := fun s w =>
  ⟨s.withWaveform w, rfl, fun i => Lanes.get_map _ _ i, rfl, rfl, rfl, rfl, rfl, rfl, rfl⟩

end Machine

end Sys2Proof
end

section
/-! PROOFS. The statements of 60_exceptions.md: which configurations are legal (R214), where TICK stops (R214, R216), that no
command reads STATUS (R211, R222), what a reserved word does (R211), and that under the invariant nothing else stops the block
(R210, R226). -/

namespace Sys2Proof.Machine

/-! ## Legal configurations -/

/-- A legal time in units: a finite value is no NaN, so the comparison with 0.0 is that of the units. -/
theorem legalTime_iff (t : F32) : legalTime t = true ↔ t.isFinite = true ∧ 0 < t.units := by
  rw [legalTime, Bool.and_eq_true, F32.lt_iff, F32.units_zero]
  exact and_congr_right fun hf => ⟨fun ⟨_, _, h⟩ => h, fun h => ⟨F32.isNaN_zero, F32.isNaN_of_isFinite hf, h⟩⟩

/-- A legal SAMPLE_RATE in units (00_scope.md R9). -/
theorem sampleRate_legal_iff (x : F32) :
    F32.one.le x = true ∧ x.le maxSampleRate = true ↔ x.isNaN = false ∧ 2 ^ 149 ≤ x.units ∧ x.units ≤ 2 ^ 173 := by
  have hmax : maxSampleRate.isNaN = false ∧ maxSampleRate.units = 2 ^ 173 := by decide +kernel
  rw [F32.le_iff, F32.le_iff, F32.units_one, hmax.2]
  exact ⟨fun ⟨⟨_, hn, hlo⟩, _, _, hhi⟩ => ⟨hn, hlo, hhi⟩, fun ⟨hn, hlo, hhi⟩ => ⟨⟨F32.isNaN_one, hn, hlo⟩, hn, hmax.1, hhi⟩⟩

/-- Settles O13: each field's test is its range in units, NaN excluded. -/
theorem legalConfigurations : Obligations.LegalConfigurations := by
  intro c
  simp only [Cfg.legal, Bool.and_eq_true, legalTime_iff, and_assoc, ← sampleRate_legal_iff, ← unitRange_iff, List.forall_mem_cons,
    List.not_mem_nil, false_imp_iff, implies_true, true_and]

/-! ## Where TICK stops -/

section Stops

variable {s : State}

theorem oscHangs_eq_true_iff (o : Osc) : oscHangs o = true ↔ o.wave ≠ .sine ∧ F32.zero.lt o.freq = false := by
  rw [oscHangs, Bool.and_eq_true, decide_eq_true_eq, Bool.not_eq_true']

theorem exec_tick_of_illegal (hc : s.cfg.legal = false) : exec .tick s = .refused .refusedConfiguration := by
  rcases execTick_cases s with ⟨-, ht⟩ | ⟨hl, -⟩ | ⟨hl, -⟩
  · exact ht
  · cases hc.symm.trans hl
  · cases hc.symm.trans hl

theorem exec_tick_of_hangs (hc : s.cfg.legal = true) {i : Fin 4} (hi : oscHangs (s.voices.get i).osc = true) :
    exec .tick s = .fault .oscFrequencyPrecondition := by
  rcases execTick_cases s with ⟨hl, -⟩ | ⟨-, -, ht⟩ | ⟨-, hall, -⟩
  · cases hc.symm.trans hl
  · exact ht
  · cases hi.symm.trans (hall i)

end Stops

/-- Settles O49: the three outcomes of `execTick_cases`, each at its own condition. -/
theorem tickStopsOnlyOnABrokenPrecondition : Obligations.TickStopsOnlyOnABrokenPrecondition :=
  fun _ => ⟨exec_tick_of_illegal, fun hc ⟨_, hi⟩ => exec_tick_of_hangs hc ((oscHangs_eq_true_iff _).2 hi),
    fun hc h => ⟨_, exec_tick_of_legal hc h⟩⟩

/-! ## STATUS -/

/-- The outcome with STATUS `x` in the next state, if there is one. -/
def outcomeWithStatus (x : BitVec 16) : Host.Outcome State Fault Refusal → Host.Outcome State Fault Refusal
  | .next t => .next { t with status := x }
  | .fault f => .fault f
  | .refused r => .refused r

/-- A command on a state with STATUS `x` does what it does without, and leaves `x` in STATUS. -/
theorem exec_withStatus (i : Instr) (s : State) (x : BitVec 16) :
    exec i { s with status := x } = outcomeWithStatus x (exec i s) := by
  cases i with
  | noteOff n v =>
    have hscan : ({ s with status := x } : State).firstMatch n = s.firstMatch n := rfl
    cases hm : s.firstMatch n with
    | none => rw [exec_noteOff_of_unmatched hm, exec_noteOff_of_unmatched (hscan.trans hm)]; rfl
    | some j => rw [exec_noteOff_of_firstMatch hm, exec_noteOff_of_firstMatch (hscan.trans hm)]; rfl
  | noteOn n v =>
    have hscan : ({ s with status := x } : State).firstFree = s.firstFree := rfl
    cases hf : s.firstFree with
    | none => rw [exec_noteOn_of_full hf, exec_noteOn_of_full (hscan.trans hf)]; rfl
    | some j => rw [exec_noteOn_of_firstFree hf, exec_noteOn_of_firstFree (hscan.trans hf)]; rfl
  | tick =>
    rcases execTick_cases s with ⟨hc, -⟩ | ⟨hc, ⟨j, hj⟩, -⟩ | ⟨hc, hall, -⟩
    · rw [exec_tick_of_illegal hc, exec_tick_of_illegal (s := { s with status := x }) hc]; rfl
    · rw [exec_tick_of_hangs hc hj, exec_tick_of_hangs (s := { s with status := x }) hc hj]; rfl
    · have hrun (k : Fin 4) := (oscHangs_eq_false_iff _).1 (hall k)
      rw [exec_tick_of_legal hc hrun, exec_tick_of_legal (s := { s with status := x }) hc hrun]; rfl
  | setWaveform w => rfl

/-- Settles O54: by `exec_withStatus` STATUS reaches no outcome, and by `exec_frame` a command keeps it. -/
theorem statusDoesNotInfluenceCommands : Obligations.StatusDoesNotInfluenceCommands := by
  intro i s x
  have hx := exec_withStatus i s x
  refine ⟨fun t h => ⟨?_, hx.trans (congrArg _ h)⟩, fun f h => hx.trans (congrArg _ h), fun r h => hx.trans (congrArg _ h)⟩
  obtain ⟨-, hstatus, -⟩ := exec_frame h
  exact hstatus

/-! ## Reserved words -/

theorem State.illegal_setIllegal (s : State) : s.setIllegal.illegal = true := by
  rw [State.illegal, State.setIllegal_status, BitVec.getLsbD_or]
  exact Bool.or_true _

/-- A recorded fault bars a run from being final (R211). -/
theorem State.recordedFault_of_illegal {s : State} (h : s.illegal = true) :
    s.recordedFault = some .illegalCommand ∧ s.final = false := by
  have hfault : s.recordedFault = some .illegalCommand := if_pos h
  exact ⟨hfault, by rw [State.final, hfault]; exact Bool.and_false _⟩

theorem serveWord_of_reserved {w : CmdWord} {r : ReservedReason} (h : decode w = .reserved r) (s : State) :
    serveWord w s = .next s.setIllegal := by
  rw [serveWord, h]
  rfl

/-- Only RESET clears the flag: a command keeps STATUS, a reserved word sets the flag. -/
theorem illegal_of_step {s t : State} (hstep : step s = .next t) (hs : s.illegal = true) :
    t.illegal = true ∨ ∃ abandoned rest, s.input = .reset abandoned :: rest := by
  rcases step_cases hstep with ⟨-, rfl⟩ | ⟨w, rest, i, -, -, hex⟩ | ⟨w, rest, r, -, -, rfl⟩ | ⟨a, rest, hin, -⟩ |
    ⟨c, rest, -, rfl⟩
  · exact .inl hs
  · obtain ⟨-, hstatus, -⟩ := exec_frame hex
    left
    rwa [State.illegal, hstatus]
  · exact .inl (State.illegal_setIllegal _)
  · exact .inr ⟨a, rest, hin⟩
  · exact .inl hs

/-- Settles O9: a reserved word is served by `State.setIllegal`, and the port masks all of STATUS but the flag. -/
theorem reservedWordSetsIllegalOnly : Obligations.ReservedWordSetsIllegalOnly := by
  refine ⟨fun s w rest r hin hdec => ⟨?_, State.recordedFault_of_illegal (State.illegal_setIllegal { s with input := rest })⟩,
    fun s t => illegal_of_step, fun s => ?_⟩
  · rw [step, hin]
    exact serveWord_of_reserved hdec _
  · rw [State.statusPort, State.illegal]
    exact BitVec.and_one_eq_setWidth_ofBool_getLsbD.trans (by cases s.status.getLsbD 0 <;> rfl)

/-! ## Progress -/

/-- Settles O10: the first case of `step`. -/
theorem stepWithoutInputHoldsTheState : Obligations.StepWithoutInputHoldsTheState := fun s h => by rw [step, h]

/-- Under the invariant every command completes: TICK finds a legal CFG and every FREQ above 0.0. -/
theorem State.Inv.exec_completes {s : State} (h : s.Inv) (i : Instr) : ∃ t, Machine.exec i s = .next t := by
  cases i with
  | noteOff n v => rcases execNoteOff_cases n v s with ⟨j, -, ht⟩ | ⟨-, ht⟩ <;> exact ⟨_, ht⟩
  | noteOn n v => rcases execNoteOn_cases n v s with ⟨j, -, ht⟩ | ⟨-, ht⟩ <;> exact ⟨_, ht⟩
  | tick => exact ⟨_, exec_tick_of_legal h.legal fun j => .inr (h.voice j).osc.freq_pos⟩
  | setWaveform w => exact ⟨_, rfl⟩

/-- Settles O58: of the transactions only a command word and a RESET could stop; the invariant does not depend on the input,
so a command completes by `State.Inv.exec_completes`. -/
theorem theBlockCannotFail : Obligations.TheBlockCannotFail := by
  intro s hs hreset
  cases hin : s.input with
  | nil => exact ⟨s, stepWithoutInputHoldsTheState s hin⟩
  | cons x rest =>
    rw [step, hin]
    cases x with
    | command w =>
      cases hdec : decode w with
      | command i =>
        obtain ⟨t, ht⟩ := (hs.host s.cfgIn rest).exec_completes i
        exact ⟨t, (serveWord_of_decode hdec _).trans ht⟩
      | reserved r => exact ⟨_, serveWord_of_reserved hdec _⟩
    | reset a => exact ⟨_, if_pos (hreset a rest hin)⟩
    | driveCfg c => exact ⟨_, rfl⟩

end Sys2Proof.Machine
end

section
/-! PROOFS. The statements of 70_reset_and_hazards.md: what RESET loads and where it is refused (R240, R242), that CFG changes at
RESET alone (R241), and that State.reset is one such reset, so that it meets the invariant. -/

namespace Sys2Proof.Machine

/-! ## The two outcomes of RESET -/

section Reset

variable {s : State} {abandoned : Option CmdWord} {rest : List Transaction}

theorem step_reset_of_legal (hin : s.input = .reset abandoned :: rest) (hc : (Cfg.ofPort s.cfgIn).legal = true) :
    step s = .next (({ s with input := rest } : State).afterReset (Cfg.ofPort s.cfgIn)) := by
  rw [step, hin]
  exact if_pos hc

theorem step_reset_of_illegal (hin : s.input = .reset abandoned :: rest) (hc : (Cfg.ofPort s.cfgIn).legal = false) :
    step s = .refused .refusedConfiguration := by
  rw [step, hin]
  exact if_neg (Bool.eq_false_iff.1 hc)

/-- A RESET that completes had a legal configuration to load, and loaded it. -/
theorem cfg_of_step_reset {t : State} (hin : s.input = .reset abandoned :: rest) (hstep : step s = .next t) :
    t.cfg = Cfg.ofPort s.cfgIn := by
  cases hc : (Cfg.ofPort s.cfgIn).legal with
  | true => cases (step_reset_of_legal hin hc).symm.trans hstep; exact State.afterReset_cfg _ _
  | false => cases (step_reset_of_illegal hin hc).symm.trans hstep

end Reset

/-- Settles O11: the state that RESET leaves is `State.afterReset`, whose registers the laws of that update give. -/
theorem resetLoadsEveryRegister : Obligations.ResetLoadsEveryRegister := fun _ _ _ hin hc =>
  ⟨_, step_reset_of_legal hin hc, State.afterReset_cfg _ _, State.afterReset_voice _ _, State.afterReset_slot _ _,
    State.afterReset_status _ _, State.afterReset_sampleOut _ _, State.afterReset_emitted _ _, State.afterReset_input _ _,
    State.afterReset_cfgIn _ _⟩

/-- Settles O12: the other outcome of RESET. -/
theorem illegalConfigurationIsRefusedAtReset : Obligations.IllegalConfigurationIsRefusedAtReset :=
  fun _ _ _ => step_reset_of_illegal

/-! ## CFG -/

/-- Of what a step can do only a RESET writes CFG: a command has CFG in its frame, a reserved word writes STATUS and a new level
on CFG_IN no register. -/
theorem cfg_of_step_of_not_reset {s t : State} (hreset : ∀ abandoned rest, s.input ≠ .reset abandoned :: rest)
    (hstep : step s = .next t) : t.cfg = s.cfg := by
  rcases step_cases hstep with ⟨-, rfl⟩ | ⟨w, rest, i, -, -, hex⟩ | ⟨w, rest, r, -, -, rfl⟩ | ⟨a, rest, hin, -⟩ |
    ⟨c, rest, -, rfl⟩
  · rfl
  · obtain ⟨hcfg, -⟩ := exec_frame hex
    exact hcfg
  · exact State.setIllegal_cfg _
  · exact absurd hin (hreset a rest)
  · exact State.driveCfgIn_cfg c _

/-- Settles O14: CFG at a RESET, at any other step, and what a new level on CFG_IN does. -/
theorem configurationChangesOnlyAtReset : Obligations.ConfigurationChangesOnlyAtReset := by
  refine ⟨fun _ _ _ _ => cfg_of_step_reset, fun _ _ => cfg_of_step_of_not_reset, fun s c rest hin => ?_⟩
  rw [step, hin]
  rfl

/-! ## State.reset -/

/-- Settles O15: the four lanes of State.reset are equal; the other registers are written out in it. -/
theorem resetStateHoldsTheSpecValues : Obligations.ResetStateHoldsTheSpecValues :=
  ⟨Lanes.get_const Voice.reset, Lanes.get_const Slot.free, rfl, rfl, rfl, rfl, rfl⟩

/-- The default configuration, carried by CFG_IN at State.reset, is legal. -/
theorem reset_cfgIn_legal : (Cfg.ofPort State.reset.cfgIn).legal = true := by decide +kernel

/-- Settles O56: by `afterReset_reset` State.reset is what a RESET with a legal configuration leaves, and RESET establishes the
invariant. -/
theorem resetMeetsTheInvariant : Obligations.ResetMeetsTheInvariant := by
  have hinv := State.Inv.afterReset reset_cfgIn_legal State.reset
  rwa [afterReset_reset] at hinv

end Sys2Proof.Machine
end
